-- ==== Sys2Proof/Word.lean ====
section
/-! DEFINITION. The words of PVCORE's bus (20_memory.md R62, R64): 64 bits wide, made of bytes. -/

namespace Sys2Proof

/-- One bus word: a register's image, a scalar, a command word (R62, R100). -/
abbrev Word := BitVec 64

/-- One byte of the host aperture (R60). -/
abbrev Byte := BitVec 8

end Sys2Proof
end

