-- ==== Sys2Proof/Config.lean ====
section
/-! DEFINITION. What an implementation of PVCORE fixes: the named parameters of 00_scope.md R7 with the
values PVCORE takes, and the FREE VALUES, constants without a body for what the spec leaves open. -/

namespace Sys2Proof

/-- The tie rule of `round` in the phase unwrap (R7, R131). -/
inductive RoundTie where
  | away
  | even
  deriving DecidableEq, Repr

namespace Machine

/-- The record `Num` of R120, over the scalar type `R`. ZERO, ONE and TWO, which R120 defines through `ofInt`, are
definitions over it (Machine/Num.lean); `toBits` and `ofBits`, which only a format with a bus image has, are the
arguments of `Num.onWords` (Machine/Setting.lean). -/
structure Num (R : Type) where
  ofInt : Int → R
  half : R
  pi : R
  twoPi : R
  fadd : R → R → R
  fsub : R → R → R
  fmul : R → R → R
  fdiv : R → R → R
  fneg : R → R
  fsqrt : R → R
  fcos : R → R
  fsin : R → R
  fround : R → R
  /-- The ordinate comes first: `fatan2 y x`. -/
  fatan2 : R → R → R

end Machine

/-- The parameters of R7: the number system, its tie rule, the capacities, the bases of the address map of
20_memory.md R61. A default is the value PVCORE takes; the default of `num` is given with `Config.params`
(Machine/Setting.lean), since it is built from the free values below (log 1). TRIG_ULP is OPEN and is the argument of
`TrigAccurate` (log 9). -/
structure Params where
  /-- `Num`, for each tie rule, on the bus words themselves: a format with a bus image in which a scalar is its own
  word. Any record of R120 that has `toBits` and `ofBits` becomes one by `Num.onWords` (Machine/Setting.lean); the
  machine of a record that has none, as Num_exact, is that of Machine/Elements.lean. -/
  num : RoundTie → Machine.Num Word
  roundTie : RoundTie := .away
  logwMax : Nat := 10
  sigCap : Nat := 2 ^ 20
  frameCap : Nat := 2 ^ 12
  outCap : Nat := 2 ^ 21
  baseReg : Nat := 0x0
  baseWin : Nat := 0x2000
  baseLastph : Nat := 0x4000
  baseNewph : Nat := 0x6000
  baseFrm : Nat := 0x8000
  baseSig : Nat := 0x800000
  baseOut : Nat := 0x1000000
  baseSpa : Nat := 0x4000000
  baseSpb : Nat := 0x8000000
  apertureSize : Nat := 0xC000000

/-- W_MAX = 2^LOGW_MAX (R7). -/
def Params.wMax (p : Params) : Nat := 2 ^ p.logwMax

/-- The operations whose result can be a NaN of unspecified sign and payload (R132). -/
inductive FpOp where
  | add
  | sub
  | mul
  | div
  | sqrt
  | cos
  | sin
  | atan2
  | round
  deriving DecidableEq, Repr

/-- FREE VALUE (R47, R65, R66; U6, U11, U12): `Config.unspecified t a` is the word that stands at aperture
address `a` after the unspecified event numbered `t`. Nothing constrains it (log 4, log 5). -/
opaque Config.unspecified : Nat → Nat → Word

/-- FREE VALUE (R132, U8): the bits from which the NaN that an operation returns on these operands is made.
`Machine/Binary64.lean` forces the word to be a NaN; sign and payload stay free (log 6). -/
opaque Config.nanBits : FpOp → Word → Word → Word

/-- FREE VALUE (R127, U10): the cosine of a finite positive binary64 argument, before the bound T2 (log 7). -/
opaque Config.cosRaw : Word → Word

/-- FREE VALUE (R127, U10): the sine of a finite positive binary64 argument, before the bound T2 (log 7). -/
opaque Config.sinRaw : Word → Word

/-- FREE VALUE (R128, U10): `atan2 y x` of finite operands, neither of them zero, before the bound A2 (log 8). -/
opaque Config.atan2Raw : Word → Word → Word

/-- FREE VALUE (R77, N14, U7): the 16-bit sample the host's PCM conversion makes of a NaN (log 15). -/
opaque Config.pcmOfNan : Word → BitVec 16

end Sys2Proof
end

