-- ==== Sys2Proof/Syntax.lean ====
section
/-! DEFINITION. The eight commands of 30_encoding.md R102, one constructor per row of the opcode table. -/

namespace Sys2Proof

/-- The field BANK of SYNTH (R104): which spectrum memory is read. -/
inductive Bank where
  /-- BANK = 0: SPB, the vocoded sequence. -/
  | spb
  /-- BANK = 1: SPA, the analysis sequence. -/
  | spa
  deriving DecidableEq, Repr

/-- A command of PVCORE (R102, R105). No command carries an immediate, a register number or an address (R101). -/
inductive Instr where
  | nop
  | fft
  | ifft
  | wingen
  | analyze
  | vocode
  | synth (bank : Bank)
  | run
  deriving DecidableEq, Repr

end Sys2Proof
end

