-- ==== Sys2Proof/WellFormed.lean ====
section
/-! DEFINITION. What is well formed: a command, a command word (30_encoding.md R103), a choice of the
parameters (00_scope.md R7, 20_memory.md R61). -/

namespace Sys2Proof

/-- Every term of `Instr` is a command of R102: the one operand, BANK, has exactly its two values (R104), so
nothing is left to check. -/
def Instr.wf : Instr → Bool
  | .nop => true
  | .fft => true
  | .ifft => true
  | .wingen => true
  | .analyze => true
  | .vocode => true
  | .synth _ => true
  | .run => true

/-- A command word is legal when none of the three conditions of R103 holds: OPC in 0x08..0xFF, a bit of 63:9
set, BANK set with an OPC other than 0x06. -/
def commandWordLegal (w : Word) : Bool :=
  decide (w.toNat % 256 < 8) && decide (w.toNat / 512 = 0) &&
    (decide (w.toNat / 256 % 2 = 0) || decide (w.toNat % 256 = 6))

/-- The bounds of R7 on LOGW_MAX and the three capacities. -/
def Params.capsLegal (p : Params) : Bool :=
  decide (10 ≤ p.logwMax) && decide (p.logwMax ≤ 20) &&
    decide (p.wMax ≤ p.sigCap) && decide (p.sigCap < 2 ^ 32) &&
    decide (1 ≤ p.frameCap) && decide (p.frameCap < 2 ^ 32) &&
    decide (p.wMax ≤ p.outCap) && decide (p.outCap < 2 ^ 32)

/-- Every base is a multiple of 8 (R7, R61). -/
def Params.basesAligned (p : Params) : Bool :=
  [p.baseReg, p.baseWin, p.baseLastph, p.baseNewph, p.baseFrm, p.baseSig, p.baseOut, p.baseSpa, p.baseSpb].all
    fun b => decide (b % 8 = 0)

/-- The regions are disjoint, in the order of R61, and inside the aperture. -/
def Params.regionsInOrder (p : Params) : Bool :=
  decide (p.baseReg + 0x100 ≤ p.baseWin) &&
    decide (p.baseWin + 8 * p.wMax ≤ p.baseLastph) &&
    decide (p.baseLastph + 8 * p.wMax ≤ p.baseNewph) &&
    decide (p.baseNewph + 8 * p.wMax ≤ p.baseFrm) &&
    decide (p.baseFrm + 16 * p.wMax ≤ p.baseSig) &&
    decide (p.baseSig + 8 * p.sigCap ≤ p.baseOut) &&
    decide (p.baseOut + 8 * p.outCap ≤ p.baseSpa) &&
    decide (p.baseSpa + 16 * (p.frameCap * p.wMax) ≤ p.baseSpb) &&
    decide (p.baseSpb + 16 * (p.frameCap * p.wMax) ≤ p.apertureSize)

/-- A choice of the parameters that R7 and R61 allow. -/
def Params.legal (p : Params) : Bool :=
  p.capsLegal && p.basesAligned && p.regionsInOrder

end Sys2Proof
end

