-- ==== Sys2Proof/Decode.lean ====
section
/-! DEFINITION. Decoding a command word (30_encoding.md R100 to R105) and, after it, the encoder. The decoder is
the table of R102 read row by row; the encoder is written from the fields of R100. -/

namespace Sys2Proof

/-- Why a word is illegal (R103). The engine records ILLCMD for each of the three alike (R241, R244). -/
inductive Illegal where
  /-- OPC is in 0x08..0xFF. -/
  | reservedOpcode
  /-- A bit of 63:9 is set. -/
  | reservedBits
  /-- BANK is set and OPC is not 0x06. -/
  | bankWithoutSynth
  deriving DecidableEq, Repr

/-- One row of the table of R102: the word `w` selects it when `w AND mask = pattern`. -/
structure OpcodeRow where
  pattern : Word
  mask : Word
  deriving DecidableEq, Repr

/-- BANK as the decoder reads it, bit 8 (R100, R104). -/
def bankOfWord (w : Word) : Bank := if w.getLsbD 8 then .spa else .spb

/-- The table of R102 with the command each row stands for on the word `w`. -/
def opcodeRows (w : Word) : List (OpcodeRow × Instr) :=
  [ (⟨0x0000000000000000, 0xFFFFFFFFFFFFFFFF⟩, .nop),
    (⟨0x0000000000000001, 0xFFFFFFFFFFFFFFFF⟩, .fft),
    (⟨0x0000000000000002, 0xFFFFFFFFFFFFFFFF⟩, .ifft),
    (⟨0x0000000000000003, 0xFFFFFFFFFFFFFFFF⟩, .wingen),
    (⟨0x0000000000000004, 0xFFFFFFFFFFFFFFFF⟩, .analyze),
    (⟨0x0000000000000005, 0xFFFFFFFFFFFFFFFF⟩, .vocode),
    (⟨0x0000000000000006, 0xFFFFFFFFFFFFFEFF⟩, .synth (bankOfWord w)),
    (⟨0x0000000000000007, 0xFFFFFFFFFFFFFFFF⟩, .run) ]

/-- The word selects the row (R102). -/
def OpcodeRow.selects (r : OpcodeRow) (w : Word) : Bool := w &&& r.mask == r.pattern

/-- The name of what makes a word that no row selects illegal, the conditions in the order R103 lists them. -/
def illegalReason (w : Word) : Illegal :=
  if 8 ≤ w.toNat % 256 then .reservedOpcode
  else if w.toNat / 512 ≠ 0 then .reservedBits
  else .bankWithoutSynth

/-- Decoding, total on every 64-bit word (R105). -/
def decode (w : Word) : Except Illegal Instr :=
  match (opcodeRows w).find? (fun r => r.1.selects w) with
  | some r => .ok r.2
  | none => .error (illegalReason w)

/-- The 64-bit word of eight bytes, the byte at the lowest address first: little-endian (20_memory.md R63). -/
def wordOfBytes (bs : List Byte) : Word :=
  bs.foldr (fun b acc => acc <<< 8 ||| b.setWidth 64) 0

/-- The bytes of a word, the byte at the lowest address first: byte i holds bits 8i+7 : 8i (R63). -/
def bytesOfWord (w : Word) : List Byte :=
  [w.extractLsb' 0 8, w.extractLsb' 8 8, w.extractLsb' 16 8, w.extractLsb' 24 8,
    w.extractLsb' 32 8, w.extractLsb' 40 8, w.extractLsb' 48 8, w.extractLsb' 56 8]

/-- Decoding the eight bytes of a command word as they lie on the bus (R63, R100); any other number of bytes is
no command word. -/
def decodeBytes (bs : List Byte) : Option (Except Illegal Instr) :=
  if bs.length = 8 then some (decode (wordOfBytes bs)) else none

/-- The word whose bits `nbits - 1 : 0` are those of `w` and whose other bits are 0. -/
def wordOfTableBits (nbits w : Nat) : Word := BitVec.ofNat 64 (w % 2 ^ nbits)

/-- The instruction read from a word of the opcode table: laid out as bytes, given to the decoder. -/
def decodeTableWord (nbits w : Nat) : Option Instr :=
  match decodeBytes (bytesOfWord (wordOfTableBits nbits w)) with
  | some (.ok i) => some i
  | _ => none

/-- OPC of each command (R100 bits 7:0, R102). -/
def opcOf : Instr → BitVec 8
  | .nop => 0x00
  | .fft => 0x01
  | .ifft => 0x02
  | .wingen => 0x03
  | .analyze => 0x04
  | .vocode => 0x05
  | .synth _ => 0x06
  | .run => 0x07

/-- BANK of each command (R100 bit 8): 0 unless SYNTH reads SPA (R104). -/
def bankBitOf : Instr → BitVec 1
  | .nop => 0
  | .fft => 0
  | .ifft => 0
  | .wingen => 0
  | .analyze => 0
  | .vocode => 0
  | .synth .spb => 0
  | .synth .spa => 1
  | .run => 0

/-- The command word of a command: reserved bits 63:9 zero, then BANK, then OPC (R100). -/
def encode (i : Instr) : Word := (0 : BitVec 55) ++ bankBitOf i ++ opcOf i

end Sys2Proof
end

