-- ==== Sys2Proof/Machine/AddressMap.lean ====
section
/-! DEFINITION. The host aperture: regions, registers, element addresses (10_state.md R49, 20_memory.md R61, R62,
R71). -/

namespace Sys2Proof.Machine

/-- The eight memories (R61). -/
inductive Region where
  | win
  | lastph
  | newph
  | frm
  | sig
  | out
  | spa
  | spb
  deriving DecidableEq, Repr

/-- The eight registers (10_state.md R49). -/
inductive Reg where
  | cmd
  | status
  | logw
  | hop
  | stretch
  | siglen
  | nframes
  | outlen
  deriving DecidableEq, Repr

/-- All regions, in the order of R61. -/
def allRegions : List Region := [.win, .lastph, .newph, .frm, .sig, .out, .spa, .spb]

/-- All registers, in the order of R49. -/
def allRegs : List Reg := [.cmd, .status, .logw, .hop, .stretch, .siglen, .nframes, .outlen]

/-- The base of a region (R61). -/
def regionBase (p : Params) : Region → Nat
  | .win => p.baseWin
  | .lastph => p.baseLastph
  | .newph => p.baseNewph
  | .frm => p.baseFrm
  | .sig => p.baseSig
  | .out => p.baseOut
  | .spa => p.baseSpa
  | .spb => p.baseSpb

/-- The elements of a region hold two scalars, real then imaginary (R61 esize 16, R62). -/
def regionIsComplex : Region → Bool
  | .win => false
  | .lastph => false
  | .newph => false
  | .frm => true
  | .sig => false
  | .out => false
  | .spa => true
  | .spb => true

/-- The element size in bytes (R61). -/
def elementSize (g : Region) : Nat := if regionIsComplex g then 16 else 8

/-- The capacity of a region in elements (R61). -/
def regionElements (p : Params) : Region → Nat
  | .win => p.wMax
  | .lastph => p.wMax
  | .newph => p.wMax
  | .frm => p.wMax
  | .sig => p.sigCap
  | .out => p.outCap
  | .spa => p.frameCap * p.wMax
  | .spb => p.frameCap * p.wMax

/-- The size of a region in bytes (R61). -/
def regionBytes (p : Params) (g : Region) : Nat := elementSize g * regionElements p g

/-- What the host may do to a region (R61): read-write or read-only. -/
def regionHostWritable : Region → Bool
  | .win => false
  | .lastph => false
  | .newph => false
  | .frm => true
  | .sig => true
  | .out => false
  | .spa => true
  | .spb => true

/-- The offset of a register from BASE_REG (R49). -/
def regOffset : Reg → Nat
  | .cmd => 0x00
  | .status => 0x08
  | .logw => 0x10
  | .hop => 0x18
  | .stretch => 0x20
  | .siglen => 0x28
  | .nframes => 0x30
  | .outlen => 0x38

/-- The aperture address of a register. -/
def regAddr (p : Params) (r : Reg) : Nat := p.baseReg + regOffset r

/-- What the host may do to a register (R49). -/
def regHostWritable : Reg → Bool
  | .cmd => true
  | .status => false
  | .logw => true
  | .hop => true
  | .stretch => true
  | .siglen => true
  | .nframes => true
  | .outlen => false

/-- The address of a scalar element, and of the real part of a complex one (R62). -/
def elementAddr (p : Params) (g : Region) (idx : Nat) : Nat := regionBase p g + elementSize g * idx

/-- The address of the imaginary part of a complex element (R62). -/
def imagAddr (p : Params) (g : Region) (idx : Nat) : Nat := elementAddr p g idx + 8

/-- The byte address lies in the region. -/
def inRegion (p : Params) (g : Region) (a : Nat) : Bool :=
  decide (regionBase p g ≤ a) && decide (a < regionBase p g + regionBytes p g)

/-- What stands at an aperture address (R61): a register, a word of a memory, or a hole. -/
inductive Place where
  | reg (r : Reg)
  | region (g : Region)
  | hole
  deriving DecidableEq, Repr

/-- The place of an 8-byte aligned address (R49, R61). -/
def placeOf (p : Params) (a : Nat) : Place :=
  match allRegs.find? fun r => regAddr p r == a with
  | some r => .reg r
  | none =>
    match allRegions.find? fun g => inRegion p g a with
    | some g => .region g
    | none => .hole

end Sys2Proof.Machine
end

