-- ==== Sys2Proof/Machine/State.lean ====
section
/-! DEFINITION. The state of PVCORE (10_state.md R21): eight registers, eight memories; and the model's own
fields for the host, the reset input and the free values. Plain data. -/

namespace Sys2Proof.Machine

/-- The memories of PVCORE as the host's aperture lays them out (20_memory.md R61): cells (byte address, byte).
An address that is not listed holds no value (10_state.md R47; log 3). -/
abbrev Memory := List Host.Cell

/-- The canonical form: addresses strictly rising. What an unlisted address reads as is "no value", which is no
byte, so no entry can equal it. -/
abbrev Memory.wf (m : Memory) : Prop := m.Pairwise fun a b => a.1 < b.1

/-- STATUS (10_state.md R31). The host cannot write it, and its other bits read as 0, so the fields are all of
it; `statusWord` (Machine/Flags.lean) is the word the host reads. -/
structure Status where
  busy : Bool
  done : Bool
  err : Bool
  winok : Bool
  accerr : Bool
  errcode : BitVec 4
  deriving DecidableEq, Repr

/-- One host bus transaction (00_scope.md R12): `MemRead(addr, size)` or `MemWrite(addr, size, v)`, legal or not,
where V is what a write carries. -/
inductive BusOpOf (V : Type) where
  | read (addr size : Nat)
  | write (addr size : Nat) (v : V)
  deriving DecidableEq, Repr

/-- What the environment of the engine can do in one step: a bus transaction of the host (10_state.md R20), one read
of STATUS in the pseudo-operation `WAIT` (30_encoding.md R107), or the reset input (70_reset_and_hazards.md R260). -/
inductive ActOf (V : Type) where
  | bus (op : BusOpOf V)
  | poll
  | reset
  deriving DecidableEq, Repr

/-- An act still to come. One with `early = 0` waits until BUSY = 0; one with `early > 0` happens even while a command
is in flight. A poll is repeated until it reads BUSY = 0 (30_encoding.md R107), and `early` counts how many more times
it reads BUSY = 1 before the engine moves: how long BUSY stays 1 is open (93_implementation_defined.md U15), so any
count may stand here (log 2). -/
structure EventOf (V : Type) where
  early : Nat
  act : ActOf V
  deriving DecidableEq, Repr

/-- A transaction on the host bus, whose data are 64-bit words (20_memory.md R62, R64). -/
abbrev BusOp := BusOpOf Word

/-- An act with such a transaction. -/
abbrev Act := ActOf Word

/-- An event with such an act. -/
abbrev Event := EventOf Word

/-- The state (R21). `tick`, `script` and `seen` are the MODEL's own (log 2, log 4): how many unspecified events
there have been, what the environment will do, and what the host's reads returned, newest first. -/
structure State where
  cmd : Word
  status : Status
  logw : BitVec 5
  hop : BitVec 32
  stretch : Word
  siglen : BitVec 32
  nframes : BitVec 32
  outlen : BitVec 32
  mem : Memory
  tick : Nat
  script : List Event
  seen : List Word
  deriving DecidableEq, Repr

/-- Why the machine stops with a fault: never. The errors of the spec are recorded in STATUS and the machine goes
on (60_exceptions.md R240 to R248), and no data traps (40_numerics.md R133), so there is no constructor (log 17). -/
inductive Fault where
  deriving DecidableEq, Repr

/-- Why the machine refuses to give a meaning. -/
inductive Refusal where
  /-- Raised by an arm of `exec` whose instruction has no meaning yet; safe. No arm does. -/
  | notModelled (mnemonic : String)
  deriving DecidableEq, Repr

/-- STATUS after reset: 0 (10_state.md R48). -/
def Status.reset : Status :=
  { busy := false, done := false, err := false, winok := false, accerr := false, errcode := 0 }

/-- The machine right after reset (10_state.md R48, 70_reset_and_hazards.md R260): the tunables at their defaults,
STRETCH the scalar 1.5, everything else zero, no element of any memory holding a value. -/
def State.reset : State :=
  { cmd := 0
    status := Status.reset
    logw := 10
    hop := 256
    stretch := 0x3FF8000000000000
    siglen := 0
    nframes := 0
    outlen := 0
    mem := []
    tick := 0
    script := []
    seen := [] }

end Sys2Proof.Machine
end

