-- ==== Sys2Proof/Machine/Flags.lean ====
section
/-! DEFINITION. STATUS (10_state.md R31, R32): the word the host reads, the error codes of 60_exceptions.md R240,
and the flag updates, each named after what R32 says sets or clears the flag. There are no arithmetic flags. -/

namespace Sys2Proof.Machine

/-- The refusal codes (R240). Codes 4 to 15 are reserved and have no name, so none can be produced (U14). -/
inductive CmdError where
  /-- The word in CMD is illegal (R241). -/
  | illcmd
  /-- LOGW or HOP has a value the command cannot run with (R242). -/
  | cfg
  /-- The request exceeds a capacity (R243). -/
  | cap
  deriving DecidableEq, Repr

/-- The value of STATUS.ERRCODE for a refusal (R240). -/
def errorCode : CmdError → BitVec 4
  | .illcmd => 1
  | .cfg => 2
  | .cap => 3

/-- One bit as a word. -/
def bitWord (b : Bool) (pos : Nat) : Word := if b then 1#64 <<< pos else 0

/-- STATUS as the host reads it: the fields at their places, zero elsewhere (R31). -/
def statusWord (t : Status) : Word :=
  bitWord t.busy 0 ||| bitWord t.done 1 ||| bitWord t.err 2 ||| bitWord t.winok 3 ||| bitWord t.accerr 4 |||
    t.errcode.setWidth 64 <<< 8

/-- Issue (R30): DONE, ERR, ERRCODE cleared, BUSY set. -/
def issueFlags (t : Status) : Status := { t with busy := true, done := false, err := false, errcode := 0 }

/-- The end of an executed command: DONE set, BUSY cleared (10_state.md R20, R31). -/
def completeFlags (t : Status) : Status := { t with busy := false, done := true }

/-- The end of a refused command (R245). -/
def refuseFlags (e : CmdError) (t : Status) : Status :=
  { t with busy := false, done := false, err := true, errcode := errorCode e }

/-- WINOK set or cleared (R32, R43). -/
def setWinok (b : Bool) (t : Status) : Status := { t with winok := b }

/-- `raise AccErr` on the flag: sticky (R248). -/
def raiseAccerr (t : Status) : Status := { t with accerr := true }

end Sys2Proof.Machine
end

