-- ==== Sys2Proof/Machine/Num.lean ====
section
/-! DEFINITION. The constants of 40_numerics.md R120 and the complex operations R140 to R147, over any number system
`Num` (Sys2Proof/Config.lean). Machine/Binary64.lean is the instance of the default configuration, Machine/Exact.lean
the one about which the closed forms of the spec speak. -/

namespace Sys2Proof.Machine

/-- A complex value: a pair (re, im) of scalars (00_scope.md R10). -/
structure Cx (R : Type) where
  re : R
  im : R
  deriving DecidableEq, Repr

variable {R : Type}

/-- ZERO = ofInt(0) (R120). -/
def zeroOf (num : Num R) : R := num.ofInt 0

/-- ONE = ofInt(1) (R120). -/
def oneOf (num : Num R) : R := num.ofInt 1

/-- TWO = ofInt(2) (R120). -/
def twoOf (num : Num R) : R := num.ofInt 2

/-- R140. -/
def cadd (num : Num R) (a b : Cx R) : Cx R := ⟨num.fadd a.re b.re, num.fadd a.im b.im⟩

/-- R141. -/
def csub (num : Num R) (a b : Cx R) : Cx R := ⟨num.fsub a.re b.re, num.fsub a.im b.im⟩

/-- R142: four products, one difference, one sum, each one operation. -/
def cmul (num : Num R) (a b : Cx R) : Cx R :=
  ⟨num.fsub (num.fmul a.re b.re) (num.fmul a.im b.im),
    num.fadd (num.fmul a.re b.im) (num.fmul a.im b.re)⟩

/-- R143. -/
def conj (num : Num R) (a : Cx R) : Cx R := ⟨a.re, num.fneg a.im⟩

/-- R144. -/
def cabs (num : Num R) (a : Cx R) : R :=
  num.fsqrt (num.fadd (num.fmul a.re a.re) (num.fmul a.im a.im))

/-- R145: the imaginary part is the first operand of `fatan2`. -/
def carg (num : Num R) (a : Cx R) : R := num.fatan2 a.im a.re

/-- R146. -/
def cpolar (num : Num R) (m θ : R) : Cx R := ⟨num.fmul m (num.fcos θ), num.fmul m (num.fsin θ)⟩

/-- R147: the division of both parts by the integer N. -/
def cdivN (num : Num R) (a : Cx R) (n : Nat) : Cx R :=
  ⟨num.fdiv a.re (num.ofInt n), num.fdiv a.im (num.ofInt n)⟩

end Sys2Proof.Machine
end

