-- ==== Sys2Proof/Machine/Ops.lean ====
section
/-! DEFINITION. The named operations over memory, registers and free values, the refusal of a command (what
PVCORE has for taking an exception, 60_exceptions.md R245) and the issue that ends it (R247). -/

namespace Sys2Proof.Machine

/-! ## Bytes and words of memory -/

/-- The byte at an address, or none where no value is held (10_state.md R47). -/
def readByte : Memory → Nat → Option Byte
  | [], _ => none
  | c :: m, a => if c.1 = a then some c.2 else readByte m a

/-- The cells of consecutive bytes from an address on. -/
def cellsFrom (a : Nat) : List Byte → Memory
  | [] => []
  | b :: bs => (a, b) :: cellsFrom (a + 1) bs

/-- The cells below an address. -/
def cellsBelow (m : Memory) (a : Nat) : Memory := m.filter fun c => decide (c.1 < a)

/-- The cells at an address or above it. -/
def cellsAbove (m : Memory) (a : Nat) : Memory := m.filter fun c => decide (a ≤ c.1)

/-- Consecutive bytes written from an address on; every other byte stays. -/
def writeBytes (m : Memory) (a : Nat) (bs : List Byte) : Memory :=
  cellsBelow m a ++ cellsFrom a bs ++ cellsAbove m (a + bs.length)

/-- The `n` bytes from an address on hold no value afterwards (R44, R47). -/
def eraseBytes (m : Memory) (a n : Nat) : Memory := cellsBelow m a ++ cellsAbove m (a + n)

/-- `n` consecutive bytes, or none if one of them holds no value. -/
def readBytes (m : Memory) (a : Nat) : Nat → Option (List Byte)
  | 0 => some []
  | n + 1 =>
    match readByte m a, readBytes m (a + 1) n with
    | some b, some bs => some (b :: bs)
    | _, _ => none

/-- The word at an address (20_memory.md R62, R63), or none where it holds no value. -/
def readWord (m : Memory) (a : Nat) : Option Word := (readBytes m a 8).map wordOfBytes

/-- `n` consecutive words, or none if one of them holds no value. -/
def readWords (m : Memory) (a : Nat) : Nat → Option (List Word)
  | 0 => some []
  | n + 1 =>
    match readWord m a, readWords m (a + 8) n with
    | some w, some ws => some (w :: ws)
    | _, _ => none

/-- Consecutive words written from an address on (R62, R63). -/
def writeWords (m : Memory) (a : Nat) (ws : List Word) : Memory := writeBytes m a (ws.flatMap bytesOfWord)

/-! ## Elements of the memories -/

/-- The scalars of complex values: real, then imaginary (R62). -/
def wordsOfComplex {R : Type} : List (Cx R) → List R
  | [] => []
  | z :: zs => z.re :: z.im :: wordsOfComplex zs

/-- Complex values of their scalars (R62). -/
def complexOfWords {R : Type} : List R → List (Cx R)
  | x :: y :: ws => ⟨x, y⟩ :: complexOfWords ws
  | _ => []

/-- Scalar elements `[first, first + n)` of a region, or none if one of them holds no value. -/
def readScalars (p : Params) (m : Memory) (g : Region) (first n : Nat) : Option (List Word) :=
  readWords m (elementAddr p g first) n

/-- Scalar elements of a region written from element `first` on. -/
def writeScalars (p : Params) (m : Memory) (g : Region) (first : Nat) (xs : List Word) : Memory :=
  writeWords m (elementAddr p g first) xs

/-- Complex elements `[first, first + n)` of a region, or none if a part of one of them holds no value. -/
def readComplex (p : Params) (m : Memory) (g : Region) (first n : Nat) : Option (List (Cx Word)) :=
  (readWords m (elementAddr p g first) (2 * n)).map complexOfWords

/-- Complex elements of a region written from element `first` on. -/
def writeComplex (p : Params) (m : Memory) (g : Region) (first : Nat) (zs : List (Cx Word)) : Memory :=
  writeWords m (elementAddr p g first) (wordsOfComplex zs)

/-- One scalar element (R71), or none where it holds no value. -/
def scalarAt (p : Params) (m : Memory) (g : Region) (idx : Nat) : Option Word :=
  readWord m (elementAddr p g idx)

/-- One complex element (R71), or none where a part of it holds no value. -/
def complexAt (p : Params) (m : Memory) (g : Region) (idx : Nat) : Option (Cx Word) :=
  match readWord m (elementAddr p g idx), readWord m (imagAddr p g idx) with
  | some x, some y => some ⟨x, y⟩
  | _, _ => none

/-! ## Free values (10_state.md R47, U6, U11, U12; log 4, log 5) -/

/-- The free words of the unspecified event `t` at `n` consecutive word addresses. -/
def freeWords (t a : Nat) : Nat → List Word
  | 0 => []
  | n + 1 => Config.unspecified t a :: freeWords t (a + 8) n

/-- The free words of the unspecified event `t` written at `n` consecutive word addresses. -/
def scramble (t : Nat) (m : Memory) (a n : Nat) : Memory := writeWords m a (freeWords t a n)

/-- The free 32-bit value of the unspecified event `t` for a register. -/
def freeLength (p : Params) (t : Nat) (r : Reg) : BitVec 32 :=
  (Config.unspecified t (regAddr p r)).setWidth 32

/-- The free value of the unspecified event `t` for STATUS.WINOK. -/
def freeWinok (p : Params) (t : Nat) : Bool := (Config.unspecified t (regAddr p .status)).getLsbD 3

/-! ## Registers (10_state.md R22 to R31, R49) -/

/-- A register as the host reads it: its implemented bits, zero elsewhere. -/
def readReg (s : State) : Reg → Word
  | .cmd => s.cmd
  | .status => statusWord s.status
  | .logw => s.logw.setWidth 64
  | .hop => s.hop.setWidth 64
  | .stretch => s.stretch
  | .siglen => s.siglen.setWidth 64
  | .nframes => s.nframes.setWidth 64
  | .outlen => s.outlen.setWidth 64

/-- Issue of a command (R30): the whole word latched, the flags as R30 says. It is also what ends a refusal
(60_exceptions.md R247): there is no return instruction. -/
def issue (v : Word) (s : State) : State := { s with cmd := v, status := issueFlags s.status }

/-- A host write to a writable register (R22 to R26, R30): the implemented bits are stored; LOGW also clears
WINOK; CMD issues. The read-only registers keep what they hold (R27, R31). -/
def writeReg (s : State) (v : Word) : Reg → State
  | .cmd => issue v s
  | .status => s
  | .logw => { s with logw := v.setWidth 5, status := setWinok false s.status }
  | .hop => { s with hop := v.setWidth 32 }
  | .stretch => { s with stretch := v }
  | .siglen => { s with siglen := v.setWidth 32 }
  | .nframes => { s with nframes := v.setWidth 32 }
  | .outlen => s

/-! ## The end of a perform step -/

/-- `raise CmdError(code)` (R245): the refusal of a command, PVCORE's only exception entry. STATUS records it and
nothing else changes; there is no handler, no vector and no saved state. -/
def raiseCmdError (e : CmdError) (s : State) : State := { s with status := refuseFlags e s.status }

/-- The end of an executed command (10_state.md R20, R31). -/
def complete (s : State) : State := { s with status := completeFlags s.status }

/-- `raise AccErr` (R248): the sticky flag and nothing else. -/
def raiseAccErr (s : State) : State := { s with status := raiseAccerr s.status }

/-- A perform step: CFG before CAP, each before anything changes (R244, R245), else the command's body and its
completion (R246). -/
def perform (cfg cap : Bool) (body : State → State) (s : State) : Host.Outcome State Fault Refusal :=
  if cfg then .next (raiseCmdError .cfg s)
  else if cap then .next (raiseCmdError .cap s)
  else .next (complete (body s))

end Sys2Proof.Machine
end

