-- ==== Sys2Proof/Machine/Binary64.lean ====
section
/-! DEFINITION. The instance `Num_b64` of 40_numerics.md: IEEE 754 binary64 on 64-bit words (R121 to R133).

A finite binary64 value is a whole multiple of 2^-1074, so the exact result of an operation is an integer or a
quotient of two integers in that unit, and it is rounded once, at the end, to nearest with ties to even (R122).
The bits of a result's magnitude grow with the magnitude, so that rounding up past a power of two, past the
subnormals or past the largest finite value needs no case of its own. -/

namespace Sys2Proof.Machine

/-- Exponent and fraction bits 62:0 of +∞ (R121). -/
def infBits : Nat := 0x7FF0000000000000

/-- The sign, bit 63 (R62, R121). -/
def signOf (w : Word) : Bool := decide (2 ^ 63 ≤ w.toNat)

/-- Bits 62:0, which order the magnitudes (R121). -/
def magOf (w : Word) : Nat := w.toNat % 2 ^ 63

/-- The biased exponent, bits 62:52 (R62, R121). -/
def expOf (w : Word) : Nat := w.toNat / 2 ^ 52 % 2 ^ 11

/-- The fraction, bits 51:0 (R62, R121). -/
def fracOf (w : Word) : Nat := w.toNat % 2 ^ 52

/-- Exponent 2047 and a fraction that is not zero (R121). -/
def isNaN (w : Word) : Bool := decide (infBits < magOf w)

/-- Exponent 2047 and fraction zero (R121). -/
def isInf (w : Word) : Bool := decide (magOf w = infBits)

/-- +0 or -0 (R121). -/
def isZero (w : Word) : Bool := decide (magOf w = 0)

/-- Neither an infinity nor a NaN (R121). -/
def isFinite (w : Word) : Bool := decide (magOf w < infBits)

/-- The word with this sign and these magnitude bits (R121). -/
def packWord (sign : Bool) (mag : Nat) : Word :=
  BitVec.ofNat 64 ((if sign then 2 ^ 63 else 0) + mag)

/-- The magnitude of a finite word, in units of 2^-1074 (R121). -/
def unitsOf (w : Word) : Nat :=
  if expOf w = 0 then fracOf w else (2 ^ 52 + fracOf w) * 2 ^ (expOf w - 1)

/-- The value of a finite word, in units of 2^-1074 (R121). -/
def signedUnitsOf (w : Word) : Int := if signOf w then -(unitsOf w : Int) else (unitsOf w : Int)

/-- The integer nearest n/d, the even one of two that are equally near (R122). -/
def nearestEven (n d : Nat) : Nat :=
  if 2 * (n % d) < d then n / d
  else if d < 2 * (n % d) then n / d + 1
  else if n / d % 2 = 0 then n / d else n / d + 1

/-- How many bits the 53-bit significand of a magnitude of n/d units stands above the unit 2^-1074; zero for
the subnormals (gradual underflow, R122). -/
def ulpShift (n d : Nat) : Nat := Nat.log2 (n / d) + 1 - 53

/-- The magnitude bits of the binary64 value nearest n/d units of 2^-1074, ties to even, infinity on overflow
(R122). -/
def roundUnits (n d : Nat) : Nat :=
  min infBits (ulpShift n d * 2 ^ 52 + nearestEven n (d * 2 ^ ulpShift n d))

/-- A NaN with free sign and payload: any word whose exponent is 2047 and whose fraction is not zero is one
(R121, R132; log 6). -/
def someNaN (bits : Word) : Word :=
  if isNaN (bits ||| 0x7FF0000000000000) then bits ||| 0x7FF0000000000000 else bits ||| 0x7FF0000000000001

/-- The NaN that the operation returns on these operands (R132, U8). -/
def freeNaN (op : FpOp) (a b : Word) : Word := someNaN (Config.nanBits op a b)

/-- The value with this integer count of units, rounded; the sign of an exact zero is given apart. -/
def packSigned (k : Int) (zeroSign : Bool) : Word :=
  if k = 0 then packWord zeroSign 0 else packWord (decide (k < 0)) (roundUnits k.natAbs 1)

/-- The sum, with the NaN to return where the sum is invalid (R122): ∞ - ∞ is NaN; x - x = +0; (-0) + (-0) = -0. -/
def sumOf (nan a b : Word) : Word :=
  if isNaN a || isNaN b then nan
  else if isInf a then (if isInf b && signOf a != signOf b then nan else a)
  else if isInf b then b
  else packSigned (signedUnitsOf a + signedUnitsOf b) (signOf a && signOf b)

/-- R124: flips the sign bit and changes nothing else. -/
def b64neg (a : Word) : Word := a ^^^ 0x8000000000000000

/-- R122. -/
def b64add (a b : Word) : Word := sumOf (freeNaN .add a b) a b

/-- R122: the sum with the second operand's sign flipped; a NaN is this operation's own. -/
def b64sub (a b : Word) : Word := sumOf (freeNaN .sub a b) a (b64neg b)

/-- R122: the sign is the exclusive-or; 0 · ∞ is NaN. -/
def b64mul (a b : Word) : Word :=
  if isNaN a || isNaN b then freeNaN .mul a b
  else if (isInf a && isZero b) || (isZero a && isInf b) then freeNaN .mul a b
  else if isInf a || isInf b then packWord (signOf a != signOf b) infBits
  else packWord (signOf a != signOf b) (roundUnits (unitsOf a * unitsOf b) (2 ^ 1074))

/-- R122: the sign is the exclusive-or; 0/0 and ∞/∞ are NaN; x/0 is an infinity; x/∞ is a zero. -/
def b64div (a b : Word) : Word :=
  if isNaN a || isNaN b then freeNaN .div a b
  else if (isInf a && isInf b) || (isZero a && isZero b) then freeNaN .div a b
  else if isInf a || isZero b then packWord (signOf a != signOf b) infBits
  else if isInf b then packWord (signOf a != signOf b) 0
  else packWord (signOf a != signOf b) (roundUnits (unitsOf a * 2 ^ 1074) (unitsOf b))

/-- The bits of the integer square root of n below bit `b`, added to `acc`, the highest first. -/
def isqrtFrom : Nat → Nat → Nat → Nat
  | 0, _, acc => acc
  | b + 1, n, acc =>
    if (acc + 2 ^ b) * (acc + 2 ^ b) ≤ n then isqrtFrom b n (acc + 2 ^ b) else isqrtFrom b n acc

/-- The largest integer whose square is at most n. -/
def isqrt (n : Nat) : Nat := isqrtFrom (Nat.log2 n / 2 + 1) n 0

/-- The magnitude bits of the square root of n units, correctly rounded (R122). In units of 2^-1074 the exact root
is the square root of m = n · 2^1074. With s the integer part of twice that root, the root is s/2 when s² = 4m and
otherwise lies strictly between s/2 and (s+1)/2, where no rounding boundary lies, so (2s+1)/4 rounds as it does. -/
def sqrtUnits (n : Nat) : Nat :=
  roundUnits
    (if isqrt (4 * (n * 2 ^ 1074)) * isqrt (4 * (n * 2 ^ 1074)) = 4 * (n * 2 ^ 1074)
      then 2 * isqrt (4 * (n * 2 ^ 1074)) else 2 * isqrt (4 * (n * 2 ^ 1074)) + 1) 4

/-- R122: fsqrt(-0) = -0; the root of a negative number is NaN. -/
def b64sqrt (a : Word) : Word :=
  if isNaN a then freeNaN .sqrt a 0
  else if isZero a then a
  else if signOf a then freeNaN .sqrt a 0
  else if isInf a then a
  else packWord false (sqrtUnits (unitsOf a))

/-- The integer that the magnitude of k units of 2^-1074 rounds to, ties by the parameter ROUND_TIE (R131). -/
def roundToInteger (tie : RoundTie) (k : Nat) : Nat :=
  if 2 * (k % 2 ^ 1074) < 2 ^ 1074 then k / 2 ^ 1074
  else if 2 ^ 1074 < 2 * (k % 2 ^ 1074) then k / 2 ^ 1074 + 1
  else
    match tie with
    | .away => k / 2 ^ 1074 + 1
    | .even => if k / 2 ^ 1074 % 2 = 0 then k / 2 ^ 1074 else k / 2 ^ 1074 + 1

/-- R131: infinities, zeros and magnitudes of 2^52 and more are returned as they are. -/
def b64round (tie : RoundTie) (a : Word) : Word :=
  if isNaN a then freeNaN .round a 0
  else if isInf a || isZero a || decide (2 ^ 52 * 2 ^ 1074 ≤ unitsOf a) then a
  else packWord (signOf a) (roundUnits (roundToInteger tie (unitsOf a) * 2 ^ 1074) 1)

/-- R125: the binary64 value nearest the integer; ofInt(0) = +0. -/
def b64ofInt (n : Int) : Word := packWord (decide (n < 0)) (roundUnits (n.natAbs * 2 ^ 1074) 1)

/-- HALF (R126). -/
def b64half : Word := 0x3FE0000000000000

/-- ONE (R126). -/
def b64one : Word := 0x3FF0000000000000

/-- PI, the binary64 value nearest π (R126). -/
def b64pi : Word := 0x400921FB54442D18

/-- TWO_PI = fmul(TWO, PI) (R126). -/
def b64twoPi : Word := b64mul (b64ofInt 2) b64pi

/-- The word `w` when its magnitude is at most that of `bound`, else `bound` with the sign of `w`. Every function
that keeps the bound the spec states is left as it is (T2, A2). -/
def boundedBy (bound w : Word) : Word :=
  if magOf w ≤ magOf bound then w else packWord (signOf w) (magOf bound)

/-- R127: T1 at the zeros, T2 by `boundedBy`, T3 by evaluating at the magnitude, T4 at NaN and ±∞; free
elsewhere (log 7). -/
def b64cos (a : Word) : Word :=
  if isNaN a || isInf a then freeNaN .cos a 0
  else if isZero a then b64one
  else boundedBy b64one (Config.cosRaw (packWord false (magOf a)))

/-- R127: T1 at the zeros, T2 by `boundedBy`, T3 by evaluating at the magnitude, T4 at NaN and ±∞; free
elsewhere (log 7). -/
def b64sin (a : Word) : Word :=
  if isNaN a || isInf a then freeNaN .sin a 0
  else if isZero a then a
  else if signOf a then b64neg (boundedBy b64one (Config.sinRaw (packWord false (magOf a))))
  else boundedBy b64one (Config.sinRaw (packWord false (magOf a)))

/-- A magnitude with the given sign. -/
def withSign (sign : Bool) (w : Word) : Word := packWord sign (magOf w)

/-- R128, `fatan2(y, x)`: A1 on NaN; A6 at infinities; A3, A4 at y = ±0; A5 at x = ±0; elsewhere free inside
A2: in [-PI, PI] with the sign of y (log 8). -/
def b64atan2 (y x : Word) : Word :=
  if isNaN y || isNaN x then freeNaN .atan2 y x
  else if isZero y then
    (if signOf x then withSign (signOf y) b64pi else withSign (signOf y) 0)
  else if isInf y then
    (if isInf x then
      (if signOf x then
        withSign (signOf y) (b64mul (b64ofInt 3) (b64div b64pi (b64ofInt 4)))
       else withSign (signOf y) (b64div b64pi (b64ofInt 4)))
     else withSign (signOf y) (b64div b64pi (b64ofInt 2)))
  else if isInf x then
    (if signOf x then withSign (signOf y) b64pi else withSign (signOf y) 0)
  else if isZero x then withSign (signOf y) (b64div b64pi (b64ofInt 2))
  else withSign (signOf y) (boundedBy b64pi (Config.atan2Raw y x))

/-- The instance `Num_b64` (R121 to R133): the scalars are the bus words themselves, so `toBits` and `ofBits` of
R120 are the identity (R62). -/
def numB64 (tie : RoundTie) : Num Word where
  ofInt := b64ofInt
  half := b64half
  pi := b64pi
  twoPi := b64twoPi
  fadd := b64add
  fsub := b64sub
  fmul := b64mul
  fdiv := b64div
  fneg := b64neg
  fsqrt := b64sqrt
  fcos := b64cos
  fsin := b64sin
  fround := b64round tie
  fatan2 := b64atan2

/-- How a model compares scalars (R132, U8): both NaN, or the same bits. -/
def sameScalar (a b : Word) : Bool := (isNaN a && isNaN b) || a == b

end Sys2Proof.Machine
end

