-- ==== Sys2Proof/Machine/Setting.lean ====
section
/-! DEFINITION. The configuration of PVCORE (00_scope.md R7): every parameter at its default, and how another number
system with a bus image becomes a configuration. -/

namespace Sys2Proof

/-- The parameters of PVCORE: every one at its default, the number system Num_b64 (R7; log 1). -/
def Config.params : Params := { num := Machine.numB64 }

namespace Machine

/-- A number system whose scalars have a bus image, as one on the bus words (40_numerics.md R120 `toBits`, `ofBits`;
20_memory.md R62): each operation on words is the operation on the scalars they stand for. -/
def Num.onWords {R : Type} (num : Num R) (toBits : R → Word) (ofBits : Word → R) : Num Word where
  ofInt := fun n => toBits (num.ofInt n)
  half := toBits num.half
  pi := toBits num.pi
  twoPi := toBits num.twoPi
  fadd := fun a b => toBits (num.fadd (ofBits a) (ofBits b))
  fsub := fun a b => toBits (num.fsub (ofBits a) (ofBits b))
  fmul := fun a b => toBits (num.fmul (ofBits a) (ofBits b))
  fdiv := fun a b => toBits (num.fdiv (ofBits a) (ofBits b))
  fneg := fun a => toBits (num.fneg (ofBits a))
  fsqrt := fun a => toBits (num.fsqrt (ofBits a))
  fcos := fun a => toBits (num.fcos (ofBits a))
  fsin := fun a => toBits (num.fsin (ofBits a))
  fround := fun a => toBits (num.fround (ofBits a))
  fatan2 := fun y x => toBits (num.fatan2 (ofBits y) (ofBits x))

/-- The number system of a configuration: its `Num` with its tie rule (R7). -/
def machineNum (p : Params) : Num Word := p.num p.roundTie

end Machine

end Sys2Proof
end

