-- ==== Sys2Proof/Machine/Operands.lean ====
section
/-! DEFINITION. The operands of the commands: the derived quantities of 10_state.md R33, the frame count of
43_analyzer.md R190, the index formulas of 20_memory.md R71, and the conditions of the errors CFG and CAP
(60_exceptions.md R242, R243). All integers are exact (40_numerics.md R150). -/

namespace Sys2Proof.Machine

/-- log2 of the window size (R22). -/
def logwOf (s : State) : Nat := s.logw.toNat

/-- W = 2^LOGW (R22, R33). -/
def windowSize (s : State) : Nat := 2 ^ logwOf s

/-- H = HOP (R23, R33). -/
def hopSize (s : State) : Nat := s.hop.toNat

/-- r, the scalar in STRETCH (R24, R33). -/
def stretchFactor (s : State) : Word := s.stretch

/-- L = SIGLEN (R25, R33). -/
def signalLength (s : State) : Nat := s.siglen.toNat

/-- F = NFRAMES (R26, R33). -/
def frameCount (s : State) : Nat := s.nframes.toNat

/-- `nframes(L, W, H)`, the number of whole windows that fit (R190). -/
def nframesOf (l w h : Nat) : Nat := if w ≤ l then (l - w) / h + 1 else 0

/-- F', the frame count that ANALYZE and RUN compute (R190, R192, R231). -/
def analysisFrames (s : State) : Nat := nframesOf (signalLength s) (windowSize s) (hopSize s)

/-- How many samples of SIG the frames span: `SIG[0..(F-1)*H + W)`, nothing when F = 0 (R70, R192). -/
def signalSpan (f w h : Nat) : Nat := if f = 0 then 0 else (f - 1) * h + w

/-- F*H + W, the length of the output Signal (R220). -/
def outputLength (f w h : Nat) : Nat := f * h + w

/-- The element of SPA or SPB that holds bin k of frame i (R71). -/
def spectrumIndex (w i k : Nat) : Nat := i * w + k

/-- The spectrum memory that a BANK names (R104). -/
def bankRegion : Bank → Region
  | .spb => .spb
  | .spa => .spa

/-- CFG: `LOGW > LOGW_MAX`, a condition for every command but NOP (R242). -/
def windowTooLarge (p : Params) (s : State) : Bool := decide (p.logwMax < logwOf s)

/-- CFG: `LOGW = 0`, a condition for every command but NOP, FFT, IFFT (R242). -/
def windowTooSmall (s : State) : Bool := decide (logwOf s = 0)

/-- CFG: `HOP = 0`, a condition for ANALYZE, VOCODE, SYNTH, RUN (R242). -/
def hopIsZero (s : State) : Bool := decide (hopSize s = 0)

/-- CFG of FFT and IFFT (R242). -/
def transformConfigError (p : Params) (s : State) : Bool := windowTooLarge p s

/-- CFG of WINGEN (R242). -/
def windowConfigError (p : Params) (s : State) : Bool := windowTooLarge p s || windowTooSmall s

/-- CFG of ANALYZE, VOCODE, SYNTH and RUN (R242). -/
def passConfigError (p : Params) (s : State) : Bool := windowTooLarge p s || windowTooSmall s || hopIsZero s

/-- CAP: the signal does not fit SIG (R243). -/
def signalTooLong (p : Params) (s : State) : Bool := decide (p.sigCap < signalLength s)

/-- CAP: the frames do not fit SPA and SPB (R243). -/
def tooManyFrames (p : Params) (f : Nat) : Bool := decide (p.frameCap < f)

/-- CAP: the output of `f` frames does not fit OUT (R243). -/
def outputTooLong (p : Params) (s : State) (f : Nat) : Bool :=
  decide (p.outCap < outputLength f (windowSize s) (hopSize s))

/-- CAP of ANALYZE (R243). -/
def analyzeCapError (p : Params) (s : State) : Bool := signalTooLong p s || tooManyFrames p (analysisFrames s)

/-- CAP of VOCODE (R243). -/
def vocodeCapError (p : Params) (s : State) : Bool := tooManyFrames p (frameCount s)

/-- CAP of SYNTH (R243). -/
def synthCapError (p : Params) (s : State) : Bool :=
  tooManyFrames p (frameCount s) || outputTooLong p s (frameCount s)

/-- CAP of RUN (R243). -/
def runCapError (p : Params) (s : State) : Bool :=
  signalTooLong p s || tooManyFrames p (analysisFrames s) || outputTooLong p s (analysisFrames s)

/-- The samples that ANALYZE and RUN read (R70, R192), or none if one of them holds no value. -/
def readSignal (p : Params) (s : State) : Option (List Word) :=
  readScalars p s.mem .sig 0 (signalSpan (analysisFrames s) (windowSize s) (hopSize s))

/-- `FRM[0..W)`, or none if a part of one of them holds no value (R163). -/
def readFrame (p : Params) (s : State) : Option (List (Cx Word)) :=
  readComplex p s.mem .frm 0 (windowSize s)

/-- The F frames of a spectrum memory, element `i*W + k` for i in time order (R71), or none if one holds no value. -/
def readSpectrum (p : Params) (s : State) (g : Region) : Option (List (Cx Word)) :=
  readComplex p s.mem g 0 (frameCount s * windowSize s)

/-- A sequence of `f` frames of length `w`, cut from its elements (R71). -/
def framesOf {α : Type} (w : Nat) : Nat → List α → List (List α)
  | 0, _ => []
  | f + 1, xs => xs.take w :: framesOf w f (xs.drop w)

end Sys2Proof.Machine
end

