-- ==== Sys2Proof/Machine/Bus.lean ====
section
/-! DEFINITION. The host's transactions (20_memory.md R64 to R68, R75), the reset event (70_reset_and_hazards.md
R260), and which agent moves next (10_state.md R20). -/

namespace Sys2Proof.Machine

/-- The size and alignment of R64, inside the aperture. -/
def wellPlaced (p : Params) (addr size : Nat) : Bool :=
  decide (size = 8) && decide (addr % 8 = 0) && decide (addr < p.apertureSize)

/-- A read is legal: R64, not in a hole (R65 b), and, while BUSY = 1, of STATUS only (R65 d, R75). -/
def readLegal (p : Params) (s : State) (addr size : Nat) : Bool :=
  wellPlaced p addr size &&
    match placeOf p addr with
    | .reg .status => true
    | .reg _ => !s.status.busy
    | .region _ => !s.status.busy
    | .hole => false

/-- A write is legal: R64, not in a hole (R65 b), not to a read-only register or region (R65 c), not while
BUSY = 1 (R65 d, R75). -/
def writeLegal (p : Params) (s : State) (addr size : Nat) : Bool :=
  wellPlaced p addr size && !s.status.busy &&
    match placeOf p addr with
    | .reg r => regHostWritable r
    | .region g => regionHostWritable g
    | .hole => false

/-- The state after a read that returned the word `w`: the host has seen it. -/
def returnWord (w : Word) (s : State) : State := { s with seen := w :: s.seen }

/-- The state after a read that returned an unspecified word (R65, R66; U11, U12; log 4). -/
def returnUnspecified (addr : Nat) (s : State) : State :=
  { s with seen := Config.unspecified s.tick addr :: s.seen, tick := s.tick + 1 }

/-- `HostRead` (R66): a register's implemented bits, a memory word, an unspecified word where the addressed word
holds no value. No read has a side effect. -/
def readPlace (p : Params) (addr : Nat) (s : State) : State :=
  match placeOf p addr with
  | .reg r => returnWord (readReg s r) s
  | .region _ =>
    match readWord s.mem addr with
    | some w => returnWord w s
    | none => returnUnspecified addr s
  | .hole => returnUnspecified addr s

/-- `HostWrite` (R67): what the register's rule says, or the addressed word of a memory replaced; half a complex
element leaves the other half as it was. -/
def writePlace (p : Params) (addr : Nat) (v : Word) (s : State) : State :=
  match placeOf p addr with
  | .reg r => writeReg s v r
  | .region _ => { s with mem := writeWords s.mem addr [v] }
  | .hole => s

/-- A host read, legal or not: an illegal one returns an unspecified word and sets ACCERR (R65). -/
def hostRead (p : Params) (addr size : Nat) (s : State) : State :=
  if readLegal p s addr size then readPlace p addr s else raiseAccErr (returnUnspecified addr s)

/-- A host write, legal or not: an illegal one changes nothing but ACCERR (R65). -/
def hostWrite (p : Params) (addr size : Nat) (v : Word) (s : State) : State :=
  if writeLegal p s addr size then writePlace p addr v s else raiseAccErr s

/-- One host transaction. -/
def busTransaction (p : Params) : BusOp → State → State
  | .read addr size, s => hostRead p addr size s
  | .write addr size v, s => hostWrite p addr size v s

/-- The reset event (R260, R261) to the reset state `r`: every register and memory as after reset. The model's own
fields are not the hardware's: what the environment will do and what the host has seen stay, and the free values go on
(log 2). -/
def resetTo (r s : State) : State := { r with tick := s.tick, script := s.script, seen := s.seen }

/-- The reset event of PVCORE (R260, R261). -/
def resetEvent (s : State) : State := resetTo State.reset s

/-- One act of the environment of a machine whose reset state is `r`. -/
def environmentAct (p : Params) (r : State) : Act → State → State
  | .bus op, s => busTransaction p op s
  | .poll, s => hostRead p (regAddr p .status) 8 s
  | .reset, s => resetTo r s

/-- Who moves next. -/
inductive MoveOf (V : Type) where
  /-- The engine performs the command in CMD. -/
  | engine
  /-- The environment acts, the rest of its script remaining. -/
  | environment (a : ActOf V) (rest : List (EventOf V))
  /-- Nothing is enabled: BUSY = 0 and the script is empty. -/
  | idle
  deriving DecidableEq, Repr

/-- The script after its head event has happened while BUSY was as given: a poll that read BUSY = 1 is to be repeated
(30_encoding.md R107), anything else is done. -/
def scriptAfter {V : Type} (busy : Bool) (e : EventOf V) (rest : List (EventOf V)) : List (EventOf V) :=
  match e.act with
  | .poll => if busy then { e with early := e.early - 1 } :: rest else rest
  | .bus _ => rest
  | .reset => rest

/-- The engine's step is enabled exactly when BUSY = 1 (10_state.md R20). The environment moves when BUSY = 0, and
also while BUSY = 1 where its next event is an early one (R75, R261; log 2). -/
def nextMove {V : Type} (busy : Bool) (script : List (EventOf V)) : MoveOf V :=
  match script with
  | [] => if busy then .engine else .idle
  | e :: rest => if busy && e.early == 0 then .engine else .environment e.act (scriptAfter busy e rest)

/-- The environment's next event no longer early, so that the engine, when busy, moves first. -/
def letEngineMove : List Event → List Event
  | [] => []
  | e :: rest => { e with early := 0 } :: rest

/-- The engine's perform step on the word latched in CMD (10_state.md R20), for a machine whose commands have the
meaning `run`: the command's rule, or the refusal ILLCMD of an illegal word (60_exceptions.md R241). -/
def performBy (run : Instr → State → Host.Outcome State Fault Refusal) (s : State) :
    Host.Outcome State Fault Refusal :=
  match decode s.cmd with
  | .ok i => run i s
  | .error _ => .next (raiseCmdError .illcmd s)

/-- One step of such a machine with its environment: the agent that `nextMove` names (10_state.md R20). -/
def stepBy (run : Instr → State → Host.Outcome State Fault Refusal) (p : Params) (r s : State) :
    Host.Outcome State Fault Refusal :=
  match nextMove s.status.busy s.script with
  | .engine => performBy run s
  | .environment a rest => .next (environmentAct p r a { s with script := rest })
  | .idle => .next s

end Sys2Proof.Machine
end

