-- ==== Sys2Proof/Machine/Transform.lean ====
section
/-! DEFINITION. The Transform Engine (41_transform.md): the functions `tw`, `fft`, `ifft` over any `Num`, and the
commands FFT and IFFT. A transform length is given by its logarithm, so it is a power of two (R166, U1). -/

namespace Sys2Proof.Machine

variable {R : Type}

/-- The angle of the twiddle: `fneg(fdiv(fmul(TWO_PI, ofInt(k)), ofInt(N)))` (R160). -/
def twAngle (num : Num R) (n k : Nat) : R :=
  num.fneg (num.fdiv (num.fmul num.twoPi (num.ofInt k)) (num.ofInt n))

/-- The twiddle `tw(N, k)` (R160). -/
def tw (num : Num R) (n k : Nat) : Cx R := ⟨num.fcos (twAngle num n k), num.fsin (twAngle num n k)⟩

/-- The twiddle table TW, `tw(W_MAX, m)` for m below W_MAX/2: a constant, not state (10_state.md R42). -/
def twiddleTable (p : Params) : List (Cx Word) :=
  (List.range (p.wMax / 2)).map fun m => tw (machineNum p) p.wMax m

/-- The even-indexed sub-sequence (R161). -/
def evens {α : Type} : List α → List α
  | [] => []
  | [x] => [x]
  | x :: _ :: xs => x :: evens xs

/-- The odd-indexed sub-sequence (R161). -/
def odds {α : Type} : List α → List α
  | [] => []
  | [_] => []
  | _ :: y :: xs => y :: odds xs

/-- `t[k] = cmul(tw(N, k), O[k])` for k = 0, 1, … (R161). -/
def twiddled (num : Num R) (n : Nat) (o : List (Cx R)) : List (Cx R) :=
  List.zipWith (fun k z => cmul num (tw num n k) z) (List.range o.length) o

/-- The butterflies that combine the transforms of the two halves: `X[k] = E[k] + t[k]`, `X[k + N/2] = E[k] - t[k]`
(R161). -/
def butterflies (num : Num R) (n : Nat) (e o : List (Cx R)) : List (Cx R) :=
  List.zipWith (cadd num) e (twiddled num n o) ++ List.zipWith (csub num) e (twiddled num n o)

/-- `fft(x, 2^n)` (R161). -/
def fft (num : Num R) : Nat → List (Cx R) → List (Cx R)
  | 0, x => x
  | n + 1, x => butterflies num (2 ^ (n + 1)) (fft num n (evens x)) (fft num n (odds x))

/-- `ifft(x, 2^n)`: conjugate, transform, conjugate, divide by N, in that order (R164). -/
def ifft (num : Num R) (n : Nat) (x : List (Cx R)) : List (Cx R) :=
  (fft num n (x.map (conj num))).map fun z => cdivN num (conj num z) (2 ^ n)

/-- The body of FFT and IFFT: `FRM[0..W)` replaced by its image; unspecified where a part holds no value (R163,
R165, 10_state.md R47). -/
def transformFrame (p : Params) (f : Nat → List (Cx Word) → List (Cx Word)) (s : State) : State :=
  match readFrame p s with
  | some x => { s with mem := writeComplex p s.mem .frm 0 (f (logwOf s) x) }
  | none =>
    { s with
      mem := scramble s.tick s.mem (elementAddr p .frm 0) (2 * windowSize s)
      tick := s.tick + 1 }

/-- FFT (R163). -/
def fftCommand (p : Params) (s : State) : Host.Outcome State Fault Refusal :=
  perform (transformConfigError p s) false (transformFrame p (fft (machineNum p))) s

/-- IFFT (R165). -/
def ifftCommand (p : Params) (s : State) : Host.Outcome State Fault Refusal :=
  perform (transformConfigError p s) false (transformFrame p (ifft (machineNum p))) s

/-- The meaning of FFT in PVCORE (R163). -/
def execFft (s : State) : Host.Outcome State Fault Refusal := fftCommand Config.params s

/-- The meaning of IFFT in PVCORE (R165). -/
def execIfft (s : State) : Host.Outcome State Fault Refusal := ifftCommand Config.params s

end Sys2Proof.Machine
end

