-- ==== Sys2Proof/Machine/Window.lean ====
section
/-! DEFINITION. The Window Generator (42_window.md): `hann`, the window table WIN, the command WINGEN, and the
implicit generation of R182 that ANALYZE, SYNTH and RUN begin with. -/

namespace Sys2Proof.Machine

variable {R : Type}

/-- `hann(W, n)` (R180). -/
def hann (num : Num R) (w n : Nat) : R :=
  num.fmul num.half
    (num.fsub (oneOf num)
      (num.fcos (num.fdiv (num.fmul num.twoPi (num.ofInt n)) (num.ofInt (w - 1 : Nat)))))

/-- The window of length W (R180, R181). -/
def hannWindow (num : Num R) (w : Nat) : List R := (List.range w).map (hann num w)

/-- `WIN[0..W)` generated and WINOK set: the body of WINGEN (R181) and of `ensureWindow` (R182). -/
def generateWindow (p : Params) (s : State) : State :=
  { s with
    mem := writeScalars p s.mem .win 0 (hannWindow (machineNum p) (windowSize s))
    status := setWinok true s.status }

/-- `ensureWindow()` (R182). -/
def ensureWindow (p : Params) (s : State) : State :=
  if s.status.winok then s else generateWindow p s

/-- The window in a command whose result is unspecified because it read an element that holds no value (10_state.md
R47): what the command writes, `WIN[0..W)` and WINOK when WINOK was 0, is free, but WINOK = 1 still means that WIN
holds the window (R43). So either the window is generated, or WIN holds free words and WINOK stays 0 (log 5). -/
def ensureWindowFreely (p : Params) (s : State) : State :=
  if s.status.winok then s
  else if freeWinok p s.tick then generateWindow p s
  else { s with mem := scramble s.tick s.mem (elementAddr p .win 0) (windowSize s) }

/-- `FRM[0..W)` holds no value: what ANALYZE, SYNTH and RUN leave of their scratch (10_state.md R44). -/
def dropFrame (p : Params) (s : State) : State :=
  { s with mem := eraseBytes s.mem (elementAddr p .frm 0) (16 * windowSize s) }

/-- WINGEN (R181). -/
def wingenCommand (p : Params) (s : State) : Host.Outcome State Fault Refusal :=
  perform (windowConfigError p s) false (generateWindow p) s

/-- The meaning of WINGEN in PVCORE (R181). -/
def execWingen (s : State) : Host.Outcome State Fault Refusal := wingenCommand Config.params s

end Sys2Proof.Machine
end

