-- ==== Sys2Proof/Machine/Analyzer.lean ====
section
/-! DEFINITION. The Frame Analyzer, STFT (43_analyzer.md): slices, `analyze` over any `Num`, the command ANALYZE. -/

namespace Sys2Proof.Machine

variable {R : Type}

/-- `slice(i)`: element j is `(fmul(SIG[i*H + j], WIN[j]), ZERO)` (R191). -/
def slice (num : Num R) (w h : Nat) (sig : List R) (i : Nat) : List (Cx R) :=
  List.zipWith (fun x c => ⟨num.fmul x c, zeroOf num⟩) (sig.drop (i * h)) (hannWindow num w)

/-- The transform of frame i (R192). -/
def analyzeFrame (num : Num R) (logw h : Nat) (sig : List R) (i : Nat) : List (Cx R) :=
  fft num logw (slice num (2 ^ logw) h sig i)

/-- The Spectrum Sequence of `f` frames, in time order (R192). -/
def analyzeSignal (num : Num R) (logw h f : Nat) (sig : List R) : List (List (Cx R)) :=
  (List.range f).map (analyzeFrame num logw h sig)

/-- The body of ANALYZE after `ensureWindow` when every sample read holds a value (R192). -/
def storeAnalysis (p : Params) (sig : List Word) (s : State) : State :=
  { s with
    mem := writeComplex p s.mem .spa 0
      (analyzeSignal (machineNum p) (logwOf s) (hopSize s) (analysisFrames s) sig).flatten
    nframes := BitVec.ofNat 32 (analysisFrames s) }

/-- Everything ANALYZE writes, unspecified (10_state.md R47, log 5): `SPA[0..F*W)` and NFRAMES. -/
def scrambleAnalysis (p : Params) (s : State) : State :=
  { s with
    mem := scramble s.tick s.mem (elementAddr p .spa 0) (2 * (analysisFrames s * windowSize s))
    nframes := freeLength p s.tick .nframes
    tick := s.tick + 1 }

/-- The body of ANALYZE (R192). -/
def analyzeBody (p : Params) (s : State) : State :=
  match readSignal p s with
  | some sig => dropFrame p (storeAnalysis p sig (ensureWindow p s))
  | none => dropFrame p (scrambleAnalysis p (ensureWindowFreely p s))

/-- ANALYZE (R192). -/
def analyzeCommand (p : Params) (s : State) : Host.Outcome State Fault Refusal :=
  perform (passConfigError p s) (analyzeCapError p s) (analyzeBody p) s

/-- The meaning of ANALYZE in PVCORE (R192). -/
def execAnalyze (s : State) : Host.Outcome State Fault Refusal := analyzeCommand Config.params s

end Sys2Proof.Machine
end

