-- ==== Sys2Proof/Machine/Synthesizer.lean ====
section
/-! DEFINITION. The Frame Synthesizer, ISTFT (45_synthesizer.md): overlap-add over any `Num`, the command SYNTH. -/

namespace Sys2Proof.Machine

variable {R : Type}

/-- What frame X adds to the output: `fmul(x[j].re, WIN[j])` with `x = ifft(X)`; the imaginary part is discarded
(R221, R224). -/
def contribution (num : Num R) (logw : Nat) (frame : List (Cx R)) : List R :=
  List.zipWith (fun z c => num.fmul z.re c) (ifft num logw frame) (hannWindow num (2 ^ logw))

/-- The list `out` with the terms added from position `at` on, each as `fadd(OUT[m], term)` (R221). -/
def addFrom (num : Num R) : Nat → List R → List R → List R
  | _, [], _ => []
  | 0, x :: xs, c :: cs => num.fadd x c :: addFrom num 0 xs cs
  | 0, x :: xs, [] => x :: xs
  | at_ + 1, x :: xs, cs => x :: addFrom num at_ xs cs

/-- Frames added in time order, frame i at offset i*H (R221, R222). -/
def overlapAdd (num : Num R) (logw h : Nat) : Nat → List R → List (List (Cx R)) → List R
  | _, out, [] => out
  | i, out, f :: fs =>
    overlapAdd num logw h (i + 1) (addFrom num (i * h) out (contribution num logw f)) fs

/-- `synthesize(spectrumSequence, windowSize, hopSize)`: the output Signal, zero before the first frame (R220,
R222). No normalising gain is applied (R223). -/
def synthesizeFrames (num : Num R) (logw h : Nat) (frames : List (List (Cx R))) : List R :=
  overlapAdd num logw h 0 (List.replicate (outputLength frames.length (2 ^ logw) h) (zeroOf num)) frames

/-- The body of SYNTH after `ensureWindow` when every element read holds a value (R222). -/
def storeSynthesis (p : Params) (spec : List (Cx Word)) (s : State) : State :=
  { s with
    mem := writeScalars p s.mem .out 0
      (synthesizeFrames (machineNum p) (logwOf s) (hopSize s)
        (framesOf (windowSize s) (frameCount s) spec))
    outlen := BitVec.ofNat 32 (outputLength (frameCount s) (windowSize s) (hopSize s)) }

/-- Everything a synthesis of `f` frames writes to OUT, unspecified (10_state.md R47, log 5). -/
def scrambleOutput (p : Params) (f : Nat) (s : State) : Memory :=
  scramble s.tick s.mem (elementAddr p .out 0) (outputLength f (windowSize s) (hopSize s))

/-- Everything SYNTH writes, unspecified (10_state.md R47, log 5): `OUT[0..F*H + W)` and OUTLEN. -/
def scrambleSynthesis (p : Params) (s : State) : State :=
  { s with
    mem := scrambleOutput p (frameCount s) s
    outlen := freeLength p s.tick .outlen
    tick := s.tick + 1 }

/-- The body of SYNTH (R222). -/
def synthBody (p : Params) (bank : Bank) (s : State) : State :=
  match readSpectrum p s (bankRegion bank) with
  | some spec => dropFrame p (storeSynthesis p spec (ensureWindow p s))
  | none => dropFrame p (scrambleSynthesis p (ensureWindowFreely p s))

/-- SYNTH (R222). -/
def synthCommand (p : Params) (bank : Bank) (s : State) : Host.Outcome State Fault Refusal :=
  perform (passConfigError p s) (synthCapError p s) (synthBody p bank) s

/-- The meaning of SYNTH in PVCORE (R222). -/
def execSynth (bank : Bank) (s : State) : Host.Outcome State Fault Refusal := synthCommand Config.params bank s

end Sys2Proof.Machine
end

