-- ==== Sys2Proof/Machine/Vocoder.lean ====
section
/-! DEFINITION. The Phase Vocoder (44_vocoder.md): the step of R201, frames in time order and bins within a frame
(R202) over any `Num`, and the command VOCODE. -/

namespace Sys2Proof.Machine

variable {R : Type}

/-- The running state of one bin: `LASTPH[k]` and `NEWPH[k]` (10_state.md R40, R41). -/
structure BinPhase (R : Type) where
  last : R
  acc : R
  deriving DecidableEq, Repr

/-- Both files cleared to ZERO (R200). -/
def clearedBin (num : Num R) : BinPhase R := ⟨zeroOf num, zeroOf num⟩

/-- Step 3: `fsub(d0, fmul(TWO_PI, fround(fdiv(d0, TWO_PI))))` (R201, R204). -/
def unwrap (num : Num R) (d0 : R) : R :=
  num.fsub d0 (num.fmul num.twoPi (num.fround (num.fdiv d0 num.twoPi)))

/-- Step 4: `fadd(fdiv(fmul(TWO_PI, ofInt(k)), ofInt(W)), fdiv(d, ofInt(H)))` (R201). -/
def trueFreq (num : Num R) (w h k : Nat) (d : R) : R :=
  num.fadd (num.fdiv (num.fmul num.twoPi (num.ofInt k)) (num.ofInt w)) (num.fdiv d (num.ofInt h))

/-- The running state of bin k after the value z (R201 steps 1 to 5 and 7); the accumulator is never reduced (R205).

DESIGN CHOICE: LASTPH is the phase of the value just processed, NaN or not, as R201 step 7 and R203 have it. R206
remarks that LASTPH too stays NaN for the rest of the pass after a NaN value; by step 7 it does not when a later value
has a phase, while NEWPH does (log 20). -/
def binAfter (num : Num R) (w h : Nat) (r : R) (k : Nat) (b : BinPhase R) (z : Cx R) : BinPhase R :=
  { last := carg num z
    acc := num.fadd b.acc
      (num.fmul
        (num.fmul (trueFreq num w h k (unwrap num (num.fsub (carg num z) b.last))) (num.ofInt h)) r) }

/-- What bin k emits for the value z, from the accumulator after step 5 (R201 step 6). -/
def binEmits (num : Num R) (w h : Nat) (r : R) (k : Nat) (b : BinPhase R) (z : Cx R) : Cx R :=
  cpolar num (cabs num z) (binAfter num w h r k b z).acc

/-- The bins after one frame, k increasing from `k0` (R201, R202). -/
def frameAfter (num : Num R) (w h : Nat) (r : R) : Nat → List (BinPhase R) → List (Cx R) → List (BinPhase R)
  | k, b :: bs, z :: zs => binAfter num w h r k b z :: frameAfter num w h r (k + 1) bs zs
  | _, _, _ => []

/-- What one frame emits, k increasing from `k0` (R201, R202). -/
def frameEmits (num : Num R) (w h : Nat) (r : R) : Nat → List (BinPhase R) → List (Cx R) → List (Cx R)
  | k, b :: bs, z :: zs => binEmits num w h r k b z :: frameEmits num w h r (k + 1) bs zs
  | _, _, _ => []

/-- The bins after a sequence of frames, in time order (R202, R203). -/
def passAfter (num : Num R) (w h : Nat) (r : R) : List (BinPhase R) → List (List (Cx R)) → List (BinPhase R)
  | bs, [] => bs
  | bs, f :: fs => passAfter num w h r (frameAfter num w h r 0 bs f) fs

/-- The new Spectrum Sequence of the same length (R203). -/
def passEmits (num : Num R) (w h : Nat) (r : R) : List (BinPhase R) → List (List (Cx R)) → List (List (Cx R))
  | _, [] => []
  | bs, f :: fs => frameEmits num w h r 0 bs f :: passEmits num w h r (frameAfter num w h r 0 bs f) fs

/-- The bins at the start of a pass (R200). -/
def clearedBins (num : Num R) (w : Nat) : List (BinPhase R) := List.replicate w (clearedBin num)

/-- The bins at the end of a pass: the final LASTPH and NEWPH (R203). -/
def vocodeBins (num : Num R) (w h : Nat) (r : R) (frames : List (List (Cx R))) : List (BinPhase R) :=
  passAfter num w h r (clearedBins num w) frames

/-- `vocode(spectrumSequence, windowSize, hopSize, stretchFactor)` (R203). -/
def vocodeSpectrum (num : Num R) (w h : Nat) (r : R) (frames : List (List (Cx R))) : List (List (Cx R)) :=
  passEmits num w h r (clearedBins num w) frames

/-- The body of VOCODE when every element read holds a value (R203). -/
def storeVocoded (p : Params) (spa : List (Cx Word)) (s : State) : State :=
  let frames := framesOf (windowSize s) (frameCount s) spa
  let num := machineNum p
  let bins := vocodeBins num (windowSize s) (hopSize s) (stretchFactor s) frames
  let out := vocodeSpectrum num (windowSize s) (hopSize s) (stretchFactor s) frames
  { s with
    mem :=
      writeScalars p
        (writeScalars p (writeComplex p s.mem .spb 0 out.flatten) .lastph 0 (bins.map BinPhase.last))
        .newph 0 (bins.map BinPhase.acc) }

/-- Everything a vocoder pass of `f` frames writes, unspecified (10_state.md R47, log 5): `SPB[0..F*W)`, LASTPH,
NEWPH. -/
def scrambleVocoded (p : Params) (f : Nat) (s : State) : Memory :=
  scramble s.tick
    (scramble s.tick
      (scramble s.tick s.mem (elementAddr p .spb 0) (2 * (f * windowSize s)))
      (elementAddr p .lastph 0) (windowSize s))
    (elementAddr p .newph 0) (windowSize s)

/-- The body of VOCODE (R203). -/
def vocodeBody (p : Params) (s : State) : State :=
  match readSpectrum p s .spa with
  | some spa => storeVocoded p spa s
  | none => { s with mem := scrambleVocoded p (frameCount s) s, tick := s.tick + 1 }

/-- VOCODE (R203). -/
def vocodeCommand (p : Params) (s : State) : Host.Outcome State Fault Refusal :=
  perform (passConfigError p s) (vocodeCapError p s) (vocodeBody p) s

/-- The meaning of VOCODE in PVCORE (R203). -/
def execVocode (s : State) : Host.Outcome State Fault Refusal := vocodeCommand Config.params s

end Sys2Proof.Machine
end

