-- ==== Sys2Proof/Machine/Pipeline.lean ====
section
/-! DEFINITION. The commands NOP and RUN (46_pipeline.md R230, R231). -/

namespace Sys2Proof.Machine

/-- NOP: no check but the illegal word, DONE, nothing else (R230). -/
def nopCommand (s : State) : Host.Outcome State Fault Refusal := perform false false id s

/-- The meaning of NOP in PVCORE (R230). -/
def execNop (s : State) : Host.Outcome State Fault Refusal := nopCommand s

/-- Everything RUN writes, unspecified (10_state.md R47, log 5), the ranges those of the frame count F' that RUN
computes: what ANALYZE, VOCODE and SYNTH write. -/
def scrambleRun (p : Params) (s : State) : State :=
  { s with
    mem :=
      scrambleOutput p (analysisFrames s)
        { s with
          mem := scrambleVocoded p (analysisFrames s)
            { s with
              mem := scramble s.tick s.mem (elementAddr p .spa 0)
                (2 * (analysisFrames s * windowSize s)) } }
    nframes := freeLength p s.tick .nframes
    outlen := freeLength p s.tick .outlen
    tick := s.tick + 1 }

/-- The body of RUN: ANALYZE, VOCODE with the NFRAMES just written, SYNTH from SPB (R231). -/
def runBody (p : Params) (s : State) : State :=
  match readSignal p s with
  | some _ => synthBody p .spb (vocodeBody p (analyzeBody p s))
  | none => dropFrame p (scrambleRun p (ensureWindowFreely p s))

/-- RUN: all the checks of the three commands before anything changes (R231, R243). -/
def runCommand (p : Params) (s : State) : Host.Outcome State Fault Refusal :=
  perform (passConfigError p s) (runCapError p s) (runBody p) s

/-- The meaning of RUN in PVCORE (R231). -/
def execRun (s : State) : Host.Outcome State Fault Refusal := runCommand Config.params s

end Sys2Proof.Machine
end

