-- ==== Sys2Proof/Machine/Dispatch.lean ====
section
/-! DEFINITION. Which meaning each command has: one arm per constructor of `Instr`. -/

namespace Sys2Proof.Machine

def exec (i : Instr) (s : State) : Host.Outcome State Fault Refusal :=
  match i with
  | .nop => Sys2Proof.Machine.execNop s
  | .fft => Sys2Proof.Machine.execFft s
  | .ifft => Sys2Proof.Machine.execIfft s
  | .wingen => Sys2Proof.Machine.execWingen s
  | .analyze => Sys2Proof.Machine.execAnalyze s
  | .vocode => Sys2Proof.Machine.execVocode s
  | .synth bank => Sys2Proof.Machine.execSynth bank s
  | .run => Sys2Proof.Machine.execRun s

end Sys2Proof.Machine
end

