-- ==== Sys2Proof/Machine/Step.lean ====
section
/-! DEFINITION. One step of PVCORE with its environment (10_state.md R20): the engine's perform step, one act of
the host or of the reset input, or nothing. -/

namespace Sys2Proof.Machine

/-- The engine's perform step on the word latched in CMD (R20). -/
def performLatched (s : State) : Host.Outcome State Fault Refusal := performBy exec s

/-- One step of PVCORE: the default configuration of 00_scope.md R7 (`stepWith` is a step of any). -/
def step (s : State) : Host.Outcome State Fault Refusal := stepBy exec Config.params State.reset s

/-- The state in which the engine performs this command word next: the issue of R30, with any event the script
puts before the perform step made to wait. PVCORE fetches nothing (10_state.md R29): a command comes from outside,
by a host write to CMD, and this stands for that write (log 2). -/
def State.withFetchWord (s : State) (nbits w : Nat) : State :=
  { issue (wordOfTableBits nbits w) s with script := letEngineMove s.script }

end Sys2Proof.Machine
end

