-- ==== Sys2Proof/Machine/HostProgram.lean ====
section
/-! DEFINITION. The host-program notation of 30_encoding.md R106 and R107: each line expands to host transactions. -/

namespace Sys2Proof.Machine

/-- A line of a host program (R106, R107). Values are bus words. -/
inductive Line where
  /-- `WR <REG>, <value>`. -/
  | wr (r : Reg) (v : Word)
  /-- `RD <REG>`. -/
  | rd (r : Reg)
  /-- `WRM <M>[idx], x` of a scalar region. -/
  | wrm (g : Region) (idx : Nat) (x : Word)
  /-- `WRM <M>[idx], (x, y)` of a complex region. -/
  | wrmComplex (g : Region) (idx : Nat) (x y : Word)
  /-- `RDM <M>[idx]`. -/
  | rdm (g : Region) (idx : Nat)
  /-- `CMD <mnemonic>`. -/
  | cmd (i : Instr)
  /-- `CMD #<hex>`. -/
  | cmdWord (w : Word)
  /-- `WAIT`, of which `busyReads` reads fall before the perform step of the command in flight: how many there are is
  open (93_implementation_defined.md U15), so the line has the number as an argument (log 2). -/
  | wait (busyReads : Nat)
  /-- `DO <mnemonic>`, with the `busyReads` of its `WAIT`. -/
  | perform (i : Instr) (busyReads : Nat)
  /-- `SETW <n>`, given by log2(n). -/
  | setw (log2n : Nat)
  /-- `LOADSIG x0, x1, ...`. -/
  | loadsig (xs : List Word)
  /-- `LOADFRM z0, z1, ...`. -/
  | loadfrm (zs : List (Cx Word))
  deriving Repr

/-- A transaction that waits until the command in flight, if any, has ended.

DESIGN CHOICE: every line but `WAIT` is such a transaction. Whether a line that follows `CMD` with no `WAIT` between
reaches the bus while BUSY = 1 is open (93_implementation_defined.md U15; 20_memory.md R75 permits either); an event
with a count `early` above 0 in the script is one that does (log 2). -/
def later (op : BusOp) : Event := ⟨0, .bus op⟩

/-- `WAIT`: reads of STATUS until one returns BUSY = 0 (R107). -/
def waitLine (busyReads : Nat) : Event := ⟨busyReads, .poll⟩

/-- A write of a register (R106). -/
def writeLine (p : Params) (r : Reg) (v : Word) : Event := later (.write (regAddr p r) 8 v)

/-- A read of a register (R106). -/
def readLine (p : Params) (r : Reg) : Event := later (.read (regAddr p r) 8)

/-- The writes of scalars to consecutive elements of a region (R106, R107). -/
def writeScalarLines (p : Params) (g : Region) : Nat → List Word → List Event
  | _, [] => []
  | idx, x :: xs => later (.write (elementAddr p g idx) 8 x) :: writeScalarLines p g (idx + 1) xs

/-- The two writes of each complex value to consecutive elements of a region (R106, R107). -/
def writeComplexLines (p : Params) (g : Region) : Nat → List (Cx Word) → List Event
  | _, [] => []
  | idx, z :: zs =>
    later (.write (elementAddr p g idx) 8 z.re) :: later (.write (imagAddr p g idx) 8 z.im) ::
      writeComplexLines p g (idx + 1) zs

/-- The events of a line (R106, R107). -/
def expandLine (p : Params) : Line → List Event
  | .wr r v => [writeLine p r v]
  | .rd r => [readLine p r]
  | .wrm g idx x => writeScalarLines p g idx [x]
  | .wrmComplex g idx x y => writeComplexLines p g idx [⟨x, y⟩]
  | .rdm g idx =>
    if regionIsComplex g then
      [later (.read (elementAddr p g idx) 8), later (.read (imagAddr p g idx) 8)]
    else [later (.read (elementAddr p g idx) 8)]
  | .cmd i => [writeLine p .cmd (encode i)]
  | .cmdWord w => [writeLine p .cmd w]
  | .wait k => [waitLine k]
  | .perform i k => [writeLine p .cmd (encode i), waitLine k]
  | .setw n => [writeLine p .logw (BitVec.ofNat 64 n)]
  | .loadsig xs => writeScalarLines p .sig 0 xs ++ [writeLine p .siglen (BitVec.ofNat 64 xs.length)]
  | .loadfrm zs => writeComplexLines p .frm 0 zs

/-- The transactions of a host program. -/
def expandProgram (p : Params) (lines : List Line) : List Event := lines.flatMap (expandLine p)

/-- The state with a host program still to be run. -/
def withProgram (p : Params) (lines : List Line) (s : State) : State :=
  { s with script := s.script ++ expandProgram p lines }

end Sys2Proof.Machine
end

