-- ==== Sys2Proof/Machine/Pcm.lean ====
section
/-! DEFINITION. The PCM boundary (20_memory.md R76, R77): duties of the host software, outside the block. Nothing
in the machine uses this file. -/

namespace Sys2Proof.Machine

/-- Input conversion (R76): the stream bytes b0, b1 of a sample, as the word the host writes to SIG. -/
def pcmDecode (b0 b1 : Byte) : Word := b64div (b64ofInt (b1 ++ b0).toInt) (b64ofInt 32767)

/-- The clamp to [-1, 1] of R77, of a word that is not a NaN. -/
def pcmClamp (x : Word) : Word := boundedBy b64one x

/-- The fraction dropped (R77): the value of a finite word rounded toward zero. -/
def truncToward0 (x : Word) : Int :=
  if signOf x then -((unitsOf x / 2 ^ 1074 : Nat) : Int) else ((unitsOf x / 2 ^ 1074 : Nat) : Int)

/-- Output conversion (R77), as a 16-bit two's-complement sample; free for a NaN (U7, log 15). -/
def pcmSample (x : Word) : BitVec 16 :=
  if isNaN x then Config.pcmOfNan x
  else BitVec.ofInt 16 (truncToward0 (b64mul (pcmClamp x) (b64ofInt 32767)))

/-- The two stream bytes of a sample, `t[7:0]` then `t[15:8]` (R77). -/
def pcmEncode (x : Word) : Byte × Byte :=
  ((pcmSample x).extractLsb' 0 8, (pcmSample x).extractLsb' 8 8)

end Sys2Proof.Machine
end

