-- ==== Sys2Proof/Machine/Configured.lean ====
section
/-! DEFINITION. The machine with the configuration of 00_scope.md R7 as an argument: any number system with a bus
image, either tie rule, any capacities and bases that `Params.legal` allows. `exec`, `step` and `core` are it at
`Config.params`. -/

namespace Sys2Proof.Machine

/-- The meaning of each command under a configuration. -/
def execWith (p : Params) : Instr → State → Host.Outcome State Fault Refusal
  | .nop, s => nopCommand s
  | .fft, s => fftCommand p s
  | .ifft, s => ifftCommand p s
  | .wingen, s => wingenCommand p s
  | .analyze, s => analyzeCommand p s
  | .vocode, s => vocodeCommand p s
  | .synth bank, s => synthCommand p bank s
  | .run, s => runCommand p s

/-- The scalar 1.5 of a number system, the reset value of STRETCH (10_state.md R24, R48).

DESIGN CHOICE: it is formed as ONE + HALF. R24 and R48 give the value and its bus image under Num_b64, and R120 has no
such constant, so no rule says how a `Num` other than Num_b64 forms it; under Num_b64 and Num_exact the sum is 1.5
exactly (log 21). -/
def scalarOneAndHalf {R : Type} (num : Num R) : R := num.fadd (oneOf num) num.half

/-- The machine right after reset under a configuration (10_state.md R48): STRETCH is the word of the scalar 1.5. -/
def resetWith (p : Params) : State := { State.reset with stretch := scalarOneAndHalf (machineNum p) }

/-- One step under a configuration. -/
def stepWith (p : Params) (s : State) : Host.Outcome State Fault Refusal := stepBy (execWith p) p (resetWith p) s

/-- The machine under a configuration, as the host reads one. -/
def coreWith (p : Params) : Host.Core where
  State := State
  Fault := Fault
  Refusal := Refusal
  step := stepWith p
  reset := resetWith p

end Sys2Proof.Machine
end

