-- ==== Sys2Proof/Machine/Exact.lean ====
section
/-! DEFINITION. The specification instance `Num_exact` of 40_numerics.md R135, the real numbers, and the reading
of binary64 words as reals with the accuracy hypothesis of R127 T5, R128 A7 and R129. The machine does not use
this file: it is what the closed forms of the spec and the word "accurate" speak about, so it may use the reals,
which cannot be computed. -/

namespace Sys2Proof.Machine

/-- `round` on the reals (R131): to the nearest integer, a tie by the parameter, the sign carried over. -/
noncomputable def exactRound (tie : RoundTie) (x : ℝ) : ℝ :=
  let n : ℤ := ⌊|x|⌋
  let d : ℝ := |x| - n
  let m : ℤ :=
    if d < 1 / 2 then n
    else if 1 / 2 < d then n + 1
    else
      match tie with
      | .away => n + 1
      | .even => if n % 2 = 0 then n else n + 1
  if x < 0 then -(m : ℝ) else (m : ℝ)

/-- `Num_exact` (R135): the field operations (a quotient by zero is 0, to keep it total), the non-negative root,
cosine and sine, R131 on the reals, and the angle in (-π, π], which is 0 at the origin.

DESIGN CHOICE: the root of a negative real is 0, as `Real.sqrt` has it. R135 gives `fsqrt` on [0, ∞) only, R120 wants
it total; `cabs`, the one operation that takes a root, takes it of a sum of two squares, so the value is never reached
(log 16). -/
noncomputable def numExact (tie : RoundTie) : Num ℝ where
  ofInt := fun n => (n : ℝ)
  half := 1 / 2
  pi := Real.pi
  twoPi := 2 * Real.pi
  fadd := fun a b => a + b
  fsub := fun a b => a - b
  fmul := fun a b => a * b
  fdiv := fun a b => a / b
  fneg := fun a => -a
  fsqrt := Real.sqrt
  fcos := Real.cos
  fsin := Real.sin
  fround := exactRound tie
  fatan2 := fun y x => Complex.arg ⟨x, y⟩

/-- A complex value of `Num_exact` as a complex number. -/
def toComplex (z : Cx ℝ) : ℂ := ⟨z.re, z.im⟩

/-- The real number a finite binary64 word denotes (R121). -/
noncomputable def realOf (w : Word) : ℝ := (signedUnitsOf w : ℝ) / 2 ^ 1074

/-- One unit in the last place of a finite binary64 word: the distance to the next magnitude of its exponent. -/
noncomputable def ulpOf (w : Word) : ℝ := 2 ^ (expOf w - 1) / 2 ^ 1074

/-- The accuracy the hardware's transcendental functions have, T5 and A7, for the error bound TRIG_ULP = `u`.
R129 leaves the bound OPEN and no source states one, so this is a hypothesis a statement may take and nothing
in the model assumes it (log 9). -/
def TrigAccurate (u : ℝ) : Prop :=
  (∀ x : Word, isFinite x = true →
    |realOf (b64cos x) - Real.cos (realOf x)| ≤ u * ulpOf (b64cos x) ∧
    |realOf (b64sin x) - Real.sin (realOf x)| ≤ u * ulpOf (b64sin x)) ∧
  (∀ y x : Word, isFinite y = true → isFinite x = true → isZero y = false → isZero x = false →
    |realOf (b64atan2 y x) - Complex.arg ⟨realOf x, realOf y⟩| ≤ u * ulpOf (b64atan2 y x))

end Sys2Proof.Machine
end

