-- ==== Sys2Proof/Machine/Iterative.lean ====
section
/-! DEFINITION. The iterative decimation-in-time form of 41_transform.md R162, as explicit index arithmetic over
one buffer. The machine uses the recursion of R161; this is what an implementation may do instead. -/

namespace Sys2Proof.Machine

variable {R : Type}

/-- The index whose n-bit binary numeral is that of j reversed (R162). -/
def bitReverse : Nat → Nat → Nat
  | 0, _ => 0
  | n + 1, j => 2 ^ n * (j % 2) + bitReverse n (j / 2)

/-- The element at an index, ZERO beyond the end. -/
def elementOr0 (num : Num R) (a : List (Cx R)) (i : Nat) : Cx R := a.getD i ⟨zeroOf num, zeroOf num⟩

/-- The input in bit-reversed order: element j moves to the index `bitReverse n j` (R162). -/
def bitReversed (num : Num R) (n : Nat) (x : List (Cx R)) : List (Cx R) :=
  (List.range (2 ^ n)).map fun i => elementOr0 num x (bitReverse n i)

/-- One butterfly of the block that starts at `st`, in place (R162). -/
def butterflyAt (num : Num R) (size st : Nat) (a : List (Cx R)) (k : Nat) : List (Cx R) :=
  let t := cmul num (tw num size k) (elementOr0 num a (st + k + size / 2))
  let e := elementOr0 num a (st + k)
  (a.set (st + k) (cadd num e t)).set (st + k + size / 2) (csub num e t)

/-- The butterflies of one block, k increasing (R162). -/
def blockPass (num : Num R) (size : Nat) (a : List (Cx R)) (st : Nat) : List (Cx R) :=
  (List.range (size / 2)).foldl (butterflyAt num size st) a

/-- All blocks of one size, the block starts increasing (R162). -/
def sizePass (num : Num R) (n : Nat) (a : List (Cx R)) (m : Nat) : List (Cx R) :=
  ((List.range (2 ^ n / 2 ^ (m + 1))).map fun b => b * 2 ^ (m + 1)).foldl (blockPass num (2 ^ (m + 1))) a

/-- The iterative transform of 2^n elements: bit-reversed order, then the sizes 2, 4, …, 2^n (R162). -/
def iterativeFft (num : Num R) (n : Nat) (x : List (Cx R)) : List (Cx R) :=
  (List.range n).foldl (sizePass num n) (bitReversed num n x)

end Sys2Proof.Machine
end

