-- ==== Sys2Proof/Safety.lean ====
section
/-! DEFINITION. The terms in which claims speak: the operands a command reads hold values (the premise of
93_implementation_defined.md U6), the invariants of the machine, what a command may not touch. -/

namespace Sys2Proof.Machine

/-- Every memory element the command reads in this state holds a value (10_state.md R47, 20_memory.md R70): the
premise U6 asks of a claim about a run. -/
def operandsHeld (p : Params) : Instr → State → Bool
  | .nop, _ => true
  | .fft, s => (readFrame p s).isSome
  | .ifft, s => (readFrame p s).isSome
  | .wingen, _ => true
  | .analyze, s => (readSignal p s).isSome
  | .vocode, s => (readSpectrum p s .spa).isSome
  | .synth bank, s => (readSpectrum p s (bankRegion bank)).isSome
  | .run, s => (readSignal p s).isSome

/-- CFG is raised for this command in this state (60_exceptions.md R242). -/
def configError (p : Params) : Instr → State → Bool
  | .nop, _ => false
  | .fft, s => transformConfigError p s
  | .ifft, s => transformConfigError p s
  | .wingen, s => windowConfigError p s
  | .analyze, s => passConfigError p s
  | .vocode, s => passConfigError p s
  | .synth _, s => passConfigError p s
  | .run, s => passConfigError p s

/-- CAP is raised for this command in this state, where CFG is not (60_exceptions.md R243). -/
def capacityError (p : Params) : Instr → State → Bool
  | .nop, _ => false
  | .fft, _ => false
  | .ifft, _ => false
  | .wingen, _ => false
  | .analyze, s => analyzeCapError p s
  | .vocode, s => vocodeCapError p s
  | .synth _, s => synthCapError p s
  | .run, s => runCapError p s

/-- STATUS is as the rules leave it: a command in flight has neither ended nor been refused (R30); DONE and ERR
are not both set (R31); ERRCODE is one of the codes of R240 and is 0 exactly when ERR is (R31). -/
def statusLegal (t : Status) : Bool :=
  (!t.busy || (!t.done && !t.err)) && !(t.done && t.err) &&
    decide (t.errcode.toNat ≤ 3) && (t.err == decide (t.errcode ≠ 0))

/-- The invariant of 10_state.md R43: while WINOK = 1 and the window size is one a window has, `WIN[0..W)` is the
Hann window of the current W. -/
def windowValid (p : Params) (s : State) : Prop :=
  s.status.winok = true →
    1 ≤ logwOf s ∧ logwOf s ≤ p.logwMax ∧
    readScalars p s.mem .win 0 (windowSize s) = some (hannWindow (machineNum p) (windowSize s))

/-- Every listed byte lies in a memory of the address map (20_memory.md R61). -/
def memoryMapped (p : Params) (m : Memory) : Prop :=
  ∀ c ∈ m, ∃ g, inRegion p g c.1 = true

/-- A word holds a value or holds none: no aligned word is listed in part (R64, R68). -/
def memoryWhole (m : Memory) : Prop :=
  ∀ a, a % 8 = 0 → ∀ i < 8, (readByte m (a + i)).isSome = (readByte m a).isSome

/-- Every invariant of the machine together. -/
def Inv (p : Params) (s : State) : Prop :=
  Memory.wf s.mem ∧ memoryMapped p s.mem ∧ memoryWhole s.mem ∧ statusLegal s.status = true ∧ windowValid p s

/-- The host has kept the access rules since reset (60_exceptions.md R248). -/
def accessClean (s : State) : Prop := s.status.accerr = false

/-- Every byte outside the given ranges (first address, length) is in `t` what it was in `s`, held or not held. -/
def bytesKeptOutside (ranges : List (Nat × Nat)) (s t : State) : Prop :=
  ∀ a, (∀ r ∈ ranges, a < r.1 ∨ r.1 + r.2 ≤ a) → readByte t.mem a = readByte s.mem a

/-- CMD, LOGW, HOP, STRETCH, SIGLEN, what the environment will do and what the host has seen are as they were: no
command writes them (10_state.md R50). -/
def operandRegistersKept (s t : State) : Prop :=
  t.cmd = s.cmd ∧ t.logw = s.logw ∧ t.hop = s.hop ∧ t.stretch = s.stretch ∧ t.siglen = s.siglen ∧
    t.script = s.script ∧ t.seen = s.seen

/-- The hardware's own state (10_state.md R21): everything but the model's fields `tick`, `script`, `seen`. -/
def sameHardware (s t : State) : Prop :=
  t.cmd = s.cmd ∧ t.status = s.status ∧ t.logw = s.logw ∧ t.hop = s.hop ∧ t.stretch = s.stretch ∧
    t.siglen = s.siglen ∧ t.nframes = s.nframes ∧ t.outlen = s.outlen ∧ t.mem = s.mem

/-- The memories a command may write (20_memory.md R70, 10_state.md R50). -/
def writeSet : Instr → List Region
  | .nop => []
  | .fft => [.frm]
  | .ifft => [.frm]
  | .wingen => [.win]
  | .analyze => [.win, .spa, .frm]
  | .vocode => [.spb, .lastph, .newph]
  | .synth _ => [.win, .out, .frm]
  | .run => [.win, .spa, .frm, .spb, .lastph, .newph, .out]

/-- The bytes a command may write (20_memory.md R70), as ranges (first address, length): F the value of NFRAMES for
VOCODE and SYNTH, the frame count the command computes for ANALYZE and RUN; WIN only where WINOK was 0, but for
WINGEN; FRM where the command transforms it or uses it as scratch. -/
def writeRanges (p : Params) (i : Instr) (s : State) : List (Nat × Nat) :=
  let w := windowSize s
  let win := (regionBase p .win, if s.status.winok then 0 else 8 * w)
  let frm := (regionBase p .frm, 16 * w)
  let spa := fun f => (regionBase p .spa, 16 * (f * w))
  let vocoded := fun f =>
    [(regionBase p .spb, 16 * (f * w)), (regionBase p .lastph, 8 * w), (regionBase p .newph, 8 * w)]
  let out := fun f => (regionBase p .out, 8 * outputLength f w (hopSize s))
  match i with
  | .nop => []
  | .fft => [frm]
  | .ifft => [frm]
  | .wingen => [(regionBase p .win, 8 * w)]
  | .analyze => [win, frm, spa (analysisFrames s)]
  | .vocode => vocoded (frameCount s)
  | .synth _ => [win, frm, out (frameCount s)]
  | .run => [win, frm, spa (analysisFrames s), out (analysisFrames s)] ++ vocoded (analysisFrames s)

/-- The commands that write NFRAMES (10_state.md R26). -/
def writesNframes : Instr → Bool
  | .nop => false
  | .fft => false
  | .ifft => false
  | .wingen => false
  | .analyze => true
  | .vocode => false
  | .synth _ => false
  | .run => true

/-- The commands that write OUTLEN (10_state.md R27). -/
def writesOutlen : Instr → Bool
  | .nop => false
  | .fft => false
  | .ifft => false
  | .wingen => false
  | .analyze => false
  | .vocode => false
  | .synth _ => true
  | .run => true

/-- The commands that may set WINOK (10_state.md R32). -/
def mayWriteWinok : Instr → Bool
  | .nop => false
  | .fft => false
  | .ifft => false
  | .wingen => true
  | .analyze => true
  | .vocode => false
  | .synth _ => true
  | .run => true

/-- `r` is a binary64 value nearest the exact real result `x`, and an even one where another value is as near
(40_numerics.md R122). -/
def NearestTo (x : ℝ) (r : Word) : Prop :=
  ∀ w : Word, isFinite w = true →
    |x - realOf r| ≤ |x - realOf w| ∧ (|x - realOf w| = |x - realOf r| → realOf w ≠ realOf r → magOf r % 2 = 0)

/-- The magnitude from which on a result overflows, half a unit in the last place past the largest finite value: there
the value nearest with ties to even is no longer finite (40_numerics.md R122). -/
def overflowBound : Nat := (2 ^ 54 - 1) * 2 ^ 970

/-- `r` is the correctly rounded binary64 result for the exact real result `x`: finite and nearest below the overflow
bound, the infinity of the sign of `x` from it on (40_numerics.md R122). The sign of a zero is left to other terms. -/
def RoundsTo (x : ℝ) (r : Word) : Prop :=
  (|x| < (overflowBound : ℝ) → isFinite r = true ∧ NearestTo x r) ∧
    ((overflowBound : ℝ) ≤ x → r = 0x7FF0000000000000) ∧
    (x ≤ -(overflowBound : ℝ) → r = 0xFFF0000000000000)

end Sys2Proof.Machine
end

