-- ==== Sys2Proof/Certificates/Slice0/Obligations.lean ====
section
/-! DEFINITION. The statements for the provers. Each docstring names the rule of spec/ it rests on. -/

open Sys2Proof Sys2Proof.Machine

/-! ## Command words -/

/-- 30_encoding.md R102: a word selects a row of the table exactly when `w AND mask = match`, and the decoder reads
it as that row's command; for SYNTH the bank is bit 8 (R104). -/
def Obligations.DecoderFollowsOpcodeTable : Prop :=
  ∀ w : Word,
    (decode w = .ok .nop ↔ w &&& 0xFFFFFFFFFFFFFFFF = 0x0000000000000000) ∧
    (decode w = .ok .fft ↔ w &&& 0xFFFFFFFFFFFFFFFF = 0x0000000000000001) ∧
    (decode w = .ok .ifft ↔ w &&& 0xFFFFFFFFFFFFFFFF = 0x0000000000000002) ∧
    (decode w = .ok .wingen ↔ w &&& 0xFFFFFFFFFFFFFFFF = 0x0000000000000003) ∧
    (decode w = .ok .analyze ↔ w &&& 0xFFFFFFFFFFFFFFFF = 0x0000000000000004) ∧
    (decode w = .ok .vocode ↔ w &&& 0xFFFFFFFFFFFFFFFF = 0x0000000000000005) ∧
    (decode w = .ok (.synth .spb) ↔ w &&& 0xFFFFFFFFFFFFFEFF = 0x0000000000000006 ∧ w.getLsbD 8 = false) ∧
    (decode w = .ok (.synth .spa) ↔ w &&& 0xFFFFFFFFFFFFFEFF = 0x0000000000000006 ∧ w.getLsbD 8 = true) ∧
    (decode w = .ok .run ↔ w &&& 0xFFFFFFFFFFFFFFFF = 0x0000000000000007)

/-- 30_encoding.md R100 to R105: a word decodes to a command exactly when it is the encoding of that command, so no
bit of an encoding is dropped and no two words are one command. -/
def Obligations.DecodeAndEncodeAgree : Prop :=
  ∀ (w : Word) (i : Instr), decode w = .ok i ↔ i.wf = true ∧ w = encode i

/-- A few words written out from R102 and the vectors V7.2 decode to the commands they stand for. -/
def Obligations.DecodesWrittenWords : Prop :=
  decode 0x0000000000000000 = .ok .nop ∧ decode 0x0000000000000001 = .ok .fft ∧
    decode 0x0000000000000004 = .ok .analyze ∧ decode 0x0000000000000006 = .ok (.synth .spb) ∧
    decode 0x0000000000000106 = .ok (.synth .spa) ∧ decode 0x0000000000000107 = .error .bankWithoutSynth ∧
    decode 0x8000000000000000 = .error .reservedBits ∧ decode 0x00000000000000FF = .error .reservedOpcode

/-- 60_exceptions.md R241: the engine refuses the word in CMD with ILLCMD, and changes nothing else, exactly when OPC
is in 0x08..0xFF, a bit of 63:9 is set, or BANK = 1 with OPC other than 0x06; every other word is a command. -/
def Obligations.IllegalWordsAreRefused : Prop :=
  ∀ s : State,
    ((8 ≤ s.cmd.toNat % 256 ∨ s.cmd.toNat / 512 ≠ 0 ∨ (s.cmd.getLsbD 8 = true ∧ s.cmd.toNat % 256 ≠ 6)) →
      (∃ e, decode s.cmd = .error e) ∧
      performLatched s =
        .next { s with status := { s.status with busy := false, done := false, err := true, errcode := 1 } }) ∧
    (¬(8 ≤ s.cmd.toNat % 256 ∨ s.cmd.toNat / 512 ≠ 0 ∨ (s.cmd.getLsbD 8 = true ∧ s.cmd.toNat % 256 ≠ 6)) →
      ∃ i, decode s.cmd = .ok i ∧ performLatched s = exec i s)

/-! ## Reset, the invariants, the step -/

/-- 70_reset_and_hazards.md R260, R261, 10_state.md R48: the state after reset; the reset event leads to it from any
state; and a step takes a reset that comes next in the script: with BUSY = 0 always, with BUSY = 1 where the count
`early` of that event is not 0 (otherwise the engine moves first). The last clause is about the model's own choice, log 2
(DESIGN CHOICE): that what the environment will do is a script, the count `early`, and that a reset leaves the rest of
the script. -/
def Obligations.ResetState : Prop :=
  State.reset.cmd = 0 ∧ statusWord State.reset.status = 0 ∧ State.reset.logw = 10 ∧ State.reset.hop = 256 ∧
    State.reset.stretch = 0x3FF8000000000000 ∧ realOf State.reset.stretch = 1.5 ∧ State.reset.siglen = 0 ∧
    State.reset.nframes = 0 ∧ State.reset.outlen = 0 ∧ (∀ a, readByte State.reset.mem a = none) ∧
    (∀ s, sameHardware State.reset (resetEvent s)) ∧
    ∀ (s : State) (e : Event) (rest : List Event), s.script = e :: rest → e.act = .reset →
      (s.status.busy = true → e.early ≠ 0) →
      ∃ t, step s = .next t ∧ sameHardware State.reset t ∧ t.script = rest

/-- The reset state meets the invariants of the machine. -/
def Obligations.ResetMeetsInvariants : Prop := Inv Config.params State.reset

/-- Every step keeps the invariants: the memory keeps its canonical form, lies in the regions of 20_memory.md R61
and holds whole words; STATUS stays legal (10_state.md R30, R31, 60_exceptions.md R240); and while WINOK = 1 the
table WIN is the Hann window of the current W (10_state.md R43). -/
def Obligations.StepKeepsInvariants : Prop :=
  ∀ s t : State, Inv Config.params s → step s = .next t → Inv Config.params t

/-- A step of the engine runs the command that the word in CMD decodes to and adds nothing around it; and a word
placed by `withFetchWord` is what the very next step runs. -/
def Obligations.StepRunsTheDecodedCommand : Prop :=
  (∀ (s : State) (i : Instr), s.status.busy = true → (∀ e ∈ s.script.head?, e.early = 0) →
    decode s.cmd = .ok i → step s = exec i s) ∧
  (∀ (s : State) (nbits w : Nat) (i : Instr), decodeTableWord nbits w = some i →
    step (s.withFetchWord nbits w) = exec i (s.withFetchWord nbits w))

/-! ## The host's accesses -/

/-- 10_state.md R30: a host write to CMD while BUSY = 0 keeps all 64 bits and issues; a read of CMD returns the last
word written, legal or not. -/
def Obligations.WriteToCmdIssues : Prop :=
  readReg State.reset .cmd = 0 ∧
  ∀ (s : State) (v : Word), s.status.busy = false →
    hostWrite Config.params 0x0 8 v s =
      { s with cmd := v, status := { s.status with busy := true, done := false, err := false, errcode := 0 } } ∧
    hostRead Config.params 0x0 8 s = { s with seen := s.cmd :: s.seen }

/-- 10_state.md R49, R22 to R27, R31: the register map. While BUSY = 0: what a read of each register returns, what a
write of each stores, which writes and which offsets are illegal (20_memory.md R65); and the reset values. The word an
illegal read returns, a free one that raises `tick`, is the model's choice (log 4). -/
def Obligations.RegisterMap : Prop :=
  ∀ (s : State) (v : Word), s.status.busy = false →
    (hostRead Config.params 0x00 8 s = returnWord s.cmd s ∧
      hostRead Config.params 0x08 8 s = returnWord (statusWord s.status) s ∧
      hostRead Config.params 0x10 8 s = returnWord (s.logw.setWidth 64) s ∧
      hostRead Config.params 0x18 8 s = returnWord (s.hop.setWidth 64) s ∧
      hostRead Config.params 0x20 8 s = returnWord s.stretch s ∧
      hostRead Config.params 0x28 8 s = returnWord (s.siglen.setWidth 64) s ∧
      hostRead Config.params 0x30 8 s = returnWord (s.nframes.setWidth 64) s ∧
      hostRead Config.params 0x38 8 s = returnWord (s.outlen.setWidth 64) s) ∧
    (hostWrite Config.params 0x00 8 v s = issue v s ∧
      hostWrite Config.params 0x08 8 v s = raiseAccErr s ∧
      hostWrite Config.params 0x10 8 v s =
        { s with logw := v.extractLsb' 0 5, status := { s.status with winok := false } } ∧
      hostWrite Config.params 0x18 8 v s = { s with hop := v.extractLsb' 0 32 } ∧
      hostWrite Config.params 0x20 8 v s = { s with stretch := v } ∧
      hostWrite Config.params 0x28 8 v s = { s with siglen := v.extractLsb' 0 32 } ∧
      hostWrite Config.params 0x30 8 v s = { s with nframes := v.extractLsb' 0 32 } ∧
      hostWrite Config.params 0x38 8 v s = raiseAccErr s) ∧
    (∀ o, 0x40 ≤ o → o < 0x100 →
      hostWrite Config.params o 8 v s = raiseAccErr s ∧
      hostRead Config.params o 8 s = raiseAccErr (returnUnspecified o s)) ∧
    (readReg State.reset .cmd = 0 ∧ readReg State.reset .status = 0 ∧ readReg State.reset .logw = 10 ∧
      readReg State.reset .hop = 256 ∧ readReg State.reset .stretch = 0x3FF8000000000000 ∧
      readReg State.reset .siglen = 0 ∧ readReg State.reset .nframes = 0 ∧ readReg State.reset .outlen = 0)

/-- 10_state.md R31: every bit of the word the host reads from STATUS. -/
def Obligations.StatusBits : Prop :=
  ∀ (t : Status) (i : Nat),
    (statusWord t).getLsbD i =
      if i = 0 then t.busy else if i = 1 then t.done else if i = 2 then t.err else if i = 3 then t.winok
      else if i = 4 then t.accerr else if 8 ≤ i ∧ i ≤ 11 then t.errcode.getLsbD (i - 8) else false

/-- 20_memory.md R61: the address map of PVCORE in numbers; what is in no range is a hole. -/
def Obligations.AddressMap : Prop :=
  ∀ a : Nat, a % 8 = 0 →
    ((∃ r, placeOf Config.params a = .reg r) ↔ a < 0x40) ∧
    (placeOf Config.params a = .region .win ↔ 0x2000 ≤ a ∧ a < 0x4000) ∧
    (placeOf Config.params a = .region .lastph ↔ 0x4000 ≤ a ∧ a < 0x6000) ∧
    (placeOf Config.params a = .region .newph ↔ 0x6000 ≤ a ∧ a < 0x8000) ∧
    (placeOf Config.params a = .region .frm ↔ 0x8000 ≤ a ∧ a < 0xC000) ∧
    (placeOf Config.params a = .region .sig ↔ 0x800000 ≤ a ∧ a < 0x1000000) ∧
    (placeOf Config.params a = .region .out ↔ 0x1000000 ≤ a ∧ a < 0x2000000) ∧
    (placeOf Config.params a = .region .spa ↔ 0x4000000 ≤ a ∧ a < 0x8000000) ∧
    (placeOf Config.params a = .region .spb ↔ 0x8000000 ≤ a ∧ a < 0xC000000) ∧
    (placeOf Config.params a = .hole ↔
      (0x40 ≤ a ∧ a < 0x2000) ∨ (0xC000 ≤ a ∧ a < 0x800000) ∨ (0x2000000 ≤ a ∧ a < 0x4000000) ∨ 0xC000000 ≤ a)

/-- 20_memory.md R65: an illegal write sets ACCERR and changes nothing else; an illegal read returns an unspecified
word, sets ACCERR and changes nothing else. Illegal: a size other than 8, an address that is no multiple of 8 or is
beyond the aperture; a hole; a write to STATUS, OUTLEN, WIN, LASTPH, NEWPH or OUT; any access but a read of STATUS
while BUSY = 1. That the unspecified word is a free one, which raises `tick`, is the model's choice (log 4). -/
def Obligations.IllegalAccessSetsAccerrOnly : Prop :=
  ∀ (s : State) (addr size : Nat) (v : Word),
    ((size ≠ 8 ∨ addr % 8 ≠ 0 ∨ 0xC000000 ≤ addr ∨ placeOf Config.params addr = .hole ∨
        placeOf Config.params addr = .reg .status ∨ placeOf Config.params addr = .reg .outlen ∨
        placeOf Config.params addr = .region .win ∨ placeOf Config.params addr = .region .lastph ∨
        placeOf Config.params addr = .region .newph ∨ placeOf Config.params addr = .region .out ∨
        s.status.busy = true) →
      hostWrite Config.params addr size v s = { s with status := { s.status with accerr := true } }) ∧
    ((size ≠ 8 ∨ addr % 8 ≠ 0 ∨ 0xC000000 ≤ addr ∨ placeOf Config.params addr = .hole ∨
        (s.status.busy = true ∧ addr ≠ 0x8)) →
      hostRead Config.params addr size s =
        { s with
          status := { s.status with accerr := true }
          seen := Config.unspecified s.tick addr :: s.seen
          tick := s.tick + 1 })

/-- 20_memory.md R75: while BUSY = 1 a read of STATUS returns STATUS and has no side effect; every other access is
illegal, and neither disturbs the command in flight. That the word of an illegal read is a free one, which raises
`tick`, is the model's choice (log 4). -/
def Obligations.OnlyStatusReadableWhileBusy : Prop :=
  ∀ s : State, s.status.busy = true →
    hostRead Config.params 0x8 8 s = { s with seen := statusWord s.status :: s.seen } ∧
    (statusWord s.status).getLsbD 0 = true ∧
    (∀ addr size, ¬(addr = 0x8 ∧ size = 8) →
      hostRead Config.params addr size s = raiseAccErr (returnUnspecified addr s)) ∧
    (∀ addr size v, hostWrite Config.params addr size v s = raiseAccErr s)

/-- 60_exceptions.md R248: ACCERR is sticky, no step clears it but the reset event; and it changes the behaviour of
no command and no write: with the bit set each answers what it answers without it, the bit set. -/
def Obligations.AccerrIsStickyAndInert : Prop :=
  (∀ s t : State, s.status.accerr = true → step s = .next t →
    t.status.accerr = true ∨ ∃ e rest, s.script = e :: rest ∧ e.act = .reset) ∧
  (∀ (i : Instr) (s t : State), exec i s = .next t → exec i (raiseAccErr s) = .next (raiseAccErr t)) ∧
  (∀ (addr size : Nat) (v : Word) (s : State),
    hostWrite Config.params addr size v (raiseAccErr s) = raiseAccErr (hostWrite Config.params addr size v s))

/-- 20_memory.md R67, R66, 10_state.md R47: a legal write of a memory word replaces that word and nothing else (the
other part of a complex element among it), and a legal read of it then returns the word. While BUSY = 0 an aligned read
in any memory, read-only ones among them, returns the word that stands there, and where no value is held an unspecified
word without ACCERR, a free one that raises `tick` (log 4, the model's choice). -/
def Obligations.HostWriteThenRead : Prop :=
  (∀ (s : State) (addr : Nat) (v : Word) (g : Region),
    writeLegal Config.params s addr 8 = true → placeOf Config.params addr = .region g →
      hostRead Config.params addr 8 (hostWrite Config.params addr 8 v s) =
        returnWord v (hostWrite Config.params addr 8 v s) ∧
      bytesKeptOutside [(addr, 8)] s (hostWrite Config.params addr 8 v s) ∧
      hostWrite Config.params addr 8 v s = { s with mem := (hostWrite Config.params addr 8 v s).mem }) ∧
  (∀ (s : State) (addr : Nat) (g : Region),
    s.status.busy = false → addr % 8 = 0 → placeOf Config.params addr = .region g →
      (∀ w, readWord s.mem addr = some w → hostRead Config.params addr 8 s = { s with seen := w :: s.seen }) ∧
      (readWord s.mem addr = none →
        hostRead Config.params addr 8 s =
          { s with seen := Config.unspecified s.tick addr :: s.seen, tick := s.tick + 1 }))

/-- 20_memory.md R66: no read has a side effect: it changes no register and no memory, sets ACCERR only where it is
illegal, and returns one word to the host. -/
def Obligations.ReadsHaveNoSideEffect : Prop :=
  ∀ (s : State) (addr size : Nat),
    ∃ w, (hostRead Config.params addr size s).seen = w :: s.seen ∧
      (hostRead Config.params addr size s).script = s.script ∧
      sameHardware (if readLegal Config.params s addr size then s else raiseAccErr s)
        (hostRead Config.params addr size s)

/-- 20_memory.md R63: byte `addr + i` of a word holds bits 8i+7 : 8i of it, for i in 0..7. -/
def Obligations.WordsAreLittleEndian : Prop :=
  ∀ (m : Memory) (addr : Nat) (v : Word) (i : Nat), i < 8 →
    readByte (writeWords m addr [v]) (addr + i) = some (v.extractLsb' (8 * i) 8)

/-! ## The ends of a command -/

/-- 60_exceptions.md R242: CFG is raised, and nothing but STATUS changes, exactly on these conditions. -/
def Obligations.ConfigErrorsFollowTable : Prop :=
  ∀ (i : Instr) (s : State),
    (((i ≠ .nop ∧ 10 < s.logw.toNat) ∨
        (i ≠ .nop ∧ i ≠ .fft ∧ i ≠ .ifft ∧ s.logw.toNat = 0) ∨
        (i ≠ .nop ∧ i ≠ .fft ∧ i ≠ .ifft ∧ i ≠ .wingen ∧ s.hop.toNat = 0)) →
      exec i s =
        .next { s with status := { s.status with busy := false, done := false, err := true, errcode := 2 } }) ∧
    (¬((i ≠ .nop ∧ 10 < s.logw.toNat) ∨
        (i ≠ .nop ∧ i ≠ .fft ∧ i ≠ .ifft ∧ s.logw.toNat = 0) ∨
        (i ≠ .nop ∧ i ≠ .fft ∧ i ≠ .ifft ∧ i ≠ .wingen ∧ s.hop.toNat = 0)) →
      exec i s =
        .next { s with status := { s.status with busy := false, done := false, err := true, errcode := 3 } } ∨
      ∃ t, exec i s = .next t ∧ t.status.done = true)

/-- 60_exceptions.md R243: a command that passed R242 raises CAP, and changes nothing but STATUS, exactly on these
conditions, in exact integers, with F' the frame count of 43_analyzer.md R190. -/
def Obligations.CapacityErrorsFollowTable : Prop :=
  ∀ (i : Instr) (s : State), configError Config.params i s = false →
    (((i = .analyze ∧ (2 ^ 20 < s.siglen.toNat ∨
          2 ^ 12 < nframesOf s.siglen.toNat (2 ^ s.logw.toNat) s.hop.toNat)) ∨
        (i = .vocode ∧ 2 ^ 12 < s.nframes.toNat) ∨
        ((∃ b, i = .synth b) ∧ (2 ^ 12 < s.nframes.toNat ∨
          2 ^ 21 < s.nframes.toNat * s.hop.toNat + 2 ^ s.logw.toNat)) ∨
        (i = .run ∧ (2 ^ 20 < s.siglen.toNat ∨
          2 ^ 12 < nframesOf s.siglen.toNat (2 ^ s.logw.toNat) s.hop.toNat ∨
          2 ^ 21 < nframesOf s.siglen.toNat (2 ^ s.logw.toNat) s.hop.toNat * s.hop.toNat + 2 ^ s.logw.toNat))) →
      exec i s =
        .next { s with status := { s.status with busy := false, done := false, err := true, errcode := 3 } }) ∧
    (¬((i = .analyze ∧ (2 ^ 20 < s.siglen.toNat ∨
          2 ^ 12 < nframesOf s.siglen.toNat (2 ^ s.logw.toNat) s.hop.toNat)) ∨
        (i = .vocode ∧ 2 ^ 12 < s.nframes.toNat) ∨
        ((∃ b, i = .synth b) ∧ (2 ^ 12 < s.nframes.toNat ∨
          2 ^ 21 < s.nframes.toNat * s.hop.toNat + 2 ^ s.logw.toNat)) ∨
        (i = .run ∧ (2 ^ 20 < s.siglen.toNat ∨
          2 ^ 12 < nframesOf s.siglen.toNat (2 ^ s.logw.toNat) s.hop.toNat ∨
          2 ^ 21 < nframesOf s.siglen.toNat (2 ^ s.logw.toNat) s.hop.toNat * s.hop.toNat + 2 ^ s.logw.toNat))) →
      ∃ t, exec i s = .next t ∧ t.status.done = true)

/-- 60_exceptions.md R245: a refused command has done none of its work: the state other than STATUS is what it was,
and in STATUS only BUSY, DONE, ERR and ERRCODE are written. -/
def Obligations.RefusalChangesStatusOnly : Prop :=
  ∀ s t : State, performLatched s = .next t → t.status.done = false →
    ∃ code : BitVec 4, (code = 1 ∨ code = 2 ∨ code = 3) ∧
      t = { s with status := { s.status with busy := false, done := false, err := true, errcode := code } }

/-- 10_state.md R20, R31, 46_pipeline.md R234: every command ends, in one step, with BUSY = 0 and, since the issue
cleared both, exactly one of DONE and ERR set. -/
def Obligations.EveryCommandEnds : Prop :=
  ∀ (i : Instr) (s : State),
    ∃ t, exec i s = .next t ∧ t.status.busy = false ∧
      (s.status.done = false → s.status.err = false → t.status.done = !t.status.err)

/-- 10_state.md R47: a command that reads an element holding no value still terminates, raises no error and ends with
DONE = 1; it writes no byte outside the ranges that 20_memory.md R70 lists for it, no operand register, NFRAMES, OUTLEN
and WINOK only where 10_state.md R50 lets it, and WINOK only from 0. The free values it writes are unconstrained. -/
def Obligations.UnheldOperandsStillComplete : Prop :=
  ∀ (i : Instr) (s : State), configError Config.params i s = false → capacityError Config.params i s = false →
    operandsHeld Config.params i s = false →
    ∃ t, exec i s = .next t ∧ t.status.busy = false ∧ t.status.done = true ∧ t.status.err = s.status.err ∧
      t.status.errcode = s.status.errcode ∧ t.status.accerr = s.status.accerr ∧ t.tick = s.tick + 1 ∧
      operandRegistersKept s t ∧ bytesKeptOutside (writeRanges Config.params i s) s t ∧
      (writesNframes i = false → t.nframes = s.nframes) ∧ (writesOutlen i = false → t.outlen = s.outlen) ∧
      (mayWriteWinok i = false → t.status.winok = s.status.winok) ∧
      (s.status.winok = true → t.status.winok = true)

/-- 10_state.md R50, 20_memory.md R70: what each command may write. No command writes a memory outside its row, an
operand register, or ACCERR; only ANALYZE and RUN write NFRAMES, only SYNTH and RUN write OUTLEN, and only WINGEN,
ANALYZE, SYNTH and RUN may set WINOK. -/
def Obligations.CommandsWriteOnlyTheirRow : Prop :=
  ∀ (i : Instr) (s t : State), exec i s = .next t →
    (∀ a, (∀ g ∈ writeSet i, inRegion Config.params g a = false) → readByte t.mem a = readByte s.mem a) ∧
    operandRegistersKept s t ∧ t.status.accerr = s.status.accerr ∧
    (writesNframes i = false → t.nframes = s.nframes) ∧ (writesOutlen i = false → t.outlen = s.outlen) ∧
    (mayWriteWinok i = false → t.status.winok = s.status.winok) ∧
    (s.status.winok = true → t.status.winok = true)

/-! ## What each command does -/

/-- 46_pipeline.md R230: the word 0 is NOP; it succeeds under any configuration and changes STATUS only. -/
def Obligations.NopSetsDoneOnly : Prop :=
  encode .nop = 0x0000000000000000 ∧ decode 0x0000000000000000 = .ok .nop ∧
  ∀ s : State, exec .nop s = .next { s with status := { s.status with busy := false, done := true } }

/-- 41_transform.md R163: FFT with a legal LOGW and a frame that holds values completes; `FRM[0..W)` is the transform
of what it was, and nothing else but STATUS changes. -/
def Obligations.FftTransformsTheFrame : Prop :=
  ∀ (s : State) (x : List (Cx Word)), s.logw.toNat ≤ 10 → readFrame Config.params s = some x →
    ∃ t, exec .fft s = .next t ∧
      readFrame Config.params t = some (fft (numB64 .away) s.logw.toNat x) ∧
      bytesKeptOutside [(0x8000, 16 * 2 ^ s.logw.toNat)] s t ∧
      t = { s with mem := t.mem, status := { s.status with busy := false, done := true } }

/-- 41_transform.md R165: IFFT with a legal LOGW and a frame that holds values completes; `FRM[0..W)` is the inverse
transform of what it was, and nothing else but STATUS changes. -/
def Obligations.IfftTransformsTheFrame : Prop :=
  ∀ (s : State) (x : List (Cx Word)), s.logw.toNat ≤ 10 → readFrame Config.params s = some x →
    ∃ t, exec .ifft s = .next t ∧
      readFrame Config.params t = some (ifft (numB64 .away) s.logw.toNat x) ∧
      bytesKeptOutside [(0x8000, 16 * 2 ^ s.logw.toNat)] s t ∧
      t = { s with mem := t.mem, status := { s.status with busy := false, done := true } }

/-- 42_window.md R181: WINGEN with LOGW in 1..10 completes; `WIN[j] = hann(W, j)` for every j below W, WINOK is set,
and nothing else but STATUS changes, whether or not WINOK was set before. -/
def Obligations.WingenFillsTheWindow : Prop :=
  ∀ s : State, 1 ≤ s.logw.toNat → s.logw.toNat ≤ 10 →
    ∃ t, exec .wingen s = .next t ∧
      (∀ j < 2 ^ s.logw.toNat,
        scalarAt Config.params t.mem .win j = some (hann (numB64 .away) (2 ^ s.logw.toNat) j)) ∧
      bytesKeptOutside [(0x2000, 8 * 2 ^ s.logw.toNat)] s t ∧
      t = { s with mem := t.mem, status := { s.status with busy := false, done := true, winok := true } }

/-- 43_analyzer.md R192: ANALYZE that passes its checks, on samples that hold values, completes: element `i*W + k` of
SPA is bin k of the transform of frame i, NFRAMES the frame count, the window is generated if WINOK was 0, `FRM[0..W)`
holds no value, and nothing else but STATUS changes. -/
def Obligations.AnalyzeStoresTheSpectra : Prop :=
  ∀ (s : State) (sig : List Word), configError Config.params .analyze s = false →
    capacityError Config.params .analyze s = false → readSignal Config.params s = some sig →
    ∃ t, exec .analyze s = .next t ∧ t.nframes.toNat = analysisFrames s ∧
      (∀ i < analysisFrames s, ∀ k < 2 ^ s.logw.toNat,
        complexAt Config.params t.mem .spa (i * 2 ^ s.logw.toNat + k) =
          (fft (numB64 .away) s.logw.toNat
            (slice (numB64 .away) (2 ^ s.logw.toNat) s.hop.toNat sig i))[k]?) ∧
      (s.status.winok = false → ∀ j < 2 ^ s.logw.toNat,
        scalarAt Config.params t.mem .win j = some (hann (numB64 .away) (2 ^ s.logw.toNat) j)) ∧
      (∀ a, 0x8000 ≤ a → a < 0x8000 + 16 * 2 ^ s.logw.toNat → readByte t.mem a = none) ∧
      bytesKeptOutside
        [(0x2000, if s.status.winok then 0 else 8 * 2 ^ s.logw.toNat), (0x8000, 16 * 2 ^ s.logw.toNat),
          (0x4000000, 16 * (analysisFrames s * 2 ^ s.logw.toNat))] s t ∧
      t = { s with
        mem := t.mem
        nframes := t.nframes
        status := { s.status with busy := false, done := true, winok := true } }

/-- 44_vocoder.md R203: VOCODE that passes its checks, on spectra that hold values, completes: element `i*W + k` of
SPB is what bin k emits for frame i of a pass that starts with cleared files, LASTPH and NEWPH hold the bins at the
end of the pass, and nothing else but STATUS changes. What LASTPH holds after a value with a NaN part rests on the
model's choice, log 20 (DESIGN CHOICE, unsafe): step 7 of R201 and R203 are followed, by which LASTPH[k] is the phase of
the last value, and not the remark of R206 that LASTPH[k] stays NaN for the rest of the pass. -/
def Obligations.VocodeStoresThePass : Prop :=
  ∀ (s : State) (spa : List (Cx Word)), configError Config.params .vocode s = false →
    capacityError Config.params .vocode s = false → readSpectrum Config.params s .spa = some spa →
    ∃ t, exec .vocode s = .next t ∧
      (∀ i < s.nframes.toNat, ∀ k < 2 ^ s.logw.toNat,
        complexAt Config.params t.mem .spb (i * 2 ^ s.logw.toNat + k) =
          ((vocodeSpectrum (numB64 .away) (2 ^ s.logw.toNat) s.hop.toNat s.stretch
            (framesOf (2 ^ s.logw.toNat) s.nframes.toNat spa))[i]?).bind fun f => f[k]?) ∧
      (∀ k < 2 ^ s.logw.toNat,
        scalarAt Config.params t.mem .lastph k =
          ((vocodeBins (numB64 .away) (2 ^ s.logw.toNat) s.hop.toNat s.stretch
            (framesOf (2 ^ s.logw.toNat) s.nframes.toNat spa))[k]?).map BinPhase.last ∧
        scalarAt Config.params t.mem .newph k =
          ((vocodeBins (numB64 .away) (2 ^ s.logw.toNat) s.hop.toNat s.stretch
            (framesOf (2 ^ s.logw.toNat) s.nframes.toNat spa))[k]?).map BinPhase.acc) ∧
      bytesKeptOutside
        [(0x8000000, 16 * (s.nframes.toNat * 2 ^ s.logw.toNat)), (0x4000, 8 * 2 ^ s.logw.toNat),
          (0x6000, 8 * 2 ^ s.logw.toNat)] s t ∧
      t = { s with mem := t.mem, status := { s.status with busy := false, done := true } }

/-- 45_synthesizer.md R222: SYNTH of either bank that passes its checks, on spectra that hold values, completes:
`OUT[0..F*H + W)` is the overlap-add of the frames, OUTLEN its length, the window is generated if WINOK was 0,
`FRM[0..W)` holds no value, and nothing else but STATUS changes. -/
def Obligations.SynthStoresTheOutput : Prop :=
  ∀ (bank : Bank) (s : State) (spec : List (Cx Word)), configError Config.params (.synth bank) s = false →
    capacityError Config.params (.synth bank) s = false →
    readSpectrum Config.params s (match bank with | .spb => .spb | .spa => .spa) = some spec →
    ∃ t, exec (.synth bank) s = .next t ∧
      t.outlen.toNat = s.nframes.toNat * s.hop.toNat + 2 ^ s.logw.toNat ∧
      (∀ m < s.nframes.toNat * s.hop.toNat + 2 ^ s.logw.toNat,
        scalarAt Config.params t.mem .out m =
          (synthesizeFrames (numB64 .away) s.logw.toNat s.hop.toNat
            (framesOf (2 ^ s.logw.toNat) s.nframes.toNat spec))[m]?) ∧
      (s.status.winok = false → ∀ j < 2 ^ s.logw.toNat,
        scalarAt Config.params t.mem .win j = some (hann (numB64 .away) (2 ^ s.logw.toNat) j)) ∧
      (∀ a, 0x8000 ≤ a → a < 0x8000 + 16 * 2 ^ s.logw.toNat → readByte t.mem a = none) ∧
      bytesKeptOutside
        [(0x2000, if s.status.winok then 0 else 8 * 2 ^ s.logw.toNat), (0x8000, 16 * 2 ^ s.logw.toNat),
          (0x1000000, 8 * (s.nframes.toNat * s.hop.toNat + 2 ^ s.logw.toNat))] s t ∧
      t = { s with
        mem := t.mem
        outlen := t.outlen
        status := { s.status with busy := false, done := true, winok := true } }

/-- 46_pipeline.md R231: RUN that passes its checks, on samples that hold values, completes in the very state that
ANALYZE, VOCODE and SYNTH from SPB, each completing, lead to from the same state. -/
def Obligations.RunIsTheThreeCommands : Prop :=
  ∀ s : State, configError Config.params .run s = false → capacityError Config.params .run s = false →
    operandsHeld Config.params .run s = true →
    ∃ a b t, exec .analyze s = .next a ∧ a.status.done = true ∧ exec .vocode a = .next b ∧ b.status.done = true ∧
      exec (.synth .spb) b = .next t ∧ t.status.err = s.status.err ∧ t.status.done = true ∧
      exec .run s = .next t

/-- 30_encoding.md R106, R107, R108: the line `DO <mnemonic>` writes the command's word to CMD and then reads STATUS
until BUSY = 0. From an idle machine the first step issues the command; then come as many reads that return BUSY = 1 as
the line is given, which change nothing (93_implementation_defined.md U15 leaves their number open; log 2, the model's
choice, makes it an argument of the line); then the engine performs the command; then the read that ends the wait. -/
def Obligations.DoLineRunsTheCommand : Prop :=
  ∀ (i : Instr) (busyReads : Nat) (s : State) (rest : List Event), s.status.busy = false →
    s.script = expandLine Config.params (.perform i busyReads) ++ rest →
    ∃ a b t, step s = .next a ∧ a.status.busy = true ∧ a.cmd = encode i ∧
      Sys2Proof.core.run busyReads a = .next b ∧
      b = { a with
        script := ⟨0, .poll⟩ :: rest
        seen := List.replicate busyReads (statusWord a.status) ++ a.seen } ∧
      step b = exec i b ∧ exec i b = .next t ∧ t.status.busy = false ∧
      step t = .next { t with script := rest, seen := statusWord t.status :: t.seen }

/-! ## Counts and lengths -/

/-- 43_analyzer.md R190: the frame count is the formula of the rule, and is the number of offsets i*H with
i*H + W <= L. -/
def Obligations.FrameCountCountsWindows : Prop :=
  ∀ l w h : Nat, 2 ≤ w → 1 ≤ h →
    (w ≤ l → nframesOf l w h = (l - w) / h + 1) ∧ (l < w → nframesOf l w h = 0) ∧ nframesOf w w h = 1 ∧
    (∀ i, i < nframesOf l w h ↔ i * h + w ≤ l) ∧ nframesOf l w h ≤ l ∧
    signalSpan (nframesOf l w h) w h ≤ l

/-- 46_pipeline.md R235: the length of the output of a whole pipeline. -/
def Obligations.PipelineLengths : Prop :=
  ∀ l w h q s : Nat, 2 ≤ w → 1 ≤ h →
    (w ≤ l → l - w = q * h + s → s < h →
      nframesOf l w h = q + 1 ∧ outputLength (nframesOf l w h) w h = l + (h - s) ∧ 1 ≤ h - s ∧ h - s ≤ h) ∧
    (l < w → outputLength (nframesOf l w h) w h = w ∧ l < w)

/-! ## binary64 -/

/-- 40_numerics.md R126: the constants of `Num_b64` and of `Num_exact`; PI is the binary64 value nearest π, TWO_PI is
exactly twice PI, and PI over TWO_PI is exactly HALF (44_vocoder.md R204). -/
def Obligations.ConstantsAreExact : Prop :=
  zeroOf (numB64 .away) = 0x0000000000000000 ∧ oneOf (numB64 .away) = 0x3FF0000000000000 ∧
    twoOf (numB64 .away) = 0x4000000000000000 ∧ (numB64 .away).half = 0x3FE0000000000000 ∧
    (numB64 .away).pi = 0x400921FB54442D18 ∧ (numB64 .away).twoPi = 0x401921FB54442D18 ∧
    (numB64 .away).twoPi = b64mul (twoOf (numB64 .away)) (numB64 .away).pi ∧
    b64div b64pi (numB64 .away).twoPi = 0x3FE0000000000000 ∧
  NearestTo Real.pi 0x400921FB54442D18 ∧ realOf 0x401921FB54442D18 = 2 * realOf 0x400921FB54442D18 ∧
  (∀ tie : RoundTie, (numExact tie).pi = Real.pi ∧ (numExact tie).twoPi = 2 * Real.pi)

/-- 40_numerics.md R124: fneg flips the sign bit and changes nothing else, for every operand; under `Num_exact` it is
the negative. -/
def Obligations.NegationFlipsTheSignBit : Prop :=
  (∀ (a : Word) (i : Nat), i < 64 → (b64neg a).getLsbD i = (a.getLsbD i ^^ decide (i = 63))) ∧
  (∀ a : Word, isFinite a = true → realOf (b64neg a) = -realOf a) ∧
  (∀ (tie : RoundTie) (x : ℝ), (numExact tie).fneg x = -x) ∧
  (∀ (tie : RoundTie) (a : Word), conj (numB64 tie) ⟨a, 0x0⟩ = ⟨a, 0x8000000000000000⟩)

/-- 40_numerics.md R125: ofInt gives the binary64 value nearest the integer, exactly the integer when its magnitude
is at most 2^53, and ofInt(0) = +0. -/
def Obligations.OfIntIsExact : Prop :=
  (∀ n : Int, RoundsTo n (b64ofInt n)) ∧
  (∀ n : Int, n.natAbs ≤ 2 ^ 53 → isFinite (b64ofInt n) = true ∧ realOf (b64ofInt n) = n) ∧ b64ofInt 0 = 0

/-- 40_numerics.md R122: the sum and the difference of finite operands are correctly rounded: finite and nearest, ties
to even, where the exact result is below the overflow bound, and the infinity of its sign from the bound on. -/
def Obligations.AddAndSubtractRoundToNearest : Prop :=
  ∀ a b : Word, isFinite a = true → isFinite b = true →
    RoundsTo (realOf a + realOf b) (b64add a b) ∧ RoundsTo (realOf a - realOf b) (b64sub a b)

/-- 40_numerics.md R122: the product of finite operands, and their quotient where the divisor is not zero, are correctly
rounded: finite and nearest, ties to even, where the exact result is below the overflow bound, and the infinity of its
sign from the bound on. -/
def Obligations.MultiplyAndDivideRoundToNearest : Prop :=
  ∀ a b : Word, isFinite a = true → isFinite b = true →
    RoundsTo (realOf a * realOf b) (b64mul a b) ∧
    (isZero b = false → RoundsTo (realOf a / realOf b) (b64div a b))

/-- 40_numerics.md R122: the square root of a finite operand that is not negative is finite and correctly rounded. -/
def Obligations.SquareRootRoundsToNearest : Prop :=
  ∀ a : Word, isFinite a = true → signOf a = false →
    isFinite (b64sqrt a) = true ∧ NearestTo (Real.sqrt (realOf a)) (b64sqrt a)

/-- 40_numerics.md R122: overflow gives an infinity: the magnitude rounds to infinity exactly from half a unit in the
last place past the largest finite value on, and so an operation on finite operands (a quotient by zero apart) answers
an infinity exactly when the magnitude of its exact result is at least that. -/
def Obligations.OverflowGivesInfinity : Prop :=
  (∀ n d : Nat, 0 < d → (roundUnits n d = infBits ↔ (2 ^ 54 - 1) * 2 ^ 2044 * d ≤ n)) ∧
  (∀ a b : Word, isFinite a = true → isFinite b = true →
    (isInf (b64add a b) = true ↔ (overflowBound : ℝ) ≤ |realOf a + realOf b|) ∧
    (isInf (b64sub a b) = true ↔ (overflowBound : ℝ) ≤ |realOf a - realOf b|) ∧
    (isInf (b64mul a b) = true ↔ (overflowBound : ℝ) ≤ |realOf a * realOf b|) ∧
    (isZero b = false → (isInf (b64div a b) = true ↔ (overflowBound : ℝ) ≤ |realOf a / realOf b|)))

/-- 40_numerics.md R122: signed zeros, invalid operations and division by zero. -/
def Obligations.SpecialOperandsFollowIeee : Prop :=
  (∀ a, isFinite a = true → b64sub a a = 0x0) ∧ b64add 0x0 0x8000000000000000 = 0x0 ∧
  b64add 0x8000000000000000 0x8000000000000000 = 0x8000000000000000 ∧
  b64sqrt 0x8000000000000000 = 0x8000000000000000 ∧
  (∀ a b, isInf a = true → isInf b = true → signOf a ≠ signOf b → isNaN (b64add a b) = true) ∧
  (∀ a b, isInf a = true → isInf b = true → signOf a = signOf b → isNaN (b64sub a b) = true) ∧
  (∀ a b, isInf a = true → isZero b = true → isNaN (b64mul a b) = true ∧ isNaN (b64mul b a) = true) ∧
  (∀ a b, isZero a = true → isZero b = true → isNaN (b64div a b) = true) ∧
  (∀ a b, isInf a = true → isInf b = true → isNaN (b64div a b) = true) ∧
  (∀ a, isNaN a = false → isZero a = false → signOf a = true → isNaN (b64sqrt a) = true) ∧
  (∀ a b, isFinite a = true → isZero a = false → isZero b = true →
    b64div a b = packWord (signOf a != signOf b) infBits) ∧
  (∀ a b, isNaN a = false → isNaN b = false → isNaN (b64mul a b) = false →
    signOf (b64mul a b) = (signOf a != signOf b)) ∧
  (∀ a b, isNaN a = false → isNaN b = false → isNaN (b64div a b) = false →
    signOf (b64div a b) = (signOf a != signOf b))

/-- 40_numerics.md R132: every operation of R122 to R131 and R140 to R147 returns a NaN in each part that it computes
from a NaN; which NaN is free (log 6). -/
def Obligations.NanPropagates : Prop :=
  (∀ (tie : RoundTie) (a b : Word), isNaN a = true ∨ isNaN b = true →
    isNaN (b64add a b) = true ∧ isNaN (b64sub a b) = true ∧ isNaN (b64mul a b) = true ∧
    isNaN (b64div a b) = true ∧ isNaN (b64atan2 a b) = true ∧
    (isNaN a = true → isNaN (b64neg a) = true ∧ isNaN (b64sqrt a) = true ∧ isNaN (b64cos a) = true ∧
      isNaN (b64sin a) = true ∧ isNaN (b64round tie a) = true) ∧
    isNaN (cabs (numB64 tie) ⟨a, b⟩) = true ∧ isNaN (carg (numB64 tie) ⟨a, b⟩) = true ∧
    isNaN (cpolar (numB64 tie) a b).re = true ∧ isNaN (cpolar (numB64 tie) a b).im = true) ∧
  (∀ (tie : RoundTie) (a b : Cx Word) (n : Nat),
    (isNaN a.re = true ∨ isNaN b.re = true →
      isNaN (cadd (numB64 tie) a b).re = true ∧ isNaN (csub (numB64 tie) a b).re = true) ∧
    (isNaN a.im = true ∨ isNaN b.im = true →
      isNaN (cadd (numB64 tie) a b).im = true ∧ isNaN (csub (numB64 tie) a b).im = true) ∧
    (isNaN a.re = true ∨ isNaN a.im = true ∨ isNaN b.re = true ∨ isNaN b.im = true →
      isNaN (cmul (numB64 tie) a b).re = true ∧ isNaN (cmul (numB64 tie) a b).im = true) ∧
    (isNaN a.re = true → isNaN (conj (numB64 tie) a).re = true ∧ isNaN (cdivN (numB64 tie) a n).re = true) ∧
    (isNaN a.im = true → isNaN (conj (numB64 tie) a).im = true ∧ isNaN (cdivN (numB64 tie) a n).im = true))

/-- 40_numerics.md R127, T1 to T4, whatever the free functions are. -/
def Obligations.CosineAndSineKeepTheirProperties : Prop :=
  b64cos 0x0 = 0x3FF0000000000000 ∧ b64cos 0x8000000000000000 = 0x3FF0000000000000 ∧
  b64sin 0x0 = 0x0 ∧ b64sin 0x8000000000000000 = 0x8000000000000000 ∧
  (∀ x, isFinite x = true →
    isFinite (b64cos x) = true ∧ -1 ≤ realOf (b64cos x) ∧ realOf (b64cos x) ≤ 1 ∧
    isFinite (b64sin x) = true ∧ -1 ≤ realOf (b64sin x) ∧ realOf (b64sin x) ≤ 1) ∧
  (∀ x, isFinite x = true → b64cos (b64neg x) = b64cos x ∧ b64sin (b64neg x) = b64neg (b64sin x)) ∧
  (∀ x, isNaN x = true ∨ isInf x = true → isNaN (b64cos x) = true ∧ isNaN (b64sin x) = true)

/-- 40_numerics.md R128, A1 to A6, whatever the free function is. -/
def Obligations.ArctangentSpecialCases : Prop :=
  (∀ y x, isNaN y = true ∨ isNaN x = true → isNaN (b64atan2 y x) = true) ∧
  (∀ y x, isNaN y = false → isNaN x = false →
    magOf (b64atan2 y x) ≤ magOf b64pi ∧ signOf (b64atan2 y x) = signOf y) ∧
  (∀ y x, isNaN x = false → isZero y = true → signOf x = false → b64atan2 y x = y) ∧
  (∀ y x, isNaN x = false → isZero y = true → signOf x = true →
    b64atan2 y x = packWord (signOf y) 0x400921FB54442D18) ∧
  (∀ y x, isNaN y = false → isZero y = false → isZero x = true →
    b64atan2 y x = packWord (signOf y) 0x3FF921FB54442D18) ∧
  (∀ y x, isFinite y = true → isZero y = false → isInf x = true →
    b64atan2 y x = packWord (signOf y) (if signOf x then 0x400921FB54442D18 else 0)) ∧
  (∀ y x, isInf y = true → isFinite x = true → b64atan2 y x = packWord (signOf y) 0x3FF921FB54442D18) ∧
  (∀ y x, isInf y = true → isInf x = true → signOf x = false →
    b64atan2 y x = packWord (signOf y) 0x3FE921FB54442D18) ∧
  (∀ y x, isInf y = true → isInf x = true → signOf x = true →
    b64atan2 y x =
      packWord (signOf y) (magOf (b64mul (b64ofInt 3) (b64div b64pi (b64ofInt 4)))))

/-- 40_numerics.md R131: `fround` under `Num_b64` is exact and is the rounding of the reals under either tie rule; it
carries the sign over; infinities and zeros return themselves, NaN gives NaN. -/
def Obligations.RoundIsExact : Prop :=
  ∀ (tie : RoundTie) (x : Word),
    (isNaN x = true → isNaN (b64round tie x) = true) ∧
    (isInf x = true ∨ isZero x = true → b64round tie x = x) ∧
    (isFinite x = true →
      isFinite (b64round tie x) = true ∧ signOf (b64round tie x) = signOf x ∧
      realOf (b64round tie x) = exactRound tie (realOf x))

/-- 41_transform.md R160, 10_state.md R42: the twiddle depends on k/N alone, and so the one table TW serves every size:
under Num_b64, for every LOGW_MAX up to 20, `tw(N, k) = TW[k * (W_MAX / N)]` for every power of two N from 2 to W_MAX
and every k below N/2. -/
def Obligations.OneTwiddleTableServesEverySize : Prop :=
  (∀ (tie : RoundTie) (n k : Nat), n < 20 → k < 2 ^ n →
    tw (numB64 tie) (2 ^ (n + 1)) k = tw (numB64 tie) (2 ^ (n + 2)) (2 * k)) ∧
  (∀ (p : Params) (n k : Nat), p.num = numB64 → p.logwMax ≤ 20 → 1 ≤ n → n ≤ p.logwMax → k < 2 ^ (n - 1) →
    (twiddleTable p)[k * (p.wMax / 2 ^ n)]? = some (tw (machineNum p) (2 ^ n) k))

/-! ## The transform, the window, the vocoder over any number system, and over the reals -/

/-- 41_transform.md R162: the iterative decimation-in-time form performs the same butterflies on the same operands as
the recursion, so the two agree in every scalar of every number system. -/
def Obligations.IterativeTransformAgrees : Prop :=
  ∀ (R : Type) (num : Num R) (n : Nat) (x : List (Cx R)), x.length = 2 ^ n →
    iterativeFft num n x = fft num n x

/-- 41_transform.md R167: over the reals, `fft` is the discrete Fourier transform. -/
def Obligations.FftIsTheDiscreteFourierTransform : Prop :=
  ∀ (tie : RoundTie) (n : Nat) (x : List (Cx ℝ)), x.length = 2 ^ n → ∀ k : ℕ, k < 2 ^ n →
    ((fft (numExact tie) n x)[k]?).map toComplex =
      some (∑ j ∈ Finset.range (2 ^ n),
        toComplex (x.getD j ⟨0, 0⟩) *
          Complex.exp (-(2 * Real.pi * Complex.I * ((k : ℕ) : ℂ) * ((j : ℕ) : ℂ) / ((2 ^ n : ℕ) : ℂ))))

/-- 41_transform.md R168: over the reals, `ifft` is the inverse discrete Fourier transform and the inverse of `fft`
on both sides. -/
def Obligations.IfftInvertsFft : Prop :=
  ∀ (tie : RoundTie) (n : Nat) (x : List (Cx ℝ)), x.length = 2 ^ n →
    (∀ j : ℕ, j < 2 ^ n →
      ((ifft (numExact tie) n x)[j]?).map toComplex =
        some (1 / ((2 ^ n : ℕ) : ℂ) * ∑ k ∈ Finset.range (2 ^ n),
          toComplex (x.getD k ⟨0, 0⟩) *
            Complex.exp (2 * Real.pi * Complex.I * ((k : ℕ) : ℂ) * ((j : ℕ) : ℂ) / ((2 ^ n : ℕ) : ℂ)))) ∧
    ifft (numExact tie) n (fft (numExact tie) n x) = x ∧ fft (numExact tie) n (ifft (numExact tie) n x) = x

/-- 44_vocoder.md R202: bins do not interact, in any number system: what bin k emits in a frame, and the bin it
leaves, depend on its own bin and its own value alone. -/
def Obligations.BinsDoNotInteract : Prop :=
  ∀ (R : Type) (num : Num R) (w h : Nat) (r : R) (bs : List (BinPhase R)) (zs : List (Cx R)) (k : Nat),
    (frameEmits num w h r 0 bs zs)[k]? =
      (bs[k]?).bind (fun b => (zs[k]?).map fun z => binEmits num w h r k b z) ∧
    (frameAfter num w h r 0 bs zs)[k]? =
      (bs[k]?).bind (fun b => (zs[k]?).map fun z => binAfter num w h r k b z)

/-- 44_vocoder.md R204: over the reals the unwrap lies in [-π, π], differs by a multiple of 2π, changes nothing inside
(-π, π), and at the ties takes the values that the tie rule gives. -/
def Obligations.UnwrapRangeAndTies : Prop :=
  (∀ (tie : RoundTie) (x : ℝ),
    -Real.pi ≤ unwrap (numExact tie) x ∧ unwrap (numExact tie) x ≤ Real.pi ∧
    (∃ m : ℤ, unwrap (numExact tie) x = x - 2 * Real.pi * m) ∧
    (-Real.pi < x → x < Real.pi → unwrap (numExact tie) x = x)) ∧
  unwrap (numExact .away) Real.pi = -Real.pi ∧ unwrap (numExact .away) (3 * Real.pi) = -Real.pi ∧
  unwrap (numExact .away) (-Real.pi) = Real.pi ∧ unwrap (numExact .away) (-(3 * Real.pi)) = Real.pi ∧
  unwrap (numExact .even) Real.pi = Real.pi ∧ unwrap (numExact .even) (-Real.pi) = -Real.pi ∧
  unwrap (numExact .even) (3 * Real.pi) = -Real.pi ∧ unwrap (numExact .even) (-(3 * Real.pi)) = Real.pi

/-- 44_vocoder.md R207: over the reals, after the values zs of one bin, NEWPH is r times (the bin-centre advance per
hop, once per frame, plus the last phase, less 2π for every turn the unwrapping took out). -/
def Obligations.AccumulatorClosedForm : Prop :=
  ∀ (tie : RoundTie) (w h k : Nat) (r : ℝ) (zs : List (Cx ℝ)), 1 ≤ w → 1 ≤ h →
    (zs.foldl (binAfter (numExact tie) w h r k) (clearedBin (numExact tie))).acc =
      r * (zs.length * (2 * Real.pi * k * h / w) +
        (zs.foldl (binAfter (numExact tie) w h r k) (clearedBin (numExact tie))).last -
        2 * Real.pi *
          (List.zipWith (fun before after => exactRound tie ((after - before) / (2 * Real.pi)))
            (0 :: zs.map (carg (numExact tie))) (zs.map (carg (numExact tie)))).sum)

/-- 44_vocoder.md R201 step 6, R209: over the reals, a bin emits its magnitude turned to the accumulated phase, so the
magnitude is carried through unchanged. -/
def Obligations.MagnitudeIsCarriedThrough : Prop :=
  ∀ (tie : RoundTie) (w h k : Nat) (r : ℝ) (b : BinPhase ℝ) (z : Cx ℝ),
    toComplex (binEmits (numExact tie) w h r k b z) =
      ‖toComplex z‖ * Complex.exp ((binAfter (numExact tie) w h r k b z).acc * Complex.I) ∧
    ‖toComplex (binEmits (numExact tie) w h r k b z)‖ = ‖toComplex z‖

/-- 45_synthesizer.md R225, R220: over the reals, each output sample is the sum of the contributions of the frames
that cover it, and zero where none does. -/
def Obligations.OverlapAddClosedForm : Prop :=
  ∀ (tie : RoundTie) (logw h : Nat) (frames : List (List (Cx ℝ))), (∀ f ∈ frames, f.length = 2 ^ logw) →
    ∀ m < frames.length * h + 2 ^ logw,
      (synthesizeFrames (numExact tie) logw h frames)[m]? =
        some (∑ i ∈ Finset.range frames.length,
          if i * h ≤ m ∧ m < i * h + 2 ^ logw then
            ((ifft (numExact tie) logw (frames.getD i []))[m - i * h]?.getD ⟨0, 0⟩).re *
              hann (numExact tie) (2 ^ logw) (m - i * h)
          else 0)

/-- 45_synthesizer.md R223: over the reals, analysis followed directly by synthesis multiplies each covered sample by
the overlap-add gain, the sum of the squared windows of the frames that cover it; there is no normalising gain. -/
def Obligations.AnalysisThenSynthesisGain : Prop :=
  ∀ (tie : RoundTie) (logw h f : Nat) (sig : List ℝ), 1 ≤ logw → 1 ≤ h → signalSpan f (2 ^ logw) h ≤ sig.length →
    ∀ m < f * h + 2 ^ logw,
      (synthesizeFrames (numExact tie) logw h (analyzeSignal (numExact tie) logw h f sig))[m]? =
        some (sig.getD m 0 *
          ∑ i ∈ Finset.range f,
            if i * h ≤ m ∧ m < i * h + 2 ^ logw then hann (numExact tie) (2 ^ logw) (m - i * h) ^ 2 else 0)

/-- 44_vocoder.md R212 item (c): over the reals, silence in gives silence out for every stretch factor. -/
def Obligations.SilenceStaysSilent : Prop :=
  ∀ (tie : RoundTie) (logw h f l : Nat) (r : ℝ), 1 ≤ logw → 1 ≤ h → signalSpan f (2 ^ logw) h ≤ l →
    synthesizeFrames (numExact tie) logw h
        (vocodeSpectrum (numExact tie) (2 ^ logw) h r
          (analyzeSignal (numExact tie) logw h f (List.replicate l 0))) =
      List.replicate (f * h + 2 ^ logw) 0

/-! ## The PCM boundary, outside the block -/

/-- 20_memory.md R76: a stream sample s, of bytes b0 then b1, becomes the binary64 value nearest s/32767; it is not
clamped. -/
def Obligations.PcmInputIsNearestQuotient : Prop :=
  ∀ b0 b1 : Byte, isFinite (pcmDecode b0 b1) = true ∧
    NearestTo (((b1 ++ b0).toInt : ℝ) / 32767) (pcmDecode b0 b1)

/-- 20_memory.md R77: whatever the output sample x, unless it is a NaN, the 16-bit sample lies in -32767..32767; an x of
1 or more gives 32767 and one of -1 or less gives -32767; and for a magnitude up to 1 it is the product with 32767, its
fraction dropped: rounded toward zero. -/
def Obligations.PcmOutputIsClamped : Prop :=
  ∀ x : Word, isNaN x = false →
    -32767 ≤ (pcmSample x).toInt ∧ (pcmSample x).toInt ≤ 32767 ∧
    (magOf b64one ≤ magOf x → (pcmSample x).toInt = if signOf x then -32767 else 32767) ∧
    (magOf x ≤ magOf b64one →
      isFinite (b64mul x (b64ofInt 32767)) = true ∧
      (0 ≤ realOf (b64mul x (b64ofInt 32767)) →
        (pcmSample x).toInt = ⌊realOf (b64mul x (b64ofInt 32767))⌋) ∧
      (realOf (b64mul x (b64ofInt 32767)) ≤ 0 →
        (pcmSample x).toInt = ⌈realOf (b64mul x (b64ofInt 32767))⌉))
end

