-- ==== Sys2Proof/Laws/State.lean ====
section
/-! SUPPORT. One lemma per field per update of the state, each true by rfl, so that no proof unfolds a record
update; and the same for the flag updates of STATUS. -/

namespace Sys2Proof.Machine

@[simp] theorem issueFlags_busy (t : Status) : (issueFlags t).busy = true := rfl
@[simp] theorem issueFlags_done (t : Status) : (issueFlags t).done = false := rfl
@[simp] theorem issueFlags_err (t : Status) : (issueFlags t).err = false := rfl
@[simp] theorem issueFlags_winok (t : Status) : (issueFlags t).winok = t.winok := rfl
@[simp] theorem issueFlags_accerr (t : Status) : (issueFlags t).accerr = t.accerr := rfl
@[simp] theorem issueFlags_errcode (t : Status) : (issueFlags t).errcode = 0 := rfl

@[simp] theorem completeFlags_busy (t : Status) : (completeFlags t).busy = false := rfl
@[simp] theorem completeFlags_done (t : Status) : (completeFlags t).done = true := rfl
@[simp] theorem completeFlags_err (t : Status) : (completeFlags t).err = t.err := rfl
@[simp] theorem completeFlags_winok (t : Status) : (completeFlags t).winok = t.winok := rfl
@[simp] theorem completeFlags_accerr (t : Status) : (completeFlags t).accerr = t.accerr := rfl
@[simp] theorem completeFlags_errcode (t : Status) : (completeFlags t).errcode = t.errcode := rfl

@[simp] theorem refuseFlags_busy (e : CmdError) (t : Status) : (refuseFlags e t).busy = false := rfl
@[simp] theorem refuseFlags_done (e : CmdError) (t : Status) : (refuseFlags e t).done = false := rfl
@[simp] theorem refuseFlags_err (e : CmdError) (t : Status) : (refuseFlags e t).err = true := rfl
@[simp] theorem refuseFlags_winok (e : CmdError) (t : Status) : (refuseFlags e t).winok = t.winok := rfl
@[simp] theorem refuseFlags_accerr (e : CmdError) (t : Status) : (refuseFlags e t).accerr = t.accerr := rfl
@[simp] theorem refuseFlags_errcode (e : CmdError) (t : Status) : (refuseFlags e t).errcode = errorCode e := rfl

@[simp] theorem setWinok_busy (b : Bool) (t : Status) : (setWinok b t).busy = t.busy := rfl
@[simp] theorem setWinok_done (b : Bool) (t : Status) : (setWinok b t).done = t.done := rfl
@[simp] theorem setWinok_err (b : Bool) (t : Status) : (setWinok b t).err = t.err := rfl
@[simp] theorem setWinok_winok (b : Bool) (t : Status) : (setWinok b t).winok = b := rfl
@[simp] theorem setWinok_accerr (b : Bool) (t : Status) : (setWinok b t).accerr = t.accerr := rfl
@[simp] theorem setWinok_errcode (b : Bool) (t : Status) : (setWinok b t).errcode = t.errcode := rfl

@[simp] theorem raiseAccerr_busy (t : Status) : (raiseAccerr t).busy = t.busy := rfl
@[simp] theorem raiseAccerr_done (t : Status) : (raiseAccerr t).done = t.done := rfl
@[simp] theorem raiseAccerr_err (t : Status) : (raiseAccerr t).err = t.err := rfl
@[simp] theorem raiseAccerr_winok (t : Status) : (raiseAccerr t).winok = t.winok := rfl
@[simp] theorem raiseAccerr_accerr (t : Status) : (raiseAccerr t).accerr = true := rfl
@[simp] theorem raiseAccerr_errcode (t : Status) : (raiseAccerr t).errcode = t.errcode := rfl

@[simp] theorem issue_cmd (v : Word) (s : State) : (issue v s).cmd = v := rfl
@[simp] theorem issue_status (v : Word) (s : State) : (issue v s).status = issueFlags s.status := rfl
@[simp] theorem issue_logw (v : Word) (s : State) : (issue v s).logw = s.logw := rfl
@[simp] theorem issue_hop (v : Word) (s : State) : (issue v s).hop = s.hop := rfl
@[simp] theorem issue_stretch (v : Word) (s : State) : (issue v s).stretch = s.stretch := rfl
@[simp] theorem issue_siglen (v : Word) (s : State) : (issue v s).siglen = s.siglen := rfl
@[simp] theorem issue_nframes (v : Word) (s : State) : (issue v s).nframes = s.nframes := rfl
@[simp] theorem issue_outlen (v : Word) (s : State) : (issue v s).outlen = s.outlen := rfl
@[simp] theorem issue_mem (v : Word) (s : State) : (issue v s).mem = s.mem := rfl
@[simp] theorem issue_tick (v : Word) (s : State) : (issue v s).tick = s.tick := rfl
@[simp] theorem issue_script (v : Word) (s : State) : (issue v s).script = s.script := rfl
@[simp] theorem issue_seen (v : Word) (s : State) : (issue v s).seen = s.seen := rfl

@[simp] theorem complete_cmd (s : State) : (complete s).cmd = s.cmd := rfl
@[simp] theorem complete_status (s : State) : (complete s).status = completeFlags s.status := rfl
@[simp] theorem complete_logw (s : State) : (complete s).logw = s.logw := rfl
@[simp] theorem complete_hop (s : State) : (complete s).hop = s.hop := rfl
@[simp] theorem complete_stretch (s : State) : (complete s).stretch = s.stretch := rfl
@[simp] theorem complete_siglen (s : State) : (complete s).siglen = s.siglen := rfl
@[simp] theorem complete_nframes (s : State) : (complete s).nframes = s.nframes := rfl
@[simp] theorem complete_outlen (s : State) : (complete s).outlen = s.outlen := rfl
@[simp] theorem complete_mem (s : State) : (complete s).mem = s.mem := rfl
@[simp] theorem complete_tick (s : State) : (complete s).tick = s.tick := rfl
@[simp] theorem complete_script (s : State) : (complete s).script = s.script := rfl
@[simp] theorem complete_seen (s : State) : (complete s).seen = s.seen := rfl

@[simp] theorem raiseCmdError_cmd (e : CmdError) (s : State) : (raiseCmdError e s).cmd = s.cmd := rfl
@[simp] theorem raiseCmdError_status (e : CmdError) (s : State) :
    (raiseCmdError e s).status = refuseFlags e s.status := rfl
@[simp] theorem raiseCmdError_logw (e : CmdError) (s : State) : (raiseCmdError e s).logw = s.logw := rfl
@[simp] theorem raiseCmdError_hop (e : CmdError) (s : State) : (raiseCmdError e s).hop = s.hop := rfl
@[simp] theorem raiseCmdError_stretch (e : CmdError) (s : State) : (raiseCmdError e s).stretch = s.stretch := rfl
@[simp] theorem raiseCmdError_siglen (e : CmdError) (s : State) : (raiseCmdError e s).siglen = s.siglen := rfl
@[simp] theorem raiseCmdError_nframes (e : CmdError) (s : State) : (raiseCmdError e s).nframes = s.nframes := rfl
@[simp] theorem raiseCmdError_outlen (e : CmdError) (s : State) : (raiseCmdError e s).outlen = s.outlen := rfl
@[simp] theorem raiseCmdError_mem (e : CmdError) (s : State) : (raiseCmdError e s).mem = s.mem := rfl
@[simp] theorem raiseCmdError_tick (e : CmdError) (s : State) : (raiseCmdError e s).tick = s.tick := rfl
@[simp] theorem raiseCmdError_script (e : CmdError) (s : State) : (raiseCmdError e s).script = s.script := rfl
@[simp] theorem raiseCmdError_seen (e : CmdError) (s : State) : (raiseCmdError e s).seen = s.seen := rfl

@[simp] theorem raiseAccErr_cmd (s : State) : (raiseAccErr s).cmd = s.cmd := rfl
@[simp] theorem raiseAccErr_status (s : State) : (raiseAccErr s).status = raiseAccerr s.status := rfl
@[simp] theorem raiseAccErr_logw (s : State) : (raiseAccErr s).logw = s.logw := rfl
@[simp] theorem raiseAccErr_hop (s : State) : (raiseAccErr s).hop = s.hop := rfl
@[simp] theorem raiseAccErr_stretch (s : State) : (raiseAccErr s).stretch = s.stretch := rfl
@[simp] theorem raiseAccErr_siglen (s : State) : (raiseAccErr s).siglen = s.siglen := rfl
@[simp] theorem raiseAccErr_nframes (s : State) : (raiseAccErr s).nframes = s.nframes := rfl
@[simp] theorem raiseAccErr_outlen (s : State) : (raiseAccErr s).outlen = s.outlen := rfl
@[simp] theorem raiseAccErr_mem (s : State) : (raiseAccErr s).mem = s.mem := rfl
@[simp] theorem raiseAccErr_tick (s : State) : (raiseAccErr s).tick = s.tick := rfl
@[simp] theorem raiseAccErr_script (s : State) : (raiseAccErr s).script = s.script := rfl
@[simp] theorem raiseAccErr_seen (s : State) : (raiseAccErr s).seen = s.seen := rfl

@[simp] theorem returnWord_cmd (w : Word) (s : State) : (returnWord w s).cmd = s.cmd := rfl
@[simp] theorem returnWord_status (w : Word) (s : State) : (returnWord w s).status = s.status := rfl
@[simp] theorem returnWord_logw (w : Word) (s : State) : (returnWord w s).logw = s.logw := rfl
@[simp] theorem returnWord_hop (w : Word) (s : State) : (returnWord w s).hop = s.hop := rfl
@[simp] theorem returnWord_stretch (w : Word) (s : State) : (returnWord w s).stretch = s.stretch := rfl
@[simp] theorem returnWord_siglen (w : Word) (s : State) : (returnWord w s).siglen = s.siglen := rfl
@[simp] theorem returnWord_nframes (w : Word) (s : State) : (returnWord w s).nframes = s.nframes := rfl
@[simp] theorem returnWord_outlen (w : Word) (s : State) : (returnWord w s).outlen = s.outlen := rfl
@[simp] theorem returnWord_mem (w : Word) (s : State) : (returnWord w s).mem = s.mem := rfl
@[simp] theorem returnWord_tick (w : Word) (s : State) : (returnWord w s).tick = s.tick := rfl
@[simp] theorem returnWord_script (w : Word) (s : State) : (returnWord w s).script = s.script := rfl
@[simp] theorem returnWord_seen (w : Word) (s : State) : (returnWord w s).seen = w :: s.seen := rfl

@[simp] theorem returnUnspecified_cmd (a : Nat) (s : State) : (returnUnspecified a s).cmd = s.cmd := rfl
@[simp] theorem returnUnspecified_status (a : Nat) (s : State) : (returnUnspecified a s).status = s.status := rfl
@[simp] theorem returnUnspecified_logw (a : Nat) (s : State) : (returnUnspecified a s).logw = s.logw := rfl
@[simp] theorem returnUnspecified_hop (a : Nat) (s : State) : (returnUnspecified a s).hop = s.hop := rfl
@[simp] theorem returnUnspecified_stretch (a : Nat) (s : State) : (returnUnspecified a s).stretch = s.stretch := rfl
@[simp] theorem returnUnspecified_siglen (a : Nat) (s : State) : (returnUnspecified a s).siglen = s.siglen := rfl
@[simp] theorem returnUnspecified_nframes (a : Nat) (s : State) : (returnUnspecified a s).nframes = s.nframes := rfl
@[simp] theorem returnUnspecified_outlen (a : Nat) (s : State) : (returnUnspecified a s).outlen = s.outlen := rfl
@[simp] theorem returnUnspecified_mem (a : Nat) (s : State) : (returnUnspecified a s).mem = s.mem := rfl
@[simp] theorem returnUnspecified_tick (a : Nat) (s : State) : (returnUnspecified a s).tick = s.tick + 1 := rfl
@[simp] theorem returnUnspecified_script (a : Nat) (s : State) : (returnUnspecified a s).script = s.script := rfl
@[simp] theorem returnUnspecified_seen (a : Nat) (s : State) :
    (returnUnspecified a s).seen = Config.unspecified s.tick a :: s.seen := rfl

@[simp] theorem generateWindow_cmd (p : Params) (s : State) : (generateWindow p s).cmd = s.cmd := rfl
@[simp] theorem generateWindow_status (p : Params) (s : State) :
    (generateWindow p s).status = setWinok true s.status := rfl
@[simp] theorem generateWindow_logw (p : Params) (s : State) : (generateWindow p s).logw = s.logw := rfl
@[simp] theorem generateWindow_hop (p : Params) (s : State) : (generateWindow p s).hop = s.hop := rfl
@[simp] theorem generateWindow_stretch (p : Params) (s : State) : (generateWindow p s).stretch = s.stretch := rfl
@[simp] theorem generateWindow_siglen (p : Params) (s : State) : (generateWindow p s).siglen = s.siglen := rfl
@[simp] theorem generateWindow_nframes (p : Params) (s : State) : (generateWindow p s).nframes = s.nframes := rfl
@[simp] theorem generateWindow_outlen (p : Params) (s : State) : (generateWindow p s).outlen = s.outlen := rfl
@[simp] theorem generateWindow_mem (p : Params) (s : State) :
    (generateWindow p s).mem = writeScalars p s.mem .win 0 (hannWindow (machineNum p) (windowSize s)) := rfl
@[simp] theorem generateWindow_tick (p : Params) (s : State) : (generateWindow p s).tick = s.tick := rfl
@[simp] theorem generateWindow_script (p : Params) (s : State) : (generateWindow p s).script = s.script := rfl
@[simp] theorem generateWindow_seen (p : Params) (s : State) : (generateWindow p s).seen = s.seen := rfl

@[simp] theorem dropFrame_cmd (p : Params) (s : State) : (dropFrame p s).cmd = s.cmd := rfl
@[simp] theorem dropFrame_status (p : Params) (s : State) : (dropFrame p s).status = s.status := rfl
@[simp] theorem dropFrame_logw (p : Params) (s : State) : (dropFrame p s).logw = s.logw := rfl
@[simp] theorem dropFrame_hop (p : Params) (s : State) : (dropFrame p s).hop = s.hop := rfl
@[simp] theorem dropFrame_stretch (p : Params) (s : State) : (dropFrame p s).stretch = s.stretch := rfl
@[simp] theorem dropFrame_siglen (p : Params) (s : State) : (dropFrame p s).siglen = s.siglen := rfl
@[simp] theorem dropFrame_nframes (p : Params) (s : State) : (dropFrame p s).nframes = s.nframes := rfl
@[simp] theorem dropFrame_outlen (p : Params) (s : State) : (dropFrame p s).outlen = s.outlen := rfl
@[simp] theorem dropFrame_mem (p : Params) (s : State) :
    (dropFrame p s).mem = eraseBytes s.mem (elementAddr p .frm 0) (16 * windowSize s) := rfl
@[simp] theorem dropFrame_tick (p : Params) (s : State) : (dropFrame p s).tick = s.tick := rfl
@[simp] theorem dropFrame_script (p : Params) (s : State) : (dropFrame p s).script = s.script := rfl
@[simp] theorem dropFrame_seen (p : Params) (s : State) : (dropFrame p s).seen = s.seen := rfl

@[simp] theorem storeAnalysis_cmd (p : Params) (x : List Word) (s : State) : (storeAnalysis p x s).cmd = s.cmd := rfl
@[simp] theorem storeAnalysis_status (p : Params) (x : List Word) (s : State) :
    (storeAnalysis p x s).status = s.status := rfl
@[simp] theorem storeAnalysis_logw (p : Params) (x : List Word) (s : State) :
    (storeAnalysis p x s).logw = s.logw := rfl
@[simp] theorem storeAnalysis_hop (p : Params) (x : List Word) (s : State) : (storeAnalysis p x s).hop = s.hop := rfl
@[simp] theorem storeAnalysis_stretch (p : Params) (x : List Word) (s : State) :
    (storeAnalysis p x s).stretch = s.stretch := rfl
@[simp] theorem storeAnalysis_siglen (p : Params) (x : List Word) (s : State) :
    (storeAnalysis p x s).siglen = s.siglen := rfl
@[simp] theorem storeAnalysis_nframes (p : Params) (x : List Word) (s : State) :
    (storeAnalysis p x s).nframes = BitVec.ofNat 32 (analysisFrames s) := rfl
@[simp] theorem storeAnalysis_outlen (p : Params) (x : List Word) (s : State) :
    (storeAnalysis p x s).outlen = s.outlen := rfl
@[simp] theorem storeAnalysis_tick (p : Params) (x : List Word) (s : State) :
    (storeAnalysis p x s).tick = s.tick := rfl
@[simp] theorem storeAnalysis_script (p : Params) (x : List Word) (s : State) :
    (storeAnalysis p x s).script = s.script := rfl
@[simp] theorem storeAnalysis_seen (p : Params) (x : List Word) (s : State) :
    (storeAnalysis p x s).seen = s.seen := rfl

@[simp] theorem scrambleAnalysis_cmd (p : Params) (s : State) : (scrambleAnalysis p s).cmd = s.cmd := rfl
@[simp] theorem scrambleAnalysis_status (p : Params) (s : State) : (scrambleAnalysis p s).status = s.status := rfl
@[simp] theorem scrambleAnalysis_logw (p : Params) (s : State) : (scrambleAnalysis p s).logw = s.logw := rfl
@[simp] theorem scrambleAnalysis_hop (p : Params) (s : State) : (scrambleAnalysis p s).hop = s.hop := rfl
@[simp] theorem scrambleAnalysis_stretch (p : Params) (s : State) : (scrambleAnalysis p s).stretch = s.stretch := rfl
@[simp] theorem scrambleAnalysis_siglen (p : Params) (s : State) : (scrambleAnalysis p s).siglen = s.siglen := rfl
@[simp] theorem scrambleAnalysis_nframes (p : Params) (s : State) :
    (scrambleAnalysis p s).nframes = freeLength p s.tick .nframes := rfl
@[simp] theorem scrambleAnalysis_outlen (p : Params) (s : State) : (scrambleAnalysis p s).outlen = s.outlen := rfl
@[simp] theorem scrambleAnalysis_tick (p : Params) (s : State) : (scrambleAnalysis p s).tick = s.tick + 1 := rfl
@[simp] theorem scrambleAnalysis_script (p : Params) (s : State) : (scrambleAnalysis p s).script = s.script := rfl
@[simp] theorem scrambleAnalysis_seen (p : Params) (s : State) : (scrambleAnalysis p s).seen = s.seen := rfl

@[simp] theorem storeVocoded_cmd (p : Params) (x : List (Cx Word)) (s : State) :
    (storeVocoded p x s).cmd = s.cmd := rfl
@[simp] theorem storeVocoded_status (p : Params) (x : List (Cx Word)) (s : State) :
    (storeVocoded p x s).status = s.status := rfl
@[simp] theorem storeVocoded_logw (p : Params) (x : List (Cx Word)) (s : State) :
    (storeVocoded p x s).logw = s.logw := rfl
@[simp] theorem storeVocoded_hop (p : Params) (x : List (Cx Word)) (s : State) :
    (storeVocoded p x s).hop = s.hop := rfl
@[simp] theorem storeVocoded_stretch (p : Params) (x : List (Cx Word)) (s : State) :
    (storeVocoded p x s).stretch = s.stretch := rfl
@[simp] theorem storeVocoded_siglen (p : Params) (x : List (Cx Word)) (s : State) :
    (storeVocoded p x s).siglen = s.siglen := rfl
@[simp] theorem storeVocoded_nframes (p : Params) (x : List (Cx Word)) (s : State) :
    (storeVocoded p x s).nframes = s.nframes := rfl
@[simp] theorem storeVocoded_outlen (p : Params) (x : List (Cx Word)) (s : State) :
    (storeVocoded p x s).outlen = s.outlen := rfl
@[simp] theorem storeVocoded_tick (p : Params) (x : List (Cx Word)) (s : State) :
    (storeVocoded p x s).tick = s.tick := rfl
@[simp] theorem storeVocoded_script (p : Params) (x : List (Cx Word)) (s : State) :
    (storeVocoded p x s).script = s.script := rfl
@[simp] theorem storeVocoded_seen (p : Params) (x : List (Cx Word)) (s : State) :
    (storeVocoded p x s).seen = s.seen := rfl

@[simp] theorem storeSynthesis_cmd (p : Params) (x : List (Cx Word)) (s : State) :
    (storeSynthesis p x s).cmd = s.cmd := rfl
@[simp] theorem storeSynthesis_status (p : Params) (x : List (Cx Word)) (s : State) :
    (storeSynthesis p x s).status = s.status := rfl
@[simp] theorem storeSynthesis_logw (p : Params) (x : List (Cx Word)) (s : State) :
    (storeSynthesis p x s).logw = s.logw := rfl
@[simp] theorem storeSynthesis_hop (p : Params) (x : List (Cx Word)) (s : State) :
    (storeSynthesis p x s).hop = s.hop := rfl
@[simp] theorem storeSynthesis_stretch (p : Params) (x : List (Cx Word)) (s : State) :
    (storeSynthesis p x s).stretch = s.stretch := rfl
@[simp] theorem storeSynthesis_siglen (p : Params) (x : List (Cx Word)) (s : State) :
    (storeSynthesis p x s).siglen = s.siglen := rfl
@[simp] theorem storeSynthesis_nframes (p : Params) (x : List (Cx Word)) (s : State) :
    (storeSynthesis p x s).nframes = s.nframes := rfl
@[simp] theorem storeSynthesis_outlen (p : Params) (x : List (Cx Word)) (s : State) :
    (storeSynthesis p x s).outlen = BitVec.ofNat 32 (outputLength (frameCount s) (windowSize s) (hopSize s)) := rfl
@[simp] theorem storeSynthesis_tick (p : Params) (x : List (Cx Word)) (s : State) :
    (storeSynthesis p x s).tick = s.tick := rfl
@[simp] theorem storeSynthesis_script (p : Params) (x : List (Cx Word)) (s : State) :
    (storeSynthesis p x s).script = s.script := rfl
@[simp] theorem storeSynthesis_seen (p : Params) (x : List (Cx Word)) (s : State) :
    (storeSynthesis p x s).seen = s.seen := rfl

@[simp] theorem scrambleSynthesis_cmd (p : Params) (s : State) : (scrambleSynthesis p s).cmd = s.cmd := rfl
@[simp] theorem scrambleSynthesis_status (p : Params) (s : State) : (scrambleSynthesis p s).status = s.status := rfl
@[simp] theorem scrambleSynthesis_logw (p : Params) (s : State) : (scrambleSynthesis p s).logw = s.logw := rfl
@[simp] theorem scrambleSynthesis_hop (p : Params) (s : State) : (scrambleSynthesis p s).hop = s.hop := rfl
@[simp] theorem scrambleSynthesis_stretch (p : Params) (s : State) :
    (scrambleSynthesis p s).stretch = s.stretch := rfl
@[simp] theorem scrambleSynthesis_siglen (p : Params) (s : State) : (scrambleSynthesis p s).siglen = s.siglen := rfl
@[simp] theorem scrambleSynthesis_nframes (p : Params) (s : State) :
    (scrambleSynthesis p s).nframes = s.nframes := rfl
@[simp] theorem scrambleSynthesis_outlen (p : Params) (s : State) :
    (scrambleSynthesis p s).outlen = freeLength p s.tick .outlen := rfl
@[simp] theorem scrambleSynthesis_mem (p : Params) (s : State) :
    (scrambleSynthesis p s).mem = scrambleOutput p (frameCount s) s := rfl
@[simp] theorem scrambleSynthesis_tick (p : Params) (s : State) : (scrambleSynthesis p s).tick = s.tick + 1 := rfl
@[simp] theorem scrambleSynthesis_script (p : Params) (s : State) : (scrambleSynthesis p s).script = s.script := rfl
@[simp] theorem scrambleSynthesis_seen (p : Params) (s : State) : (scrambleSynthesis p s).seen = s.seen := rfl

@[simp] theorem scrambleRun_cmd (p : Params) (s : State) : (scrambleRun p s).cmd = s.cmd := rfl
@[simp] theorem scrambleRun_status (p : Params) (s : State) : (scrambleRun p s).status = s.status := rfl
@[simp] theorem scrambleRun_logw (p : Params) (s : State) : (scrambleRun p s).logw = s.logw := rfl
@[simp] theorem scrambleRun_hop (p : Params) (s : State) : (scrambleRun p s).hop = s.hop := rfl
@[simp] theorem scrambleRun_stretch (p : Params) (s : State) : (scrambleRun p s).stretch = s.stretch := rfl
@[simp] theorem scrambleRun_siglen (p : Params) (s : State) : (scrambleRun p s).siglen = s.siglen := rfl
@[simp] theorem scrambleRun_nframes (p : Params) (s : State) :
    (scrambleRun p s).nframes = freeLength p s.tick .nframes := rfl
@[simp] theorem scrambleRun_outlen (p : Params) (s : State) :
    (scrambleRun p s).outlen = freeLength p s.tick .outlen := rfl
@[simp] theorem scrambleRun_tick (p : Params) (s : State) : (scrambleRun p s).tick = s.tick + 1 := rfl
@[simp] theorem scrambleRun_script (p : Params) (s : State) : (scrambleRun p s).script = s.script := rfl
@[simp] theorem scrambleRun_seen (p : Params) (s : State) : (scrambleRun p s).seen = s.seen := rfl

@[simp] theorem writeReg_cmd (s : State) (v : Word) : writeReg s v .cmd = issue v s := rfl
@[simp] theorem writeReg_status (s : State) (v : Word) : writeReg s v .status = s := rfl
@[simp] theorem writeReg_outlen (s : State) (v : Word) : writeReg s v .outlen = s := rfl
@[simp] theorem writeReg_hop (s : State) (v : Word) : writeReg s v .hop = { s with hop := v.setWidth 32 } := rfl
@[simp] theorem writeReg_stretch (s : State) (v : Word) : writeReg s v .stretch = { s with stretch := v } := rfl
@[simp] theorem writeReg_siglen (s : State) (v : Word) :
    writeReg s v .siglen = { s with siglen := v.setWidth 32 } := rfl
@[simp] theorem writeReg_nframes (s : State) (v : Word) :
    writeReg s v .nframes = { s with nframes := v.setWidth 32 } := rfl
@[simp] theorem writeReg_logw (s : State) (v : Word) :
    writeReg s v .logw = { s with logw := v.setWidth 5, status := setWinok false s.status } := rfl

@[simp] theorem resetEvent_tick (s : State) : (resetEvent s).tick = s.tick := rfl
@[simp] theorem resetEvent_script (s : State) : (resetEvent s).script = s.script := rfl
@[simp] theorem resetEvent_seen (s : State) : (resetEvent s).seen = s.seen := rfl
@[simp] theorem resetEvent_mem (s : State) : (resetEvent s).mem = [] := rfl
@[simp] theorem resetEvent_status (s : State) : (resetEvent s).status = Status.reset := rfl

/-- The sizes a command works with depend on the operand registers alone. -/
theorem sizes_eq_of_registers {s t : State} (hl : t.logw = s.logw) (hh : t.hop = s.hop)
    (hn : t.nframes = s.nframes) (hs : t.siglen = s.siglen) :
    windowSize t = windowSize s ∧ hopSize t = hopSize s ∧ frameCount t = frameCount s ∧
      analysisFrames t = analysisFrames s := by
  simp [windowSize, logwOf, hopSize, frameCount, analysisFrames, signalLength, hl, hh, hn, hs]

/-- `ensureWindow` changes `mem` and STATUS only, and sets WINOK (42_window.md R182). -/
theorem ensureWindow_spec (p : Params) (s : State) :
    (ensureWindow p s).status = setWinok true s.status ∧
    ensureWindow p s = { s with mem := (ensureWindow p s).mem, status := (ensureWindow p s).status } := by
  unfold ensureWindow
  split
  · rename_i h
    refine ⟨?_, rfl⟩
    cases hs : s.status
    simp_all [setWinok]
  · exact ⟨rfl, rfl⟩

/-- The free form of it changes `mem` and STATUS.WINOK only (10_state.md R43, R47). -/
theorem ensureWindowFreely_spec (p : Params) (s : State) :
    (∃ b, (ensureWindowFreely p s).status = setWinok b s.status) ∧
    ensureWindowFreely p s =
      { s with mem := (ensureWindowFreely p s).mem, status := (ensureWindowFreely p s).status } := by
  unfold ensureWindowFreely
  split
  · exact ⟨⟨s.status.winok, by cases s.status; rfl⟩, rfl⟩
  · split
    · exact ⟨⟨true, rfl⟩, rfl⟩
    · exact ⟨⟨s.status.winok, by cases s.status; rfl⟩, rfl⟩

/-- A perform step does one of three things, CFG before CAP before the body (60_exceptions.md R244 to R246). -/
theorem perform_cases (cfg cap : Bool) (body : State → State) (s : State) :
    (cfg = true ∧ perform cfg cap body s = .next (raiseCmdError .cfg s)) ∨
    (cfg = false ∧ cap = true ∧ perform cfg cap body s = .next (raiseCmdError .cap s)) ∨
    (cfg = false ∧ cap = false ∧ perform cfg cap body s = .next (complete (body s))) := by
  cases cfg <;> cases cap <;> simp [perform]

end Sys2Proof.Machine
end

