-- ==== Sys2Proof/Laws/Memory.lean ====
section
/-! SUPPORT. The laws of memory: every operation keeps the canonical form; a read after a write; a write leaves
every other byte alone; and what these say of words and ranges of words. -/

namespace Sys2Proof.Machine

/-! ## The canonical form -/

theorem cellsBelow_wf {m : Memory} (h : m.wf) (a : Nat) : (cellsBelow m a).wf := List.Pairwise.filter _ h

theorem cellsAbove_wf {m : Memory} (h : m.wf) (a : Nat) : (cellsAbove m a).wf := List.Pairwise.filter _ h

theorem mem_cellsBelow {m : Memory} {a : Nat} {c : Host.Cell} : c ∈ cellsBelow m a ↔ c ∈ m ∧ c.1 < a := by
  simp [cellsBelow, List.mem_filter]

theorem mem_cellsAbove {m : Memory} {a : Nat} {c : Host.Cell} : c ∈ cellsAbove m a ↔ c ∈ m ∧ a ≤ c.1 := by
  simp [cellsAbove, List.mem_filter]

theorem mem_cellsFrom_bounds {a : Nat} {bs : List Byte} {c : Host.Cell} (h : c ∈ cellsFrom a bs) :
    a ≤ c.1 ∧ c.1 < a + bs.length := by
  induction bs generalizing a with
  | nil => simp [cellsFrom] at h
  | cons b bs ih =>
    rcases List.mem_cons.mp h with rfl | h
    · simp
    · have := ih h
      simp only [List.length_cons]
      omega

theorem cellsFrom_wf (a : Nat) (bs : List Byte) : (cellsFrom a bs : Memory).wf := by
  induction bs generalizing a with
  | nil => exact List.Pairwise.nil
  | cons b bs ih =>
    refine List.Pairwise.cons (fun c hc => ?_) (ih _)
    have := mem_cellsFrom_bounds hc
    show a < c.1
    omega

/-- A write keeps the canonical form. -/
theorem writeBytes_wf {m : Memory} (h : m.wf) (a : Nat) (bs : List Byte) : (writeBytes m a bs).wf := by
  refine List.pairwise_append.mpr ⟨List.pairwise_append.mpr ⟨cellsBelow_wf h a, cellsFrom_wf a bs, ?_⟩,
    cellsAbove_wf h _, ?_⟩
  · intro x hx y hy
    have := (mem_cellsBelow.mp hx).2
    have := (mem_cellsFrom_bounds hy).1
    omega
  · intro x hx y hy
    have hy' := (mem_cellsAbove.mp hy).2
    rcases List.mem_append.mp hx with hx | hx
    · have := (mem_cellsBelow.mp hx).2
      omega
    · have := (mem_cellsFrom_bounds hx).2
      omega

/-- Erasing keeps the canonical form. -/
theorem eraseBytes_wf {m : Memory} (h : m.wf) (a n : Nat) : (eraseBytes m a n).wf := by
  refine List.pairwise_append.mpr ⟨cellsBelow_wf h a, cellsAbove_wf h _, ?_⟩
  intro x hx y hy
  have := (mem_cellsBelow.mp hx).2
  have := (mem_cellsAbove.mp hy).2
  omega

theorem writeWords_wf {m : Memory} (h : m.wf) (a : Nat) (ws : List Word) : (writeWords m a ws).wf :=
  writeBytes_wf h a _

theorem scramble_wf {m : Memory} (h : m.wf) (t a n : Nat) : (scramble t m a n).wf := writeWords_wf h a _

theorem writeScalars_wf {m : Memory} (h : m.wf) (p : Params) (g : Region) (i : Nat) (xs : List Word) :
    (writeScalars p m g i xs).wf := writeWords_wf h _ _

theorem writeComplex_wf {m : Memory} (h : m.wf) (p : Params) (g : Region) (i : Nat) (zs : List (Cx Word)) :
    (writeComplex p m g i zs).wf := writeWords_wf h _ _

/-- Reset memory has the canonical form. -/
theorem reset_mem_wf : Memory.wf State.reset.mem := List.Pairwise.nil

/-! ## Bytes -/

theorem readByte_append (m n : Memory) (a : Nat) : readByte (m ++ n) a = (readByte m a).or (readByte n a) := by
  induction m with
  | nil => simp [readByte]
  | cons c m ih => by_cases h : c.1 = a <;> simp [readByte, h, ih]

theorem readByte_cellsBelow (m : Memory) (b a : Nat) :
    readByte (cellsBelow m b) a = if a < b then readByte m a else none := by
  induction m with
  | nil => simp [cellsBelow, readByte]
  | cons c m ih =>
    unfold cellsBelow at ih ⊢
    by_cases h' : c.1 = a
    · subst h'
      by_cases h : c.1 < b <;> simp [readByte, h, ih]
    · by_cases h : c.1 < b <;> simp [readByte, h, h', ih]

theorem readByte_cellsAbove (m : Memory) (b a : Nat) :
    readByte (cellsAbove m b) a = if b ≤ a then readByte m a else none := by
  induction m with
  | nil => simp [cellsAbove, readByte]
  | cons c m ih =>
    unfold cellsAbove at ih ⊢
    by_cases h' : c.1 = a
    · subst h'
      by_cases h : b ≤ c.1 <;> simp [readByte, h, ih]
    · by_cases h : b ≤ c.1 <;> simp [readByte, h, h', ih]

theorem readByte_cellsFrom (b : Nat) (bs : List Byte) (a : Nat) :
    readByte (cellsFrom b bs) a = if b ≤ a then bs[a - b]? else none := by
  induction bs generalizing b with
  | nil => simp [cellsFrom, readByte]
  | cons v bs ih =>
    by_cases h : b = a
    · subst h; simp [cellsFrom, readByte]
    · simp only [cellsFrom, readByte, h, if_false, ih]
      by_cases hle : b ≤ a
      · have : a - b = (a - (b + 1)) + 1 := by omega
        rw [if_pos (by omega), if_pos hle, this, List.getElem?_cons_succ]
      · rw [if_neg (by omega), if_neg hle]

/-- The whole of what a write does, byte by byte: the bytes written, and nothing else. -/
theorem readByte_writeBytes (m : Memory) (b : Nat) (bs : List Byte) (a : Nat) :
    readByte (writeBytes m b bs) a =
      if b ≤ a ∧ a < b + bs.length then bs[a - b]? else readByte m a := by
  rw [writeBytes, readByte_append, readByte_append, readByte_cellsBelow, readByte_cellsFrom,
    readByte_cellsAbove]
  by_cases h1 : a < b
  · have : ¬ b ≤ a := by omega
    have h3 : ¬ b + bs.length ≤ a := by omega
    simp [h1, this, h3]
  · have hle : b ≤ a := by omega
    by_cases h2 : a < b + bs.length
    · have hlt : a - b < bs.length := by omega
      simp [h1, hle, h2, List.getElem?_eq_getElem hlt]
    · have hge : bs[a - b]? = none := List.getElem?_eq_none (by omega)
      have h3 : b + bs.length ≤ a := by omega
      simp [h1, hle, h2, hge, h3]

/-- A write leaves every byte outside it as it was. -/
theorem readByte_writeBytes_outside (m : Memory) (b : Nat) (bs : List Byte) (a : Nat)
    (h : a < b ∨ b + bs.length ≤ a) : readByte (writeBytes m b bs) a = readByte m a := by
  rw [readByte_writeBytes, if_neg (by omega)]

/-- The whole of what erasing does, byte by byte. -/
theorem readByte_eraseBytes (m : Memory) (b n a : Nat) :
    readByte (eraseBytes m b n) a = if b ≤ a ∧ a < b + n then none else readByte m a := by
  rw [eraseBytes, readByte_append, readByte_cellsBelow, readByte_cellsAbove]
  by_cases h1 : a < b
  · have h2 : ¬ b ≤ a := by omega
    have h3 : ¬ b + n ≤ a := by omega
    simp [h1, h2, h3]
  · by_cases h2 : a < b + n
    · have h3 : ¬ b + n ≤ a := by omega
      have h4 : b ≤ a := by omega
      simp [h1, h2, h3, h4]
    · have h3 : b + n ≤ a := by omega
      simp [h1, h2, h3]

/-! ## Words -/

@[simp] theorem bytesOfWord_length (w : Word) : (bytesOfWord w).length = 8 := rfl

/-- Little-endian, both ways (20_memory.md R63). -/
theorem wordOfBytes_bytesOfWord (w : Word) : wordOfBytes (bytesOfWord w) = w := by
  ext i hi
  simp only [wordOfBytes, bytesOfWord, List.foldr, BitVec.getElem_or,
    BitVec.getElem_shiftLeft, BitVec.getElem_setWidth, BitVec.getLsbD_extractLsb']
  interval_cases i <;> simp

theorem readBytes_congr {m n : Memory} (a k : Nat)
    (h : ∀ i < k, readByte m (a + i) = readByte n (a + i)) : readBytes m a k = readBytes n a k := by
  induction k generalizing a with
  | zero => rfl
  | succ k ih =>
    have h0 := h 0 (by omega)
    have hr := ih (a + 1) fun i hi => by
      have := h (i + 1) (by omega)
      rwa [show a + (i + 1) = a + 1 + i by omega] at this
    simp only [Nat.add_zero] at h0
    simp only [readBytes, h0, hr]

theorem readBytes_of_bytes {m : Memory} (a : Nat) (bs : List Byte)
    (h : ∀ i (hi : i < bs.length), readByte m (a + i) = some bs[i]) :
    readBytes m a bs.length = some bs := by
  induction bs generalizing a with
  | nil => rfl
  | cons b bs ih =>
    have h0 := h 0 (by simp)
    have hr := ih (a + 1) fun i hi => by
      have := h (i + 1) (by simpa using hi)
      rwa [show a + (i + 1) = a + 1 + i by omega] at this
    simp only [Nat.add_zero, List.getElem_cons_zero] at h0
    simp only [List.length_cons, readBytes, h0, hr]

theorem readWord_congr {m n : Memory} (a : Nat)
    (h : ∀ i < 8, readByte m (a + i) = readByte n (a + i)) : readWord m a = readWord n a := by
  rw [readWord, readWord, readBytes_congr a 8 h]

theorem readWords_congr {m n : Memory} (a k : Nat)
    (h : ∀ i < 8 * k, readByte m (a + i) = readByte n (a + i)) : readWords m a k = readWords n a k := by
  induction k generalizing a with
  | zero => rfl
  | succ k ih =>
    have h0 := readWord_congr a fun i hi => h i (by omega)
    have hr := ih (a + 8) fun i hi => by
      have := h (8 + i) (by omega)
      rwa [show a + (8 + i) = a + 8 + i by omega] at this
    simp only [readWords, h0, hr]

theorem flatMap_bytesOfWord_length (ws : List Word) : (ws.flatMap bytesOfWord).length = 8 * ws.length := by
  induction ws with
  | nil => rfl
  | cons w ws ih => simp only [List.flatMap_cons, List.length_append, bytesOfWord_length, List.length_cons, ih]; omega

theorem getElem?_flatMap_bytesOfWord (ws : List Word) (i j : Nat) (hj : j < 8) :
    (ws.flatMap bytesOfWord)[8 * i + j]? = (ws[i]?).bind fun w => (bytesOfWord w)[j]? := by
  induction ws generalizing i with
  | nil => simp
  | cons w ws ih =>
    rw [List.flatMap_cons]
    cases i with
    | zero => rw [Nat.mul_zero, Nat.zero_add, List.getElem?_append_left (by simpa using hj)]; simp
    | succ i =>
      rw [List.getElem?_append_right (by simp; omega), bytesOfWord_length,
        show 8 * (i + 1) + j - 8 = 8 * i + j by omega, ih]
      simp

/-- A byte after a write of words: unchanged outside them. -/
theorem readByte_writeWords_outside (m : Memory) (b : Nat) (ws : List Word) (a : Nat)
    (h : a < b ∨ b + 8 * ws.length ≤ a) : readByte (writeWords m b ws) a = readByte m a :=
  readByte_writeBytes_outside m b _ a (by rwa [flatMap_bytesOfWord_length])

theorem readByte_writeWords_inside (m : Memory) (b : Nat) (ws : List Word) (i j : Nat) (hi : i < ws.length)
    (hj : j < 8) : readByte (writeWords m b ws) (b + (8 * i + j)) = (bytesOfWord ws[i])[j]? := by
  have hlen := flatMap_bytesOfWord_length ws
  rw [writeWords, readByte_writeBytes, if_pos ⟨by omega, by omega⟩, show b + (8 * i + j) - b = 8 * i + j by omega,
    getElem?_flatMap_bytesOfWord ws i j hj]
  simp [hi]

/-- A word read after a write of words, at the place of one of them. -/
theorem readWord_writeWords (m : Memory) (b : Nat) (ws : List Word) (i : Nat) (hi : i < ws.length) :
    readWord (writeWords m b ws) (b + 8 * i) = some ws[i] := by
  have h : readBytes (writeWords m b ws) (b + 8 * i) (bytesOfWord ws[i]).length = some (bytesOfWord ws[i]) := by
    refine readBytes_of_bytes _ _ fun j hj => ?_
    have hj8 : j < 8 := by simpa using hj
    rw [show b + 8 * i + j = b + (8 * i + j) by omega, readByte_writeWords_inside m b ws i j hi hj8]
    simp
  rw [bytesOfWord_length] at h
  rw [readWord, h, Option.map_some, wordOfBytes_bytesOfWord]

/-- A word read after a write of words that does not reach it. -/
theorem readWord_writeWords_outside (m : Memory) (b : Nat) (ws : List Word) (a : Nat)
    (h : a + 8 ≤ b ∨ b + 8 * ws.length ≤ a) : readWord (writeWords m b ws) a = readWord m a :=
  readWord_congr a fun i hi => readByte_writeWords_outside m b ws _ (by omega)

theorem readWords_of_words {m : Memory} (a : Nat) (ws : List Word)
    (h : ∀ i (hi : i < ws.length), readWord m (a + 8 * i) = some ws[i]) :
    readWords m a ws.length = some ws := by
  induction ws generalizing a with
  | nil => rfl
  | cons w ws ih =>
    have h0 := h 0 (by simp)
    have hr := ih (a + 8) fun i hi => by
      have := h (i + 1) (by simpa using hi)
      rwa [show a + 8 * (i + 1) = a + 8 + 8 * i by omega] at this
    simp only [Nat.mul_zero, Nat.add_zero, List.getElem_cons_zero] at h0
    simp only [List.length_cons, readWords, h0, hr]

/-- The words written are the words read. -/
theorem readWords_writeWords (m : Memory) (b : Nat) (ws : List Word) :
    readWords (writeWords m b ws) b ws.length = some ws :=
  readWords_of_words b ws fun i hi => readWord_writeWords m b ws i hi

/-- A range of words that a write does not reach is read as before. -/
theorem readWords_writeWords_outside (m : Memory) (b : Nat) (ws : List Word) (a k : Nat)
    (h : a + 8 * k ≤ b ∨ b + 8 * ws.length ≤ a) : readWords (writeWords m b ws) a k = readWords m a k :=
  readWords_congr a k fun i hi => readByte_writeWords_outside m b ws _ (by omega)

/-- A range of words that erasing does not reach is read as before. -/
theorem readWords_eraseBytes_outside (m : Memory) (b n a k : Nat) (h : a + 8 * k ≤ b ∨ b + n ≤ a) :
    readWords (eraseBytes m b n) a k = readWords m a k :=
  readWords_congr a k fun i hi => by rw [readByte_eraseBytes, if_neg (by omega)]

theorem readWords_length {m : Memory} {a k : Nat} {ws : List Word} (h : readWords m a k = some ws) :
    ws.length = k := by
  induction k generalizing a ws with
  | zero => simp [readWords] at h; simp [← h]
  | succ k ih =>
    simp only [readWords] at h
    split at h
    · rename_i w ws' _ h2
      simp only [Option.some.injEq] at h
      rw [← h, List.length_cons, ih h2]
    · cases h

theorem freeWords_length (t a n : Nat) : (freeWords t a n).length = n := by
  induction n generalizing a with
  | zero => rfl
  | succ n ih => simp [freeWords, ih]

/-! ## Complex elements -/

theorem wordsOfComplex_length (zs : List (Cx Word)) : (wordsOfComplex zs).length = 2 * zs.length := by
  induction zs with
  | nil => rfl
  | cons z zs ih => simp only [wordsOfComplex, List.length_cons, ih]; omega

theorem complexOfWords_wordsOfComplex (zs : List (Cx Word)) : complexOfWords (wordsOfComplex zs) = zs := by
  induction zs with
  | nil => rfl
  | cons z zs ih => simp [wordsOfComplex, complexOfWords, ih]

theorem complexOfWords_length (ws : List Word) (n : Nat) (h : ws.length = 2 * n) :
    (complexOfWords ws).length = n := by
  induction n generalizing ws with
  | zero =>
    have : ws = [] := List.length_eq_zero_iff.mp h
    simp [this, complexOfWords]
  | succ n ih =>
    match ws, h with
    | x :: y :: ws, h =>
      simp only [complexOfWords, List.length_cons]
      rw [ih ws (by simp only [List.length_cons] at h; omega)]
    | [_], h => simp only [List.length_cons, List.length_nil] at h; omega
    | [], h => simp at h

/-- The complex values written are the complex values read. -/
theorem readComplex_writeComplex (p : Params) (m : Memory) (g : Region) (i : Nat) (zs : List (Cx Word)) :
    readComplex p (writeComplex p m g i zs) g i zs.length = some zs := by
  rw [readComplex, writeComplex, ← wordsOfComplex_length, readWords_writeWords, Option.map_some,
    complexOfWords_wordsOfComplex]

/-- The scalars written are the scalars read. -/
theorem readScalars_writeScalars (p : Params) (m : Memory) (g : Region) (i : Nat) (xs : List Word) :
    readScalars p (writeScalars p m g i xs) g i xs.length = some xs :=
  readWords_writeWords m _ xs

theorem readComplex_length {p : Params} {m : Memory} {g : Region} {i n : Nat} {zs : List (Cx Word)}
    (h : readComplex p m g i n = some zs) : zs.length = n := by
  rw [readComplex, Option.map_eq_some_iff] at h
  obtain ⟨ws, hw, rfl⟩ := h
  exact complexOfWords_length ws n (readWords_length hw)

end Sys2Proof.Machine
end

