-- ==== Sys2Proof/Laws/Lengths.lean ====
section
/-! SUPPORT. The lengths of the lists the commands compute and write: a transform keeps the length, a pass emits
as many frames as it is given, the output Signal has length F*H + W. -/

namespace Sys2Proof.Machine

variable {R : Type}

theorem evens_odds_length {α : Type} (x : List α) (n : Nat) (h : x.length = 2 * n) :
    (evens x).length = n ∧ (odds x).length = n := by
  induction n generalizing x with
  | zero =>
    have : x = [] := List.length_eq_zero_iff.mp h
    simp [this, evens, odds]
  | succ n ih =>
    match x, h with
    | a :: b :: x, h =>
      have := ih x (by simp only [List.length_cons] at h; omega)
      simp [evens, odds, this]
    | [_], h => simp only [List.length_cons, List.length_nil] at h; omega
    | [], h => simp at h

theorem evens_getElem? {α : Type} (x : List α) (i : Nat) (h : 2 * i < x.length) : (evens x)[i]? = x[2 * i]? := by
  induction i generalizing x with
  | zero =>
    match x with
    | [] => simp at h
    | [_] => rfl
    | _ :: _ :: _ => rfl
  | succ i ih =>
    match x with
    | [] => simp at h
    | [_] => simp only [List.length_cons, List.length_nil] at h; omega
    | a :: b :: x =>
      simp only [List.length_cons] at h
      rw [evens, List.getElem?_cons_succ, ih x (by omega), show 2 * (i + 1) = 2 * i + 1 + 1 by omega]
      simp

theorem odds_getElem? {α : Type} (x : List α) (i : Nat) (h : 2 * i + 1 < x.length) :
    (odds x)[i]? = x[2 * i + 1]? := by
  induction i generalizing x with
  | zero =>
    match x with
    | [] => simp at h
    | [_] => simp at h
    | _ :: _ :: _ => rfl
  | succ i ih =>
    match x with
    | [] => simp at h
    | [_] => simp only [List.length_cons, List.length_nil] at h; omega
    | a :: b :: x =>
      simp only [List.length_cons] at h
      rw [odds, List.getElem?_cons_succ, ih x (by omega), show 2 * (i + 1) + 1 = 2 * i + 1 + 1 + 1 by omega]
      simp

theorem twiddled_length (num : Num R) (n : Nat) (o : List (Cx R)) : (twiddled num n o).length = o.length := by
  simp [twiddled]

/-- A transform of 2^n elements has 2^n elements (41_transform.md R161). -/
theorem fft_length (num : Num R) (n : Nat) (x : List (Cx R)) (h : x.length = 2 ^ n) :
    (fft num n x).length = 2 ^ n := by
  induction n generalizing x with
  | zero => exact h
  | succ n ih =>
    have hl := evens_odds_length x (2 ^ n) (by rw [h, pow_succ]; omega)
    simp [fft, butterflies, twiddled_length, ih _ hl.1, ih _ hl.2, pow_succ]
    omega

/-- So has the inverse (41_transform.md R164). -/
theorem ifft_length (num : Num R) (n : Nat) (x : List (Cx R)) (h : x.length = 2 ^ n) :
    (ifft num n x).length = 2 ^ n := by
  simp [ifft, fft_length num n (x.map (conj num)) (by simpa using h)]

theorem hannWindow_length (num : Num R) (w : Nat) : (hannWindow num w).length = w := by simp [hannWindow]

theorem slice_length (num : Num R) (w h : Nat) (sig : List R) (i : Nat) (hs : i * h + w ≤ sig.length) :
    (slice num w h sig i).length = w := by
  simp [slice, hannWindow_length]
  omega

theorem analyzeFrame_length (num : Num R) (logw h : Nat) (sig : List R) (i : Nat)
    (hs : i * h + 2 ^ logw ≤ sig.length) : (analyzeFrame num logw h sig i).length = 2 ^ logw :=
  fft_length num logw _ (slice_length num _ h sig i hs)

theorem framesOf_length {α : Type} (w f : Nat) (xs : List α) : (framesOf w f xs).length = f := by
  induction f generalizing xs with
  | zero => rfl
  | succ f ih => simp [framesOf, ih]

theorem framesOf_frame_length {α : Type} (w f : Nat) (xs : List α) (h : xs.length = f * w) :
    ∀ fr ∈ framesOf w f xs, fr.length = w := by
  induction f generalizing xs with
  | zero => simp [framesOf]
  | succ f ih =>
    have hw : (f + 1) * w = f * w + w := by ring
    intro fr hfr
    rcases List.mem_cons.mp hfr with rfl | hfr
    · simp; omega
    · exact ih (xs.drop w) (by simp; omega) fr hfr

theorem frameAfter_length (num : Num R) (w h : Nat) (r : R) (k : Nat) (bs : List (BinPhase R))
    (zs : List (Cx R)) : (frameAfter num w h r k bs zs).length = min bs.length zs.length := by
  induction bs generalizing k zs with
  | nil => simp [frameAfter]
  | cons b bs ih => cases zs <;> simp [frameAfter, ih]

theorem frameEmits_length (num : Num R) (w h : Nat) (r : R) (k : Nat) (bs : List (BinPhase R))
    (zs : List (Cx R)) : (frameEmits num w h r k bs zs).length = min bs.length zs.length := by
  induction bs generalizing k zs with
  | nil => simp [frameEmits]
  | cons b bs ih => cases zs <;> simp [frameEmits, ih]

/-- A pass over frames of n bins keeps n bins. -/
theorem passAfter_length (num : Num R) (w h : Nat) (r : R) (n : Nat) (fs : List (List (Cx R)))
    (bs : List (BinPhase R)) (hb : bs.length = n) (hf : ∀ fr ∈ fs, fr.length = n) :
    (passAfter num w h r bs fs).length = n := by
  induction fs generalizing bs with
  | nil => exact hb
  | cons fr fs ih =>
    refine ih _ ?_ fun g hg => hf g (by simp [hg])
    rw [frameAfter_length, hb, hf fr (by simp), min_self]

/-- A pass emits a sequence of the same shape (44_vocoder.md R203). -/
theorem passEmits_shape (num : Num R) (w h : Nat) (r : R) (n : Nat) (fs : List (List (Cx R)))
    (bs : List (BinPhase R)) (hb : bs.length = n) (hf : ∀ fr ∈ fs, fr.length = n) :
    (passEmits num w h r bs fs).length = fs.length ∧ ∀ fr ∈ passEmits num w h r bs fs, fr.length = n := by
  induction fs generalizing bs with
  | nil => simp [passEmits]
  | cons fr fs ih =>
    have hn := ih (frameAfter num w h r 0 bs fr)
      (by rw [frameAfter_length, hb, hf fr (by simp), min_self]) fun g hg => hf g (by simp [hg])
    refine ⟨by simp [passEmits, hn.1], fun g hg => ?_⟩
    rcases List.mem_cons.mp hg with rfl | hg
    · rw [frameEmits_length, hb, hf fr (by simp), min_self]
    · exact hn.2 g hg

theorem flatten_length_of_shape {α : Type} (n : Nat) (fs : List (List α)) (h : ∀ fr ∈ fs, fr.length = n) :
    fs.flatten.length = fs.length * n := by
  induction fs with
  | nil => simp
  | cons fr fs ih =>
    simp [h fr (by simp), ih fun g hg => h g (by simp [hg])]
    ring

theorem addFrom_length (num : Num R) (at_ : Nat) (out cs : List R) :
    (addFrom num at_ out cs).length = out.length := by
  induction out generalizing at_ cs with
  | nil => simp [addFrom]
  | cons x xs ih =>
    match at_, cs with
    | 0, [] => rfl
    | 0, _ :: _ => simp [addFrom, ih]
    | _ + 1, _ => simp [addFrom, ih]

theorem overlapAdd_length (num : Num R) (logw h i : Nat) (out : List R) (fs : List (List (Cx R))) :
    (overlapAdd num logw h i out fs).length = out.length := by
  induction fs generalizing i out with
  | nil => rfl
  | cons f fs ih => rw [overlapAdd, ih, addFrom_length]

/-- The output Signal has length F*H + W (45_synthesizer.md R220). -/
theorem synthesizeFrames_length (num : Num R) (logw h : Nat) (fs : List (List (Cx R))) :
    (synthesizeFrames num logw h fs).length = outputLength fs.length (2 ^ logw) h := by
  simp [synthesizeFrames, overlapAdd_length]

end Sys2Proof.Machine
end

