-- ==== Sys2Proof/Laws/Step.lean ====
section
/-! SUPPORT. What one step can do, said once: who moves, what a transaction does, what a perform step does. -/

namespace Sys2Proof.Machine

/-- The meaning of a command is one perform step: its CFG check, its CAP check, its body (R244 to R246). -/
def bodyOf (p : Params) : Instr → State → State
  | .nop => id
  | .fft => transformFrame p (fft (machineNum p))
  | .ifft => transformFrame p (ifft (machineNum p))
  | .wingen => generateWindow p
  | .analyze => analyzeBody p
  | .vocode => vocodeBody p
  | .synth bank => synthBody p bank
  | .run => runBody p

/-- Every arm of `exec` is a perform step with the checks of R242 and R243. -/
theorem exec_eq_perform (i : Instr) (s : State) :
    exec i s =
      perform (configError Config.params i s) (capacityError Config.params i s) (bodyOf Config.params i) s := by
  cases i <;> rfl

/-- What `exec` can answer: a refusal with CFG, a refusal with CAP, or the completed body. Never a fault, never
a refusal of the model. -/
theorem exec_cases (i : Instr) (s : State) :
    (configError Config.params i s = true ∧ exec i s = .next (raiseCmdError .cfg s)) ∨
    (configError Config.params i s = false ∧ capacityError Config.params i s = true ∧
      exec i s = .next (raiseCmdError .cap s)) ∨
    (configError Config.params i s = false ∧ capacityError Config.params i s = false ∧
      exec i s = .next (complete (bodyOf Config.params i s))) := by
  rw [exec_eq_perform]
  exact perform_cases _ _ _ _

/-- What the engine's step can do. -/
theorem performLatched_cases (s : State) :
    (∃ i, decode s.cmd = .ok i ∧ performLatched s = exec i s) ∨
    (∃ e, decode s.cmd = .error e ∧ performLatched s = .next (raiseCmdError .illcmd s)) := by
  unfold performLatched performBy
  cases h : decode s.cmd with
  | ok i => exact .inl ⟨i, rfl, rfl⟩
  | error e => exact .inr ⟨e, rfl, rfl⟩

/-- What one step can do: the engine's step (only while BUSY = 1), one act of the environment (while BUSY = 1 only
an early one), or nothing (only when nothing is enabled). -/
theorem step_cases (s : State) :
    (s.status.busy = true ∧ step s = performLatched s) ∨
    (∃ e rest, s.script = e :: rest ∧ (s.status.busy = true → e.early ≠ 0) ∧
      step s = .next (environmentAct Config.params State.reset e.act
        { s with script := scriptAfter s.status.busy e rest })) ∨
    (s.status.busy = false ∧ s.script = [] ∧ step s = .next s) := by
  unfold step stepBy nextMove performLatched
  cases hs : s.script with
  | nil => cases hb : s.status.busy <;> simp
  | cons e rest => cases hb : s.status.busy <;> by_cases he : e.early = 0 <;> simp [he]

/-- With BUSY = 1 and no early event at the head of the script, the engine moves. -/
theorem step_engine {s : State} (hb : s.status.busy = true) (hs : ∀ e ∈ s.script.head?, e.early = 0) :
    step s = performLatched s := by
  unfold step stepBy nextMove performLatched
  cases h : s.script with
  | nil => simp [hb]
  | cons e rest =>
    have : e.early = 0 := hs e (by simp [h])
    simp [hb, this]

/-- The meanings of PVCORE are those of the default configuration (00_scope.md R7). -/
theorem execWith_params : execWith Config.params = exec := by
  funext i s
  cases i <;> rfl

/-- The reset state of PVCORE is that of the default configuration: the scalar 1.5 of Num_b64 is 0x3FF8000000000000
(10_state.md R24). -/
theorem resetWith_params : resetWith Config.params = State.reset := by
  have h : scalarOneAndHalf (machineNum Config.params) = State.reset.stretch := by decide +kernel
  unfold resetWith
  rw [h]

/-- A step of PVCORE is a step under the default configuration. -/
theorem stepWith_params : stepWith Config.params = step := by
  funext s
  unfold stepWith step
  rw [execWith_params, resetWith_params]

/-- What a host read can do: return a register's word or a memory word and change nothing else, or return an
unspecified word, with ACCERR set exactly when it was illegal (20_memory.md R65, R66). -/
theorem hostRead_cases (p : Params) (addr size : Nat) (s : State) :
    (readLegal p s addr size = true ∧ ∃ w, hostRead p addr size s = returnWord w s) ∨
    (readLegal p s addr size = true ∧ hostRead p addr size s = returnUnspecified addr s) ∨
    (readLegal p s addr size = false ∧ hostRead p addr size s = raiseAccErr (returnUnspecified addr s)) := by
  unfold hostRead
  cases hl : readLegal p s addr size with
  | false => simp
  | true =>
    simp only [if_true]
    unfold readPlace
    split
    · exact .inl ⟨trivial, _, rfl⟩
    · split
      · exact .inl ⟨trivial, _, rfl⟩
      · exact .inr (.inl ⟨trivial, rfl⟩)
    · exact .inr (.inl ⟨trivial, rfl⟩)

/-- What a host write can do: write one register, write one word of a memory region, or set ACCERR and nothing
else, the last exactly when it was illegal (20_memory.md R65, R67). -/
theorem hostWrite_cases (p : Params) (addr size : Nat) (v : Word) (s : State) :
    (writeLegal p s addr size = true ∧ ∃ r, placeOf p addr = .reg r ∧ hostWrite p addr size v s = writeReg s v r) ∨
    (writeLegal p s addr size = true ∧ ∃ g, placeOf p addr = .region g ∧
      hostWrite p addr size v s = { s with mem := writeWords s.mem addr [v] }) ∨
    (writeLegal p s addr size = false ∧ hostWrite p addr size v s = raiseAccErr s) := by
  unfold hostWrite
  cases hl : writeLegal p s addr size with
  | false => simp
  | true =>
    simp only [if_true]
    unfold writePlace
    cases hp : placeOf p addr with
    | reg r => exact .inl ⟨trivial, r, rfl, rfl⟩
    | region g => exact .inr (.inl ⟨trivial, g, rfl, rfl⟩)
    | hole => simp [writeLegal, hp] at hl

end Sys2Proof.Machine
end

