-- ==== Sys2Proof/Machine/Elements.lean ====
section
/-! DEFINITION. PVCORE over any number system (00_scope.md R7): its memories hold scalars of the type R themselves,
not bus words, and host and machine exchange scalars as abstract values, so that a `Num` without a bus encoding, as
Num_exact, is a configuration too (20_memory.md R62, 40_numerics.md R135). The commands are the same rules over the
same functions. Under a `Num` with a bus image it is what the machine of Machine/Step.lean does word by word
(Laws/Elements.lean). A command that reads an element holding no value has no result here, `none`
(93_implementation_defined.md U6, `refuse`). -/

namespace Sys2Proof.Machine

variable {R : Type}

/-- The state of 10_state.md R21 over the scalars R. `mem g j` is scalar j of the memory g: of a complex memory,
scalars 2k and 2k + 1 are the real and the imaginary part of element k (20_memory.md R62, R67). -/
structure ElementState (R : Type) where
  cmd : Word
  status : Status
  logw : BitVec 5
  hop : BitVec 32
  stretch : R
  siglen : BitVec 32
  nframes : BitVec 32
  outlen : BitVec 32
  mem : Region → Nat → Option R

/-- The registers in the form in which the checks and the sizes read them. -/
def ElementState.registers (t : ElementState R) : State :=
  { State.reset with
    cmd := t.cmd
    status := t.status
    logw := t.logw
    hop := t.hop
    siglen := t.siglen
    nframes := t.nframes
    outlen := t.outlen }

/-- The machine right after reset (10_state.md R48): STRETCH the scalar 1.5, no element holding a value. -/
def elementReset (num : Num R) : ElementState R :=
  { cmd := 0
    status := Status.reset
    logw := 10
    hop := 256
    stretch := scalarOneAndHalf num
    siglen := 0
    nframes := 0
    outlen := 0
    mem := fun _ _ => none }

/-- `n` consecutive scalars, or none if one of them holds no value. -/
def readRun (m : Nat → Option R) (first : Nat) : Nat → Option (List R)
  | 0 => some []
  | n + 1 =>
    match m first, readRun m (first + 1) n with
    | some x, some xs => some (x :: xs)
    | _, _ => none

/-- Scalars of a memory written from scalar 0 on. -/
def storeRun (g : Region) (xs : List R) (t : ElementState R) : ElementState R :=
  { t with mem := fun g' j => if g' = g ∧ j < xs.length then xs[j]? else t.mem g' j }

/-- The first `n` scalars of a memory hold no value afterwards (10_state.md R44, R47). -/
def dropRun (g : Region) (n : Nat) (t : ElementState R) : ElementState R :=
  { t with mem := fun g' j => if g' = g ∧ j < n then none else t.mem g' j }

/-- `WIN[0..W)` generated and WINOK set (42_window.md R181). -/
def elementGenerateWindow (num : Num R) (t : ElementState R) : ElementState R :=
  { storeRun .win (hannWindow num (windowSize t.registers)) t with status := setWinok true t.status }

/-- `ensureWindow()` (42_window.md R182). -/
def elementEnsureWindow (num : Num R) (t : ElementState R) : ElementState R :=
  if t.status.winok then t else elementGenerateWindow num t

/-- The body of FFT and IFFT (41_transform.md R163, R165). -/
def elementTransform (f : Nat → List (Cx R) → List (Cx R)) (t : ElementState R) : Option (ElementState R) :=
  (readRun (t.mem .frm) 0 (2 * windowSize t.registers)).map fun x =>
    storeRun .frm (wordsOfComplex (f (logwOf t.registers) (complexOfWords x))) t

/-- The body of ANALYZE (43_analyzer.md R192). -/
def elementAnalyze (num : Num R) (t : ElementState R) : Option (ElementState R) :=
  (readRun (t.mem .sig) 0
      (signalSpan (analysisFrames t.registers) (windowSize t.registers) (hopSize t.registers))).map fun sig =>
    dropRun .frm (2 * windowSize t.registers)
      { storeRun .spa
          (wordsOfComplex
            (analyzeSignal num (logwOf t.registers) (hopSize t.registers) (analysisFrames t.registers) sig).flatten)
          (elementEnsureWindow num t) with
        nframes := BitVec.ofNat 32 (analysisFrames t.registers) }

/-- The body of VOCODE (44_vocoder.md R203). -/
def elementVocode (num : Num R) (t : ElementState R) : Option (ElementState R) :=
  (readRun (t.mem .spa) 0 (2 * (frameCount t.registers * windowSize t.registers))).map fun x =>
    let frames := framesOf (windowSize t.registers) (frameCount t.registers) (complexOfWords x)
    let bins := vocodeBins num (windowSize t.registers) (hopSize t.registers) t.stretch frames
    let out := vocodeSpectrum num (windowSize t.registers) (hopSize t.registers) t.stretch frames
    storeRun .newph (bins.map BinPhase.acc)
      (storeRun .lastph (bins.map BinPhase.last) (storeRun .spb (wordsOfComplex out.flatten) t))

/-- The body of SYNTH (45_synthesizer.md R222). -/
def elementSynth (num : Num R) (bank : Bank) (t : ElementState R) : Option (ElementState R) :=
  (readRun (t.mem (bankRegion bank)) 0 (2 * (frameCount t.registers * windowSize t.registers))).map fun x =>
    dropRun .frm (2 * windowSize t.registers)
      { storeRun .out
          (synthesizeFrames num (logwOf t.registers) (hopSize t.registers)
            (framesOf (windowSize t.registers) (frameCount t.registers) (complexOfWords x)))
          (elementEnsureWindow num t) with
        outlen :=
          BitVec.ofNat 32
            (outputLength (frameCount t.registers) (windowSize t.registers) (hopSize t.registers)) }

/-- The body of each command. -/
def elementBody (num : Num R) : Instr → ElementState R → Option (ElementState R)
  | .nop, t => some t
  | .fft, t => elementTransform (fft num) t
  | .ifft, t => elementTransform (ifft num) t
  | .wingen, t => some (elementGenerateWindow num t)
  | .analyze, t => elementAnalyze num t
  | .vocode, t => elementVocode num t
  | .synth bank, t => elementSynth num bank t
  | .run, t => ((elementAnalyze num t).bind (elementVocode num)).bind (elementSynth num .spb)

/-- A command: CFG before CAP, each before anything changes, else the body and its completion (60_exceptions.md R244
to R246). The capacities are those of `p`. -/
def elementExec (p : Params) (num : Num R) (i : Instr) (t : ElementState R) : Option (ElementState R) :=
  if configError p i t.registers then some { t with status := refuseFlags .cfg t.status }
  else if capacityError p i t.registers then some { t with status := refuseFlags .cap t.status }
  else (elementBody num i t).map fun u => { u with status := completeFlags u.status }

/-- The engine's perform step (10_state.md R20). -/
def elementPerform (p : Params) (num : Num R) (t : ElementState R) : Option (ElementState R) :=
  match decode t.cmd with
  | .ok i => elementExec p num i t
  | .error _ => some { t with status := refuseFlags .illcmd t.status }

/-! ## The host (20_memory.md R64 to R67) -/

/-- What a host write carries: the bits, of which an integer register takes its own, and the scalar, which STRETCH or
an element takes. Under a `Num` with a bus image the bits are the image of the scalar; under one without, the scalar
is an abstract value (R62).

DESIGN CHOICE: one write carries both, since no rule says what form the abstract exchange has (log 1). -/
structure Datum (R : Type) where
  bits : Word
  scalar : R
  deriving DecidableEq, Repr

/-- What a host read returns: the bits of an integer register, the scalar in STRETCH or in an element, or an
unspecified word (R65, R66). -/
inductive Returned (R : Type) where
  | bits (w : Word)
  | scalar (x : R)
  | unspecified
  deriving DecidableEq, Repr

/-- The machine with its environment: what the host and the reset input will do, and what the host's reads returned,
newest first (log 2). -/
structure ElementMachine (R : Type) where
  hw : ElementState R
  script : List (EventOf (Datum R))
  seen : List (Returned R)

/-- The registers written back; STRETCH and the memories stay. -/
def withRegisters (s : State) (t : ElementState R) : ElementState R :=
  { t with
    cmd := s.cmd
    status := s.status
    logw := s.logw
    hop := s.hop
    siglen := s.siglen
    nframes := s.nframes
    outlen := s.outlen }

/-- The scalar of a memory that stands at an aligned address in it (R62). -/
def scalarIndex (p : Params) (g : Region) (addr : Nat) : Nat := (addr - regionBase p g) / 8

/-- What a legal read returns (R66). -/
def elementReadPlace (p : Params) (addr : Nat) (t : ElementState R) : Returned R :=
  match placeOf p addr with
  | .reg .stretch => .scalar t.stretch
  | .reg r => .bits (readReg t.registers r)
  | .region g =>
    match t.mem g (scalarIndex p g addr) with
    | some x => .scalar x
    | none => .unspecified
  | .hole => .unspecified

/-- What a legal write does (R67). -/
def elementWritePlace (p : Params) (addr : Nat) (d : Datum R) (t : ElementState R) : ElementState R :=
  match placeOf p addr with
  | .reg .stretch => { t with stretch := d.scalar }
  | .reg r => withRegisters (writeReg t.registers d.bits r) t
  | .region g =>
    { t with mem := fun g' j => if g' = g ∧ j = scalarIndex p g addr then some d.scalar else t.mem g' j }
  | .hole => t

/-- `raise AccErr` (60_exceptions.md R248). -/
def elementRaiseAccErr (t : ElementState R) : ElementState R := { t with status := raiseAccerr t.status }

/-- A host read, legal or not (R65, R66). -/
def elementRead (p : Params) (addr size : Nat) (m : ElementMachine R) : ElementMachine R :=
  if readLegal p m.hw.registers addr size then { m with seen := elementReadPlace p addr m.hw :: m.seen }
  else { m with hw := elementRaiseAccErr m.hw, seen := .unspecified :: m.seen }

/-- A host write, legal or not (R65, R67); a write to CMD issues (10_state.md R30). -/
def elementWrite (p : Params) (addr size : Nat) (d : Datum R) (m : ElementMachine R) : ElementMachine R :=
  if writeLegal p m.hw.registers addr size then { m with hw := elementWritePlace p addr d m.hw }
  else { m with hw := elementRaiseAccErr m.hw }

/-- One act of the environment; the reset event leads to the reset state (70_reset_and_hazards.md R260). -/
def elementAct (p : Params) (num : Num R) : ActOf (Datum R) → ElementMachine R → ElementMachine R
  | .bus (.read addr size), m => elementRead p addr size m
  | .bus (.write addr size d), m => elementWrite p addr size d m
  | .poll, m => elementRead p (regAddr p .status) 8 m
  | .reset, m => { m with hw := elementReset num }

/-- One step of the machine with its environment (10_state.md R20): the agent that `nextMove` names. -/
def elementStep (p : Params) (num : Num R) (m : ElementMachine R) : Option (ElementMachine R) :=
  match nextMove m.hw.status.busy m.script with
  | .engine => (elementPerform p num m.hw).map fun t => { m with hw := t }
  | .environment a rest => some (elementAct p num a { m with script := rest })
  | .idle => some m

/-! ## What the machine over the words is when each word is taken as a scalar -/

/-- The scalars that a memory has room for (20_memory.md R61). -/
def regionScalars (p : Params) (g : Region) : Nat :=
  if regionIsComplex g then 2 * regionElements p g else regionElements p g

/-- The scalars in the memories of the machine over the words, each word taken as the scalar it stands for. -/
def scalarsOf (p : Params) (m : Memory) (g : Region) (j : Nat) : Option Word :=
  if j < regionScalars p g then readWord m (regionBase p g + 8 * j) else none

/-- What a state of the machine over the words is when each word is taken as the scalar it stands for. -/
def elementsOf (p : Params) (s : State) : ElementState Word :=
  { cmd := s.cmd
    status := s.status
    logw := s.logw
    hop := s.hop
    stretch := s.stretch
    siglen := s.siglen
    nframes := s.nframes
    outlen := s.outlen
    mem := scalarsOf p s.mem }

/-- An act of the host on the bus, as one that exchanges the scalar whose word it carries. -/
def overScalars : Act → ActOf (Datum Word)
  | .bus (.read addr size) => .bus (.read addr size)
  | .bus (.write addr size v) => .bus (.write addr size ⟨v, v⟩)
  | .poll => .poll
  | .reset => .reset

/-- The same of an event. -/
def eventOverScalars (e : Event) : EventOf (Datum Word) := ⟨e.early, overScalars e.act⟩

/-- A word the host read is one that a read of the machine over the scalars may return. -/
def mayReturn : Returned Word → Word → Prop
  | .bits w, v => v = w
  | .scalar x, v => v = x
  | .unspecified, _ => True

/-- A state of the machine over the words shows a state of the machine over the scalars. -/
def shows (p : Params) (s : State) (m : ElementMachine Word) : Prop :=
  m.hw = elementsOf p s ∧ m.script = s.script.map eventOverScalars ∧ List.Forall₂ mayReturn m.seen s.seen

end Sys2Proof.Machine
end

