-- ==== Sys2Proof/Laws/Elements.lean ====
section
/-! SUPPORT. The machine over the words does, word by word, what the machine over the scalars does (00_scope.md R7,
40_numerics.md R120): where a command has a result there, it has the same one here (`elementExec_refines`), and where
a step of the machine over the scalars has one, a step here shows it (`elementStep_refines`). -/

namespace Sys2Proof.Machine

/-! ## Memory -/

/-- The memories lie apart (20_memory.md R61). -/
theorem regions_apart {p : Params} (hp : p.regionsInOrder = true) {g g' : Region} (h : g' ≠ g) :
    regionBase p g + 8 * regionScalars p g ≤ regionBase p g' ∨
      regionBase p g' + 8 * regionScalars p g' ≤ regionBase p g := by
  simp only [Params.regionsInOrder, Bool.and_eq_true, decide_eq_true_eq] at hp
  cases g <;> cases g' <;>
    simp only [regionBase, regionScalars, regionIsComplex, regionElements, if_true, Bool.false_eq_true, if_false,
      ne_eq, not_true_eq_false] at h ⊢ <;> omega

/-- The scalars after words are written from the start of a memory. -/
theorem scalarsOf_writeWords {p : Params} (hp : p.regionsInOrder = true) (m : Memory) (g : Region) (ws : List Word)
    (hl : ws.length ≤ regionScalars p g) :
    scalarsOf p (writeWords m (regionBase p g) ws) =
      fun g' j => if g' = g ∧ j < ws.length then ws[j]? else scalarsOf p m g' j := by
  funext g' j
  by_cases hg : g' = g
  · subst hg
    by_cases hj : j < ws.length
    · have hj' : j < regionScalars p g' := by omega
      simp [scalarsOf, hj, hj', readWord_writeWords m _ ws j hj]
    · by_cases hr : j < regionScalars p g'
      · have := readWord_writeWords_outside m (regionBase p g') ws (regionBase p g' + 8 * j) (by omega)
        simp [scalarsOf, hj, hr, this]
      · simp [scalarsOf, hj, hr]
  · by_cases hr : j < regionScalars p g'
    · have ha := regions_apart hp hg
      have := readWord_writeWords_outside m (regionBase p g) ws (regionBase p g' + 8 * j) (by omega)
      simp [scalarsOf, hg, hr, this]
    · simp [scalarsOf, hg, hr]

/-- A word of which the first byte is erased holds no value. -/
theorem readWord_eraseBytes_inside (m : Memory) (b n a : Nat) (h : b ≤ a ∧ a < b + n) :
    readWord (eraseBytes m b n) a = none := by
  simp [readWord, readBytes, readByte_eraseBytes, h.1, h.2]

/-- The scalars after the first words of a memory are erased. -/
theorem scalarsOf_eraseBytes {p : Params} (hp : p.regionsInOrder = true) (m : Memory) (g : Region) (n : Nat)
    (hn : n ≤ regionScalars p g) :
    scalarsOf p (eraseBytes m (regionBase p g) (8 * n)) =
      fun g' j => if g' = g ∧ j < n then none else scalarsOf p m g' j := by
  funext g' j
  have hout : ∀ a, a + 8 ≤ regionBase p g ∨ regionBase p g + 8 * n ≤ a →
      readWord (eraseBytes m (regionBase p g) (8 * n)) a = readWord m a := fun a ha =>
    readWord_congr a fun i hi => by rw [readByte_eraseBytes, if_neg (by omega)]
  by_cases hg : g' = g
  · subst hg
    by_cases hj : j < n
    · have hj' : j < regionScalars p g' := by omega
      have := readWord_eraseBytes_inside m (regionBase p g') (8 * n) (regionBase p g' + 8 * j) (by omega)
      simp [scalarsOf, hj, this]
    · by_cases hr : j < regionScalars p g'
      · simp [scalarsOf, hj, hr, hout (regionBase p g' + 8 * j) (by omega)]
      · simp [scalarsOf, hj, hr]
  · by_cases hr : j < regionScalars p g'
    · have := regions_apart hp hg
      simp [scalarsOf, hg, hr, hout (regionBase p g' + 8 * j) (by omega)]
    · simp [scalarsOf, hg, hr]

/-- Scalars that hold values are words that hold them. -/
theorem readWords_of_readRun {p : Params} {m : Memory} {g : Region} {first n : Nat} {xs : List Word}
    (h : readRun (scalarsOf p m g) first n = some xs) : readWords m (regionBase p g + 8 * first) n = some xs := by
  induction n generalizing first xs with
  | zero => simpa [readRun, readWords] using h
  | succ n ih =>
    unfold readRun at h
    split at h
    · rename_i x ys hx hys
      have hw : readWord m (regionBase p g + 8 * first) = some x := by
        unfold scalarsOf at hx
        split at hx
        · exact hx
        · cases hx
      have := ih hys
      rw [show regionBase p g + 8 * (first + 1) = regionBase p g + 8 * first + 8 by omega] at this
      simp only [readWords, hw, this]
      exact h
    · cases h

/-- The operand of a command, read from element 0 on. -/
theorem readScalars_of_readRun {p : Params} {m : Memory} {g : Region} {n : Nat} {xs : List Word}
    (h : readRun (scalarsOf p m g) 0 n = some xs) : readScalars p m g 0 n = some xs := by
  simpa [readScalars, elementAddr] using readWords_of_readRun h

/-- The same for complex elements. -/
theorem readComplex_of_readRun {p : Params} {m : Memory} {g : Region} {n : Nat} {xs : List Word}
    (h : readRun (scalarsOf p m g) 0 (2 * n) = some xs) : readComplex p m g 0 n = some (complexOfWords xs) := by
  have := readWords_of_readRun h
  simp only [Nat.mul_zero, Nat.add_zero] at this
  simp [readComplex, elementAddr, this]

/-! ## The bodies of the commands -/

variable {p : Params} {s : State}

/-- Words written from the start of a memory, as scalars. -/
theorem elementsOf_store (hp : p.regionsInOrder = true) (g : Region) (ws : List Word)
    (hl : ws.length ≤ regionScalars p g) :
    elementsOf p { s with mem := writeWords s.mem (elementAddr p g 0) ws } = storeRun g ws (elementsOf p s) := by
  simp [elementsOf, storeRun, elementAddr, scalarsOf_writeWords hp s.mem g ws hl]

theorem elementsOf_dropFrame (hp : p.regionsInOrder = true) (hw : windowSize s ≤ p.wMax) :
    elementsOf p (dropFrame p s) = dropRun .frm (2 * windowSize s) (elementsOf p s) := by
  have h := scalarsOf_eraseBytes hp s.mem .frm (2 * windowSize s)
    (by simp only [regionScalars, regionIsComplex, regionElements, if_true]; omega)
  rw [show 8 * (2 * windowSize s) = 16 * windowSize s by omega] at h
  simp [elementsOf, dropRun, dropFrame, elementAddr, h]

theorem elementsOf_generateWindow (hp : p.regionsInOrder = true) (hw : windowSize s ≤ p.wMax) :
    elementsOf p (generateWindow p s) = elementGenerateWindow (machineNum p) (elementsOf p s) := by
  have h := elementsOf_store (s := s) hp .win (hannWindow (machineNum p) (windowSize s))
    (by simpa [regionScalars, regionIsComplex, regionElements, hannWindow_length] using hw)
  exact congrArg (fun t : ElementState Word => { t with status := setWinok true s.status }) h

theorem elementsOf_ensureWindow (hp : p.regionsInOrder = true) (hw : windowSize s ≤ p.wMax) :
    elementsOf p (ensureWindow p s) = elementEnsureWindow (machineNum p) (elementsOf p s) := by
  unfold ensureWindow elementEnsureWindow
  by_cases h : s.status.winok = true
  · simp [h, elementsOf]
  · rw [if_neg h, if_neg (show ¬(elementsOf p s).status.winok = true from h), elementsOf_generateWindow hp hw]

theorem elementsOf_transformFrame (hp : p.regionsInOrder = true) (hw : windowSize s ≤ p.wMax)
    {f : Nat → List (Cx Word) → List (Cx Word)} (hf : ∀ n x, x.length = 2 ^ n → (f n x).length = 2 ^ n)
    {t : ElementState Word} (h : elementTransform f (elementsOf p s) = some t) :
    elementsOf p (transformFrame p f s) = t := by
  unfold elementTransform at h
  obtain ⟨x, hx, rfl⟩ := Option.map_eq_some_iff.mp h
  have hr : readFrame p s = some (complexOfWords x) := readComplex_of_readRun hx
  unfold transformFrame
  rw [hr]
  refine elementsOf_store hp .frm _ ?_
  rw [wordsOfComplex_length, hf _ _ (readComplex_length hr)]
  exact Nat.mul_le_mul_left 2 hw

/-- What `ensureWindow` leaves of the registers. -/
theorem ensureWindow_registers (p : Params) (s : State) :
    (ensureWindow p s).logw = s.logw ∧ (ensureWindow p s).hop = s.hop ∧ (ensureWindow p s).siglen = s.siglen ∧
      (ensureWindow p s).nframes = s.nframes := by
  rw [(ensureWindow_spec p s).2]
  exact ⟨rfl, rfl, rfl, rfl⟩

/-- A window is not longer than the signal its frames are cut from. -/
theorem analyzeSignal_flatten_length {R : Type} (num : Num R) (logw h f : Nat) (sig : List R)
    (hs : sig.length = signalSpan f (2 ^ logw) h) : (analyzeSignal num logw h f sig).flatten.length = f * 2 ^ logw := by
  rw [flatten_length_of_shape (2 ^ logw)]
  · simp [analyzeSignal]
  · intro fr hfr
    obtain ⟨i, hi, rfl⟩ := List.mem_map.mp hfr
    have hi' : i < f := List.mem_range.mp hi
    refine analyzeFrame_length num logw h sig i ?_
    rw [hs, signalSpan, if_neg (by omega)]
    exact Nat.add_le_add_right (Nat.mul_le_mul_right h (by omega)) _

theorem elementsOf_analyzeBody (hp : p.regionsInOrder = true) (hw : windowSize s ≤ p.wMax)
    (hf : analysisFrames s ≤ p.frameCap) {t : ElementState Word}
    (h : elementAnalyze (machineNum p) (elementsOf p s) = some t) : elementsOf p (analyzeBody p s) = t := by
  unfold elementAnalyze at h
  obtain ⟨sig, hx, rfl⟩ := Option.map_eq_some_iff.mp h
  have hr : readSignal p s = some sig := readScalars_of_readRun hx
  obtain ⟨hlogw, hhop, hsl, hnf⟩ := ensureWindow_registers p s
  obtain ⟨hwin, hhs, -, haf⟩ := sizes_eq_of_registers hlogw hhop hnf hsl
  have hlw : logwOf (ensureWindow p s) = logwOf s := by unfold logwOf; rw [hlogw]
  unfold analyzeBody
  rw [hr]
  have hd := elementsOf_dropFrame (s := storeAnalysis p sig (ensureWindow p s)) hp (by
    rw [show windowSize (storeAnalysis p sig (ensureWindow p s)) = windowSize (ensureWindow p s) from rfl, hwin]
    exact hw)
  refine hd.trans ?_
  have hlen : (wordsOfComplex
      (analyzeSignal (machineNum p) (logwOf s) (hopSize s) (analysisFrames s) sig).flatten).length ≤
      regionScalars p .spa := by
    rw [wordsOfComplex_length, analyzeSignal_flatten_length _ _ _ _ _ (readWords_length hr)]
    simp only [regionScalars, regionIsComplex, regionElements, if_true]
    exact Nat.mul_le_mul_left 2 (Nat.mul_le_mul hf hw)
  have hst := elementsOf_store (s := ensureWindow p s) hp .spa _ hlen
  rw [elementsOf_ensureWindow hp hw] at hst
  have hst' := congrArg
    (fun t : ElementState Word => { t with nframes := BitVec.ofNat 32 (analysisFrames s) }) hst
  rw [show windowSize (storeAnalysis p sig (ensureWindow p s)) = windowSize s from hwin]
  refine congrArg (dropRun Region.frm (2 * windowSize s)) (Eq.trans ?_ hst')
  unfold storeAnalysis
  rw [hlw, hhs, haf]
  rfl

theorem vocode_shapes {R : Type} (num : Num R) (w h : Nat) (r : R) (f : Nat) (zs : List (Cx R))
    (hz : zs.length = f * w) :
    (vocodeSpectrum num w h r (framesOf w f zs)).flatten.length = f * w ∧
      (vocodeBins num w h r (framesOf w f zs)).length = w := by
  have hb : (clearedBins num w).length = w := by simp [clearedBins]
  have hfr := framesOf_frame_length w f zs hz
  refine ⟨?_, passAfter_length num w h r w _ _ hb hfr⟩
  have hs := passEmits_shape num w h r w _ _ hb hfr
  rw [vocodeSpectrum, flatten_length_of_shape w _ hs.2, hs.1, framesOf_length]

theorem elementsOf_vocodeBody (hp : p.regionsInOrder = true) (hw : windowSize s ≤ p.wMax)
    (hf : frameCount s ≤ p.frameCap) {t : ElementState Word}
    (h : elementVocode (machineNum p) (elementsOf p s) = some t) : elementsOf p (vocodeBody p s) = t := by
  unfold elementVocode at h
  obtain ⟨x, hx, rfl⟩ := Option.map_eq_some_iff.mp h
  have hr : readSpectrum p s .spa = some (complexOfWords x) := readComplex_of_readRun hx
  unfold vocodeBody
  rw [hr]
  obtain ⟨ho, hb⟩ := vocode_shapes (machineNum p) (windowSize s) (hopSize s) (stretchFactor s) (frameCount s)
    (complexOfWords x) (readComplex_length hr)
  let frames := framesOf (windowSize s) (frameCount s) (complexOfWords x)
  let out := vocodeSpectrum (machineNum p) (windowSize s) (hopSize s) (stretchFactor s) frames
  let bins := vocodeBins (machineNum p) (windowSize s) (hopSize s) (stretchFactor s) frames
  let m1 := writeComplex p s.mem .spb 0 out.flatten
  let m2 := writeScalars p m1 .lastph 0 (bins.map BinPhase.last)
  have e1 : elementsOf p { s with mem := m1 } = storeRun .spb (wordsOfComplex out.flatten) (elementsOf p s) :=
    elementsOf_store hp .spb _ (by
      rw [wordsOfComplex_length, ho]
      exact Nat.mul_le_mul_left 2 (Nat.mul_le_mul hf hw))
  have e2 : elementsOf p { s with mem := m2 } =
      storeRun .lastph (bins.map BinPhase.last) (elementsOf p { s with mem := m1 }) :=
    elementsOf_store (s := { s with mem := m1 }) hp .lastph _ (((List.length_map _).trans hb).trans_le hw)
  have e3 : elementsOf p (storeVocoded p (complexOfWords x) s) =
      storeRun .newph (bins.map BinPhase.acc) (elementsOf p { s with mem := m2 }) :=
    elementsOf_store (s := { s with mem := m2 }) hp .newph _ (((List.length_map _).trans hb).trans_le hw)
  rw [e2, e1] at e3
  exact e3

theorem elementsOf_synthBody (hp : p.regionsInOrder = true) (hw : windowSize s ≤ p.wMax)
    (ho : outputLength (frameCount s) (windowSize s) (hopSize s) ≤ p.outCap) (bank : Bank) {t : ElementState Word}
    (h : elementSynth (machineNum p) bank (elementsOf p s) = some t) : elementsOf p (synthBody p bank s) = t := by
  unfold elementSynth at h
  obtain ⟨x, hx, rfl⟩ := Option.map_eq_some_iff.mp h
  have hr : readSpectrum p s (bankRegion bank) = some (complexOfWords x) := readComplex_of_readRun hx
  obtain ⟨hlogw, hhop, hsl, hnf⟩ := ensureWindow_registers p s
  obtain ⟨hwin, hhs, hfc, -⟩ := sizes_eq_of_registers hlogw hhop hnf hsl
  have hlw : logwOf (ensureWindow p s) = logwOf s := by unfold logwOf; rw [hlogw]
  unfold synthBody
  rw [hr]
  have hd := elementsOf_dropFrame (s := storeSynthesis p (complexOfWords x) (ensureWindow p s)) hp (by
    rw [show windowSize (storeSynthesis p (complexOfWords x) (ensureWindow p s)) =
      windowSize (ensureWindow p s) from rfl, hwin]
    exact hw)
  refine hd.trans ?_
  have hlen : (synthesizeFrames (machineNum p) (logwOf s) (hopSize s)
      (framesOf (windowSize s) (frameCount s) (complexOfWords x))).length ≤ regionScalars p .out := by
    rw [synthesizeFrames_length, framesOf_length]
    exact ho
  have hst := elementsOf_store (s := ensureWindow p s) hp .out _ hlen
  rw [elementsOf_ensureWindow hp hw] at hst
  have hst' := congrArg
    (fun t : ElementState Word =>
      { t with outlen := BitVec.ofNat 32 (outputLength (frameCount s) (windowSize s) (hopSize s)) }) hst
  rw [show windowSize (storeSynthesis p (complexOfWords x) (ensureWindow p s)) = windowSize s from hwin]
  refine congrArg (dropRun Region.frm (2 * windowSize s)) (Eq.trans ?_ hst')
  unfold storeSynthesis
  rw [hlw, hhs, hfc, hwin]
  rfl

/-- What ANALYZE writes of the registers the later commands of RUN read. -/
theorem elementAnalyze_registers {R : Type} {num : Num R} {a t : ElementState R} (h : elementAnalyze num a = some t) :
    t.logw = a.logw ∧ t.hop = a.hop ∧ t.nframes = BitVec.ofNat 32 (analysisFrames a.registers) := by
  unfold elementAnalyze at h
  obtain ⟨sig, -, rfl⟩ := Option.map_eq_some_iff.mp h
  unfold elementEnsureWindow
  split <;> exact ⟨rfl, rfl, rfl⟩

/-- VOCODE writes no register. -/
theorem elementVocode_registers {R : Type} {num : Num R} {a t : ElementState R} (h : elementVocode num a = some t) :
    t.logw = a.logw ∧ t.hop = a.hop ∧ t.nframes = a.nframes := by
  unfold elementVocode at h
  obtain ⟨x, -, rfl⟩ := Option.map_eq_some_iff.mp h
  exact ⟨rfl, rfl, rfl⟩

theorem elementsOf_runBody (hp : p.regionsInOrder = true) (hw : windowSize s ≤ p.wMax)
    (hf : analysisFrames s ≤ p.frameCap)
    (ho : outputLength (analysisFrames s) (windowSize s) (hopSize s) ≤ p.outCap) {t : ElementState Word}
    (h : elementBody (machineNum p) .run (elementsOf p s) = some t) : elementsOf p (runBody p s) = t := by
  obtain ⟨b, hb, hsy⟩ := Option.bind_eq_some_iff.mp h
  obtain ⟨a, ha, hvo⟩ := Option.bind_eq_some_iff.mp hb
  have ea := elementsOf_analyzeBody hp hw hf ha
  obtain ⟨al, ah, an⟩ := elementAnalyze_registers ha
  obtain ⟨bl, bh, bn⟩ := elementVocode_registers hvo
  have hle : (BitVec.ofNat 32 (analysisFrames s)).toNat ≤ analysisFrames s := by
    rw [BitVec.toNat_ofNat]
    exact Nat.mod_le _ _
  have haw : windowSize (analyzeBody p s) = windowSize s := by
    have : (analyzeBody p s).logw = s.logw := (congrArg ElementState.logw ea).trans al
    unfold windowSize logwOf
    rw [this]
  have haf : frameCount (analyzeBody p s) ≤ analysisFrames s := by
    have : (analyzeBody p s).nframes = BitVec.ofNat 32 (analysisFrames s) := (congrArg ElementState.nframes ea).trans an
    unfold frameCount
    rw [this]
    exact hle
  have eb := elementsOf_vocodeBody (s := analyzeBody p s) hp (haw ▸ hw) (haf.trans hf) (ea ▸ hvo)
  have hbw : windowSize (vocodeBody p (analyzeBody p s)) = windowSize s := by
    have : (vocodeBody p (analyzeBody p s)).logw = s.logw :=
      ((congrArg ElementState.logw eb).trans bl).trans al
    unfold windowSize logwOf
    rw [this]
  have hbh : hopSize (vocodeBody p (analyzeBody p s)) = hopSize s := by
    have : (vocodeBody p (analyzeBody p s)).hop = s.hop := ((congrArg ElementState.hop eb).trans bh).trans ah
    unfold hopSize
    rw [this]
  have hbf : frameCount (vocodeBody p (analyzeBody p s)) ≤ analysisFrames s := by
    have : (vocodeBody p (analyzeBody p s)).nframes = BitVec.ofNat 32 (analysisFrames s) :=
      ((congrArg ElementState.nframes eb).trans bn).trans an
    unfold frameCount
    rw [this]
    exact hle
  have hout : outputLength (frameCount (vocodeBody p (analyzeBody p s)))
      (windowSize (vocodeBody p (analyzeBody p s))) (hopSize (vocodeBody p (analyzeBody p s))) ≤ p.outCap := by
    rw [hbw, hbh]
    exact (Nat.add_le_add_right (Nat.mul_le_mul_right _ hbf) _).trans ho
  have es := elementsOf_synthBody (s := vocodeBody p (analyzeBody p s)) hp (hbw ▸ hw) hout .spb (eb ▸ hsy)
  have hr : ∃ sig, readSignal p s = some sig := by
    unfold elementAnalyze at ha
    obtain ⟨sig, hx, -⟩ := Option.map_eq_some_iff.mp ha
    exact ⟨sig, readScalars_of_readRun hx⟩
  obtain ⟨sig, hr⟩ := hr
  unfold runBody
  rw [hr]
  exact es

/-- A command that passed its checks works within the capacities (60_exceptions.md R242, R243). -/
theorem within_capacities {i : Instr} (hc : configError p i s = false) (hk : capacityError p i s = false) :
    (i ≠ .nop → windowSize s ≤ p.wMax) ∧
    (i = .analyze ∨ i = .run → analysisFrames s ≤ p.frameCap) ∧
    (i = .vocode ∨ (∃ b, i = .synth b) → frameCount s ≤ p.frameCap) ∧
    ((∃ b, i = .synth b) → outputLength (frameCount s) (windowSize s) (hopSize s) ≤ p.outCap) ∧
    (i = .run → outputLength (analysisFrames s) (windowSize s) (hopSize s) ≤ p.outCap) := by
  have hw : logwOf s ≤ p.logwMax → windowSize s ≤ p.wMax := Nat.pow_le_pow_right (by decide)
  cases i <;>
    simp_all [configError, capacityError, transformConfigError, windowConfigError, passConfigError, windowTooLarge,
      analyzeCapError, vocodeCapError, synthCapError, runCapError, tooManyFrames, outputTooLong]

/-- A body that has a result over the scalars has the same one over the words. -/
theorem elementsOf_bodyOf (hp : p.regionsInOrder = true) {i : Instr} (hc : configError p i s = false)
    (hk : capacityError p i s = false) {t : ElementState Word}
    (h : elementBody (machineNum p) i (elementsOf p s) = some t) : elementsOf p (bodyOf p i s) = t := by
  obtain ⟨hw, ha, hv, ho, hr⟩ := within_capacities hc hk
  cases i with
  | nop => exact Option.some.inj h
  | fft => exact elementsOf_transformFrame hp (hw (by simp)) (fft_length _) h
  | ifft => exact elementsOf_transformFrame hp (hw (by simp)) (ifft_length _) h
  | wingen => exact (elementsOf_generateWindow hp (hw (by simp))).trans (Option.some.inj h)
  | analyze => exact elementsOf_analyzeBody hp (hw (by simp)) (ha (.inl rfl)) h
  | vocode => exact elementsOf_vocodeBody hp (hw (by simp)) (hv (.inl rfl)) h
  | synth bank => exact elementsOf_synthBody hp (hw (by simp)) (ho ⟨bank, rfl⟩) bank h
  | run => exact elementsOf_runBody hp (hw (by simp)) (ha (.inr rfl)) (hr rfl) h

/-- The checks read the registers alone. -/
theorem checks_of_registers (i : Instr) :
    configError p i (elementsOf p s).registers = configError p i s ∧
      capacityError p i (elementsOf p s).registers = capacityError p i s := by
  cases i <;> exact ⟨rfl, rfl⟩

/-- Under every configuration, a command that has a result over the scalars answers a next state with it
(00_scope.md R7, 40_numerics.md R120). -/
theorem elementExec_refines (hp : p.regionsInOrder = true) (i : Instr) {t : ElementState Word}
    (h : elementExec p (machineNum p) i (elementsOf p s) = some t) :
    ∃ s', execWith p i s = .next s' ∧ elementsOf p s' = t := by
  have he : execWith p i s = perform (configError p i s) (capacityError p i s) (bodyOf p i) s := by cases i <;> rfl
  unfold elementExec at h
  rw [(checks_of_registers i).1, (checks_of_registers i).2] at h
  rw [he]
  unfold perform
  cases hc : configError p i s with
  | true =>
    rw [hc] at h
    exact ⟨_, rfl, Option.some.inj h⟩
  | false =>
    cases hk : capacityError p i s with
    | true =>
      rw [hc, hk] at h
      exact ⟨_, rfl, Option.some.inj h⟩
    | false =>
      rw [hc, hk] at h
      obtain ⟨u, hu, rfl⟩ := Option.map_eq_some_iff.mp h
      refine ⟨_, rfl, ?_⟩
      rw [← elementsOf_bodyOf hp hc hk hu]
      rfl

/-! ## The host -/

/-- What `placeOf` says of an address in a memory. -/
theorem inRegion_of_placeOf {a : Nat} {g : Region} (h : placeOf p a = .region g) : inRegion p g a = true := by
  unfold placeOf at h
  split at h
  · cases h
  · split at h
    · rename_i hf
      cases h
      exact List.find?_some (p := fun g => inRegion p g a) hf
    · cases h

/-- An aligned address in a memory is that of one of its scalars (20_memory.md R62). -/
theorem scalarIndex_spec (ha : p.basesAligned = true) {a : Nat} {g : Region} (h8 : a % 8 = 0)
    (h : placeOf p a = .region g) :
    scalarIndex p g a < regionScalars p g ∧ regionBase p g + 8 * scalarIndex p g a = a := by
  have hi := inRegion_of_placeOf h
  simp only [inRegion, Bool.and_eq_true, decide_eq_true_eq] at hi
  have hb : regionBase p g % 8 = 0 := by
    simp only [Params.basesAligned, List.all_cons, List.all_nil, Bool.and_true, Bool.and_eq_true,
      decide_eq_true_eq] at ha
    cases g <;> simp only [regionBase] <;> omega
  simp only [regionBytes, elementSize] at hi
  unfold scalarIndex regionScalars
  cases hc : regionIsComplex g <;> simp only [hc, if_true, Bool.false_eq_true, if_false] at hi ⊢ <;> omega

/-- The scalars after the word of one of them is replaced. -/
theorem scalarsOf_writeWord (hp : p.regionsInOrder = true) (m : Memory) (g : Region) (k : Nat) (v : Word)
    (hk : k < regionScalars p g) :
    scalarsOf p (writeWords m (regionBase p g + 8 * k) [v]) =
      fun g' j => if g' = g ∧ j = k then some v else scalarsOf p m g' j := by
  funext g' j
  have hin := readWord_writeWords m (regionBase p g + 8 * k) [v] 0 (by simp)
  have hout := readWord_writeWords_outside m (regionBase p g + 8 * k) [v] (regionBase p g' + 8 * j)
  simp only [List.length_singleton, Nat.mul_one] at hout
  by_cases hg : g' = g
  · subst hg
    by_cases hj : j = k
    · subst hj
      simpa [scalarsOf, hk] using hin
    · simp [scalarsOf, hj, hout (by omega)]
  · unfold scalarsOf
    by_cases hr : j < regionScalars p g'
    · have ha := regions_apart hp hg
      simp [hg, hr, hout (by omega)]
    · simp [hg, hr]

/-- The legality of a transaction reads STATUS alone. -/
theorem legality_of_status {s s' : State} (h : s'.status = s.status) (addr size : Nat) :
    readLegal p s' addr size = readLegal p s addr size ∧ writeLegal p s' addr size = writeLegal p s addr size := by
  unfold readLegal writeLegal
  rw [h]
  exact ⟨rfl, rfl⟩

/-- A legal read returns what the machine over the scalars may return. -/
theorem readPlace_returns (ha : p.basesAligned = true) {a : Nat} (h8 : a % 8 = 0) :
    ∃ w, (readPlace p a s).seen = w :: s.seen ∧ mayReturn (elementReadPlace p a (elementsOf p s)) w ∧
      elementsOf p (readPlace p a s) = elementsOf p s ∧ (readPlace p a s).script = s.script := by
  unfold readPlace elementReadPlace
  cases h : placeOf p a with
  | reg r => cases r <;> exact ⟨_, rfl, rfl, rfl, rfl⟩
  | hole => exact ⟨_, rfl, trivial, rfl, rfl⟩
  | region g =>
    obtain ⟨hk, hb⟩ := scalarIndex_spec ha h8 h
    have hm : (elementsOf p s).mem g (scalarIndex p g a) = readWord s.mem a := by
      change scalarsOf p s.mem g (scalarIndex p g a) = _
      simp only [scalarsOf, hk, if_true, hb]
    cases hr : readWord s.mem a with
    | none =>
      simp only [hm, hr]
      exact ⟨_, rfl, trivial, rfl, rfl⟩
    | some w =>
      simp only [hm, hr]
      exact ⟨_, rfl, rfl, rfl, rfl⟩

/-- A legal write leaves what the machine over the scalars has then. -/
theorem elementsOf_writePlace (hp : p.regionsInOrder = true) (ha : p.basesAligned = true) {a : Nat} (h8 : a % 8 = 0)
    (v : Word) : elementsOf p (writePlace p a v s) = elementWritePlace p a ⟨v, v⟩ (elementsOf p s) := by
  unfold writePlace elementWritePlace
  cases h : placeOf p a with
  | reg r => cases r <;> rfl
  | hole => rfl
  | region g =>
    obtain ⟨hk, hb⟩ := scalarIndex_spec ha h8 h
    have hw := scalarsOf_writeWord hp s.mem g (scalarIndex p g a) v hk
    rw [hb] at hw
    simp [elementsOf, hw]

/-- A host read shows what the machine over the scalars does. -/
theorem elementRead_refines (ha : p.basesAligned = true) {m : ElementMachine Word} (h : shows p s m)
    (addr size : Nat) : shows p (hostRead p addr size s) (elementRead p addr size m) := by
  obtain ⟨hh, hs, hn⟩ := h
  unfold hostRead elementRead
  rw [hh, (legality_of_status (p := p) (s := s) (s' := (elementsOf p s).registers) rfl addr size).1]
  cases hl : readLegal p s addr size with
  | false => exact ⟨rfl, hs, .cons trivial hn⟩
  | true =>
    have h8 : addr % 8 = 0 := by
      simp only [readLegal, wellPlaced, Bool.and_eq_true, decide_eq_true_eq] at hl
      exact hl.1.1.2
    obtain ⟨w, hw, hr, he, hc⟩ := readPlace_returns (s := s) ha h8
    simp only [if_true]
    refine ⟨he.symm, hs.trans (by rw [hc]), ?_⟩
    rw [hw]
    exact .cons hr hn

/-- A host write shows what the machine over the scalars does. -/
theorem elementWrite_refines (hp : p.regionsInOrder = true) (ha : p.basesAligned = true) {m : ElementMachine Word}
    (h : shows p s m) (addr size : Nat) (v : Word) :
    shows p (hostWrite p addr size v s) (elementWrite p addr size ⟨v, v⟩ m) := by
  obtain ⟨hh, hs, hn⟩ := h
  unfold hostWrite elementWrite
  rw [hh, (legality_of_status (p := p) (s := s) (s' := (elementsOf p s).registers) rfl addr size).2]
  cases hl : writeLegal p s addr size with
  | false => exact ⟨rfl, hs, hn⟩
  | true =>
    have h8 : addr % 8 = 0 := by
      simp only [writeLegal, wellPlaced, Bool.and_eq_true, decide_eq_true_eq] at hl
      exact hl.1.1.1.2
    have hk : (writePlace p addr v s).script = s.script ∧ (writePlace p addr v s).seen = s.seen := by
      unfold writePlace
      cases placeOf p addr with
      | reg r => cases r <;> exact ⟨rfl, rfl⟩
      | region g => exact ⟨rfl, rfl⟩
      | hole => exact ⟨rfl, rfl⟩
    simp only [if_true]
    exact ⟨(elementsOf_writePlace hp ha h8 v).symm, hs.trans (by rw [hk.1]), by rw [hk.2]; exact hn⟩

/-- Nothing is stored after a reset. -/
theorem elementsOf_resetTo : elementsOf p (resetTo (resetWith p) s) = elementReset (machineNum p) := by
  have hm : scalarsOf p State.reset.mem = fun _ _ => none := by
    funext g j
    unfold scalarsOf
    split <;> rfl
  exact congrArg (fun f => { elementReset (machineNum p) with mem := f }) hm

/-- One act of the environment shows what the machine over the scalars does. -/
theorem elementAct_refines (hp : p.regionsInOrder = true) (ha : p.basesAligned = true) {m : ElementMachine Word}
    (h : shows p s m) (a : Act) :
    shows p (environmentAct p (resetWith p) a s) (elementAct p (machineNum p) (overScalars a) m) := by
  cases a with
  | bus op =>
    cases op with
    | read addr size => exact elementRead_refines ha h addr size
    | write addr size v => exact elementWrite_refines hp ha h addr size v
  | poll => exact elementRead_refines ha h _ _
  | reset => exact ⟨elementsOf_resetTo.symm, h.2⟩

/-! ## One step -/

/-- A command leaves alone what the environment will do and what the host has seen. -/
theorem bodyOf_keeps (i : Instr) : (bodyOf p i s).script = s.script ∧ (bodyOf p i s).seen = s.seen := by
  have hen : ∀ s : State, (ensureWindow p s).script = s.script ∧ (ensureWindow p s).seen = s.seen := fun s => by
    unfold ensureWindow
    split <;> exact ⟨rfl, rfl⟩
  have hfr : ∀ s : State, (ensureWindowFreely p s).script = s.script ∧ (ensureWindowFreely p s).seen = s.seen :=
    fun s => by
      unfold ensureWindowFreely
      split
      · exact ⟨rfl, rfl⟩
      · split <;> exact ⟨rfl, rfl⟩
  have han : ∀ s : State, (analyzeBody p s).script = s.script ∧ (analyzeBody p s).seen = s.seen := fun s => by
    unfold analyzeBody
    split
    · exact hen s
    · exact hfr s
  have hvo : ∀ s : State, (vocodeBody p s).script = s.script ∧ (vocodeBody p s).seen = s.seen := fun s => by
    unfold vocodeBody
    split <;> exact ⟨rfl, rfl⟩
  have hsy : ∀ (b : Bank) (s : State),
      (synthBody p b s).script = s.script ∧ (synthBody p b s).seen = s.seen := fun b s => by
    unfold synthBody
    split
    · exact hen s
    · exact hfr s
  have htr : ∀ f, (transformFrame p f s).script = s.script ∧ (transformFrame p f s).seen = s.seen := fun f => by
    unfold transformFrame
    split <;> exact ⟨rfl, rfl⟩
  cases i with
  | nop => exact ⟨rfl, rfl⟩
  | fft => exact htr _
  | ifft => exact htr _
  | wingen => exact ⟨rfl, rfl⟩
  | analyze => exact han s
  | vocode => exact hvo s
  | synth bank => exact hsy bank s
  | run =>
    change (runBody p s).script = _ ∧ (runBody p s).seen = _
    unfold runBody
    split
    · have h := hsy .spb (vocodeBody p (analyzeBody p s))
      have hv := hvo (analyzeBody p s)
      exact ⟨h.1.trans (hv.1.trans (han s).1), h.2.trans (hv.2.trans (han s).2)⟩
    · exact hfr s

theorem execWith_keeps {i : Instr} {s' : State} (h : execWith p i s = .next s') :
    s'.script = s.script ∧ s'.seen = s.seen := by
  have he : execWith p i s = perform (configError p i s) (capacityError p i s) (bodyOf p i) s := by cases i <;> rfl
  rw [he] at h
  unfold perform at h
  split at h
  · cases h
    exact ⟨rfl, rfl⟩
  · split at h
    · cases h
      exact ⟨rfl, rfl⟩
    · cases h
      exact bodyOf_keeps i

/-- A perform step that has a result over the scalars shows it. -/
theorem elementPerform_refines (hp : p.regionsInOrder = true) {m : ElementMachine Word} (h : shows p s m)
    {t : ElementState Word} (ht : elementPerform p (machineNum p) m.hw = some t) :
    ∃ s', performBy (execWith p) s = .next s' ∧ shows p s' { m with hw := t } := by
  obtain ⟨hh, hs, hn⟩ := h
  rw [hh] at ht
  unfold elementPerform at ht
  change (match decode s.cmd with | .ok i => _ | .error _ => _) = _ at ht
  unfold performBy
  cases hd : decode s.cmd with
  | error e =>
    rw [hd] at ht
    exact ⟨_, rfl, (Option.some.inj ht).symm, hs, hn⟩
  | ok i =>
    rw [hd] at ht
    obtain ⟨s', hx, ht'⟩ := elementExec_refines hp i ht
    obtain ⟨hk, hv⟩ := execWith_keeps hx
    exact ⟨s', hx, ht'.symm, hs.trans (by rw [hk]), by rw [hv]; exact hn⟩

/-- Whose turn it is does not depend on what a write carries. -/
theorem nextMove_overScalars (busy : Bool) (l : List Event) :
    nextMove busy (l.map eventOverScalars) =
      match nextMove busy l with
      | .engine => .engine
      | .environment a rest => .environment (overScalars a) (rest.map eventOverScalars)
      | .idle => .idle := by
  cases l with
  | nil => cases busy <;> rfl
  | cons e rest =>
    have hr : scriptAfter busy (eventOverScalars e) (rest.map eventOverScalars) =
        (scriptAfter busy e rest).map eventOverScalars := by
      obtain ⟨n, a⟩ := e
      cases a with
      | bus op => cases op <;> rfl
      | poll => cases busy <;> rfl
      | reset => rfl
    simp only [nextMove, List.map_cons, hr]
    change (if busy && e.early == 0 then _ else _) = _
    cases busy && e.early == 0 <;> rfl

/-- Under every configuration of 00_scope.md R7 and 20_memory.md R61, a step of the machine over the scalars is shown
by a step of the machine over the words. -/
theorem elementStep_refines (hl : p.legal = true) {m m' : ElementMachine Word} (h : shows p s m)
    (hm : elementStep p (machineNum p) m = some m') : ∃ s', stepWith p s = .next s' ∧ shows p s' m' := by
  simp only [Params.legal, Bool.and_eq_true] at hl
  obtain ⟨⟨-, ha⟩, hp⟩ := hl
  obtain ⟨hh, hs, hn⟩ := h
  unfold elementStep at hm
  rw [hs, show m.hw.status.busy = s.status.busy by rw [hh]; rfl, nextMove_overScalars] at hm
  unfold stepWith stepBy
  cases hv : nextMove s.status.busy s.script with
  | engine =>
    rw [hv] at hm
    obtain ⟨t, ht, rfl⟩ := Option.map_eq_some_iff.mp hm
    obtain ⟨s', hx, hw⟩ := elementPerform_refines hp ⟨hh, hs, hn⟩ ht
    refine ⟨s', hx, hw.1, ?_, hw.2.2⟩
    rw [← hs]
    exact hw.2.1
  | environment a rest =>
    rw [hv] at hm
    cases hm
    exact ⟨_, rfl, elementAct_refines hp ha (s := { s with script := rest }) (m := { m with script := rest.map eventOverScalars }) ⟨hh, rfl, hn⟩ a⟩
  | idle =>
    rw [hv] at hm
    cases hm
    exact ⟨s, rfl, hh, hs, hn⟩

end Sys2Proof.Machine
end

