-- ==== Sys2Proof/Laws/Numerics.lean ====
section
/-! SUPPORT. The laws of the binary64 primitives: what rounding to nearest even answers, what the integer square
root answers, how a word comes apart into sign and magnitude and is put together again. -/

namespace Sys2Proof.Machine

/-- `nearestEven n d` is within half a unit of n/d, and even where two integers are equally near. -/
theorem nearestEven_spec (n d : Nat) (hd : 0 < d) :
    2 * n ≤ (2 * nearestEven n d + 1) * d ∧ 2 * nearestEven n d * d ≤ 2 * n + d ∧
      (2 * n = (2 * nearestEven n d + 1) * d ∨ 2 * nearestEven n d * d = 2 * n + d →
        nearestEven n d % 2 = 0) := by
  have hq : n = n / d * d + n % d := (Nat.div_add_mod' n d).symm
  have hr : n % d < d := Nat.mod_lt _ hd
  generalize hN : nearestEven n d = q
  unfold nearestEven at hN
  generalize n / d = k at *
  generalize n % d = r at *
  subst hq
  split at hN
  · subst hN
    refine ⟨by nlinarith, by nlinarith, ?_⟩
    rintro (h | h) <;> nlinarith
  · split at hN
    · subst hN
      refine ⟨by nlinarith, by nlinarith, ?_⟩
      rintro (h | h) <;> nlinarith
    · split at hN <;> subst hN
      · refine ⟨by nlinarith, by nlinarith, fun _ => by assumption⟩
      · refine ⟨by nlinarith, by nlinarith, fun _ => by omega⟩

/-- An exact quotient rounds to itself. -/
theorem nearestEven_mul_self (k d : Nat) (hd : 0 < d) : nearestEven (k * d) d = k := by
  unfold nearestEven
  rw [Nat.mul_mod_left, Nat.mul_div_cancel _ hd]
  simp [hd]

theorem isqrtFrom_spec (b n acc : Nat) (h1 : acc * acc ≤ n)
    (h2 : n < (acc + 2 ^ b) * (acc + 2 ^ b)) :
    isqrtFrom b n acc * isqrtFrom b n acc ≤ n ∧
      n < (isqrtFrom b n acc + 1) * (isqrtFrom b n acc + 1) := by
  induction b generalizing acc with
  | zero => simpa [isqrtFrom] using ⟨h1, h2⟩
  | succ b ih =>
    unfold isqrtFrom
    split
    · rename_i h
      refine ih _ h ?_
      rw [show acc + 2 ^ b + 2 ^ b = acc + 2 ^ (b + 1) by rw [pow_succ]; omega]
      exact h2
    · rename_i h
      exact ih _ h1 (by omega)

/-- `isqrt n` is the integer part of the square root of n. -/
theorem isqrt_spec (n : Nat) : isqrt n * isqrt n ≤ n ∧ n < (isqrt n + 1) * (isqrt n + 1) := by
  refine isqrtFrom_spec _ n 0 (by simp) ?_
  rw [Nat.zero_add, ← pow_add]
  refine lt_of_lt_of_le (Nat.lt_log2_self (n := n)) (Nat.pow_le_pow_right (by omega) ?_)
  omega

theorem magOf_lt (w : Word) : magOf w < 2 ^ 63 := Nat.mod_lt _ (by omega)

theorem toNat_eq_sign_mag (w : Word) : w.toNat = (if signOf w then 2 ^ 63 else 0) + magOf w := by
  have := w.isLt
  unfold signOf magOf
  split <;> simp_all <;> omega

theorem packWord_toNat (s : Bool) (m : Nat) (h : m < 2 ^ 63) :
    (packWord s m).toNat = (if s then 2 ^ 63 else 0) + m := by
  unfold packWord
  rw [BitVec.toNat_ofNat, Nat.mod_eq_of_lt]
  split <;> omega

/-- Sign and magnitude, taken apart after being put together. -/
theorem packWord_parts (s : Bool) (m : Nat) (h : m < 2 ^ 63) :
    signOf (packWord s m) = s ∧ magOf (packWord s m) = m := by
  unfold signOf magOf
  rw [packWord_toNat s m h]
  cases s <;> simp <;> omega

/-- A word is its sign and its magnitude. -/
theorem packWord_sign_mag (w : Word) : packWord (signOf w) (magOf w) = w := by
  apply BitVec.eq_of_toNat_eq
  rw [packWord_toNat _ _ (magOf_lt w), ← toNat_eq_sign_mag]

theorem roundUnits_le (n d : Nat) : roundUnits n d ≤ infBits := min_le_left _ _

/-- Whatever bits are free, the word made of them is a NaN (R132). -/
theorem isNaN_someNaN (b : Word) : isNaN (someNaN b) = true := by
  unfold someNaN
  split
  · assumption
  · have hle : (0x7FF0000000000001#64).toNat ≤ magOf (b ||| 0x7FF0000000000001#64) := by
      have h : (b ||| 0x7FF0000000000001#64) % 0x8000000000000000#64 &&& 0x7FF0000000000001#64 =
          0x7FF0000000000001#64 := by
        have h1 : (b ||| 0x7FF0000000000001#64) % 0x8000000000000000#64 =
            (b ||| 0x7FF0000000000001#64) &&& 0x7FFFFFFFFFFFFFFF#64 := by
          apply BitVec.eq_of_toNat_eq
          rw [BitVec.toNat_umod, BitVec.toNat_and]
          exact (Nat.and_two_pow_sub_one_eq_mod (b ||| 0x7FF0000000000001#64).toNat 63).symm
        rw [h1]
        ext i hi
        simp only [BitVec.getElem_and, BitVec.getElem_or]
        interval_cases i <;> simp
      have h2 := congrArg BitVec.toNat h
      rw [BitVec.toNat_and, BitVec.toNat_umod] at h2
      have h3 := Nat.and_le_left (n := (b ||| 0x7FF0000000000001#64).toNat % (0x8000000000000000#64).toNat)
        (m := (0x7FF0000000000001#64).toNat)
      rw [h2] at h3
      exact h3
    have : infBits < (0x7FF0000000000001#64).toNat := by decide
    simp only [isNaN, decide_eq_true_eq]
    exact lt_of_lt_of_le this hle

end Sys2Proof.Machine
end

