-- ==== Sys2Proof/Laws/PerInstr.lean ====
section
/-! SUPPORT. Statements for all instructions, one lemma per constructor of `Instr`. -/

/-- The encoding of the command is a legal command word (R103) that the decoder reads back as the command (R105). -/
def Sys2Proof.Laws.RoundTrip.Statement (i : Sys2Proof.Instr) : Prop :=
  i.wf = true ∧ Sys2Proof.commandWordLegal (Sys2Proof.encode i) = true ∧
    Sys2Proof.decode (Sys2Proof.encode i) = .ok i

namespace Sys2Proof.Laws.RoundTrip

theorem nop : Statement .nop := ⟨rfl, rfl, rfl⟩

theorem fft : Statement .fft := ⟨rfl, rfl, rfl⟩

theorem ifft : Statement .ifft := ⟨rfl, rfl, rfl⟩

theorem wingen : Statement .wingen := ⟨rfl, rfl, rfl⟩

theorem analyze : Statement .analyze := ⟨rfl, rfl, rfl⟩

theorem vocode : Statement .vocode := ⟨rfl, rfl, rfl⟩

theorem synth (bank : Sys2Proof.Bank) : Statement (.synth bank) := by
  cases bank <;> exact ⟨rfl, rfl, rfl⟩

theorem run : Statement .run := ⟨rfl, rfl, rfl⟩

end Sys2Proof.Laws.RoundTrip
end

