-- ==== Sys2Proof/Tests/Slice0.lean ====
section
/-! SUPPORT. Tests: what the well-formedness checks refuse, command words written out from 30_encoding.md R102, one
step of each command with the result the vectors of 95_test_vectors.md give, and, for every obligation with
hypotheses, concrete values that meet them. -/

namespace Sys2Proof.Machine.Tests

-- Each kernel evaluation below waits for the theorems before it; one after another, no thread is held waiting.
set_option Elab.async false

open Sys2Proof Sys2Proof.Machine

/-! ## Well-formedness -/

/-- R103, first condition, at both ends of its range. -/
theorem test_word_opcode_refused :
    commandWordLegal 0x8 = false ∧ commandWordLegal 0xFF = false ∧ commandWordLegal 0x7 = true := by decide +kernel

/-- R103, second condition, at both ends of its range. -/
theorem test_word_reserved_bits_refused :
    commandWordLegal 0x206 = false ∧ commandWordLegal 0x8000000000000000 = false := by decide +kernel

/-- R103, third condition. -/
theorem test_word_bank_refused :
    commandWordLegal 0x107 = false ∧ commandWordLegal 0x100 = false ∧ commandWordLegal 0x106 = true := by
  decide +kernel

/-- The parameters of PVCORE meet R7 and R61; every command is well formed. -/
theorem test_params_legal : Config.params.legal = true ∧ (Instr.synth .spa).wf = true := by decide +kernel

/-- R7: LOGW_MAX is in 10..20. -/
theorem test_logwMax_refused :
    Params.legal { Config.params with logwMax := 9 } = false ∧ Params.capsLegal { Config.params with logwMax := 21, sigCap := 2 ^ 21 } = false := by
  decide +kernel

/-- R7: SIG_CAP is at least W_MAX and below 2^32. -/
theorem test_sigCap_refused :
    Params.capsLegal { Config.params with sigCap := 1023 } = false ∧ Params.capsLegal { Config.params with sigCap := 2 ^ 32 } = false := by decide +kernel

/-- R7: FRAME_CAP is at least 1 and below 2^32. -/
theorem test_frameCap_refused :
    Params.capsLegal { Config.params with frameCap := 0 } = false ∧ Params.capsLegal { Config.params with frameCap := 2 ^ 32 } = false := by decide +kernel

/-- R7: OUT_CAP is at least W_MAX and below 2^32. -/
theorem test_outCap_refused :
    Params.capsLegal { Config.params with outCap := 1023 } = false ∧ Params.capsLegal { Config.params with outCap := 2 ^ 32 } = false := by decide +kernel

/-- R61: bases are multiples of 8; regions are disjoint, in order, inside the aperture. -/
theorem test_regions_refused :
    Params.basesAligned { Config.params with baseSig := 0x800004 } = false ∧ Params.regionsInOrder { Config.params with baseLastph := 0x3FF8 } = false ∧
    Params.regionsInOrder { Config.params with baseOut := 0x400000 } = false ∧
    Params.regionsInOrder { Config.params with apertureSize := 0xBFFFFF8 } = false := by
  decide +kernel

/-! ## Command words, written out from the fields of R100 and the table of R102 (V7.2) -/

/-- Reserved bits 63:9, BANK, OPC, each field in binary digits. -/
theorem test_decode_written_words :
    decode ((0 : BitVec 55) ++ 0b0#1 ++ 0b00000000#8) = .ok .nop ∧
    decode ((0 : BitVec 55) ++ 0b0#1 ++ 0b00000001#8) = .ok .fft ∧
    decode ((0 : BitVec 55) ++ 0b0#1 ++ 0b00000010#8) = .ok .ifft ∧
    decode ((0 : BitVec 55) ++ 0b0#1 ++ 0b00000011#8) = .ok .wingen ∧
    decode ((0 : BitVec 55) ++ 0b0#1 ++ 0b00000100#8) = .ok .analyze ∧
    decode ((0 : BitVec 55) ++ 0b0#1 ++ 0b00000101#8) = .ok .vocode ∧
    decode ((0 : BitVec 55) ++ 0b0#1 ++ 0b00000110#8) = .ok (.synth .spb) ∧
    decode ((0 : BitVec 55) ++ 0b1#1 ++ 0b00000110#8) = .ok (.synth .spa) ∧
    decode ((0 : BitVec 55) ++ 0b0#1 ++ 0b00000111#8) = .ok .run := by
  decide +kernel

/-- The illegal words of V7.2. -/
theorem test_decode_illegal_words :
    decode 0x107 = .error .bankWithoutSynth ∧ decode 0x100 = .error .bankWithoutSynth ∧
    decode 0x8 = .error .reservedOpcode ∧ decode 0xFF = .error .reservedOpcode ∧
    decode 0x206 = .error .reservedBits ∧ decode 0x8000000000000000 = .error .reservedBits ∧
    decode 0xFFFFFFFFFFFFFFFF = .error .reservedOpcode := by
  decide +kernel

/-- Of a shorter word the bits above are 0; the bytes lie little-endian. -/
theorem test_decodeTableWord :
    decodeTableWord 64 0x106 = some (.synth .spa) ∧ decodeTableWord 8 0x07 = some .run ∧
    decodeTableWord 64 0x105 = none ∧ decodeBytes [0x06, 0x01, 0, 0, 0, 0, 0, 0] = some (.ok (.synth .spa)) ∧
    decodeBytes [0x06] = none := by
  decide +kernel

/-! ## Small states -/

/-- The state an outcome leads to, or another one where it leads to none. -/
def resultOf (o : Host.Outcome State Fault Refusal) (other : State) : State :=
  match o with
  | .next t => t
  | .fault _ => other
  | .refused _ => other

/-- The reset state with LOGW, HOP, SIGLEN, NFRAMES and memory set. -/
def small (logw hop siglen nframes : Nat) (m : Memory) : State :=
  { State.reset with
    logw := BitVec.ofNat 5 logw
    hop := BitVec.ofNat 32 hop
    siglen := BitVec.ofNat 32 siglen
    nframes := BitVec.ofNat 32 nframes
    mem := m }

/-- W = 1, `FRM[0] = (3, 4)` (V1.2). -/
def frameOfOne : State := small 0 1 0 0 (writeWords [] 0x8000 [0x4008000000000000, 0x4010000000000000])

/-- W = 2, H = 1, `SIG[0..2) = [1, 1]`. -/
def twoSamples : State := small 1 1 2 0 (writeWords [] 0x800000 [0x3FF0000000000000, 0x3FF0000000000000])

/-- W = 2, H = 1, r = 1.5, F = 1, `SPA[0] = [(-1, +0), (+0, +0)]` (V4.3). -/
def oneSpectrum : State := small 1 1 0 1 (writeWords [] 0x4000000 [0xBFF0000000000000, 0, 0, 0])

/-- W = 2, H = 1, F = 1, `SPB[0] = [(0, 2), (0, 0)]` (V5.4). -/
def oneVocoded : State := small 1 1 0 1 (writeWords [] 0x8000000 [0, 0x4000000000000000, 0, 0])

/-- A command in flight. -/
def inFlight (w : Word) (s : State) : State := issue w s

/-! ## One step of each command -/

/-- V6.1: NOP clears ERR and ERRCODE with its issue and sets DONE, also with LOGW = 31 and HOP = 0. -/
theorem test_nop :
    statusWord (resultOf (step (inFlight 0 (raiseCmdError .cfg (small 31 0 0 0 [])))) State.reset).status = 0x2 := by
  decide +kernel

/-- V1.2: FFT with W = 1 leaves the element as it was; STATUS 0x002. -/
theorem test_fft_one :
    readFrame Config.params (resultOf (exec .fft frameOfOne) State.reset) =
      some [⟨0x4008000000000000, 0x4010000000000000⟩] ∧
    statusWord (resultOf (exec .fft frameOfOne) State.reset).status = 0x2 := by
  decide +kernel

/-- V1.3: `fft [(1, 0), (2, 0)] = [(3, 0), (-1, 0)]`, every zero +0. -/
theorem test_fft_two :
    readFrame Config.params
        (resultOf (exec .fft (small 1 1 0 0
          (writeWords [] 0x8000 [0x3FF0000000000000, 0, 0x4000000000000000, 0]))) State.reset) =
      some [⟨0x4008000000000000, 0⟩, ⟨0xBFF0000000000000, 0⟩] := by
  decide +kernel

/-- V1.3: `ifft [(3, 0), (-1, 0)] = [(1, -0), (2, +0)]`. -/
theorem test_ifft_two :
    readFrame Config.params
        (resultOf (exec .ifft (small 1 1 0 0
          (writeWords [] 0x8000 [0x4008000000000000, 0, 0xBFF0000000000000, 0]))) State.reset) =
      some [⟨0x3FF0000000000000, 0x8000000000000000⟩, ⟨0x4000000000000000, 0⟩] := by
  decide +kernel

/-- V7.3: IFFT refuses LOGW = 11 with CFG, STATUS 0x204. -/
theorem test_ifft_cfg :
    statusWord (resultOf (exec .ifft (small 11 1 0 0 [])) State.reset).status = 0x204 := by
  decide +kernel

/-- V2.1: `WIN[0] = +0` whatever the cosine is; P4 line 7: WINGEN does not look at HOP, STATUS 0x00A. -/
theorem test_wingen :
    scalarAt Config.params (resultOf (exec .wingen (small 1 0 0 0 [])) State.reset).mem .win 0 = some 0 ∧
    statusWord (resultOf (exec .wingen (small 1 0 0 0 [])) State.reset).status = 0xA := by
  decide +kernel

/-- V7.3: WINGEN refuses LOGW = 0. -/
theorem test_wingen_cfg :
    statusWord (resultOf (exec .wingen (small 0 1 0 0 [])) State.reset).status = 0x204 := by
  decide +kernel

/-- V3.4 with a shorter window: a signal shorter than a window gives NFRAMES = 0, DONE and WINOK, and reads no SIG. -/
theorem test_analyze_short :
    (resultOf (exec .analyze (small 2 2 3 7 [])) State.reset).nframes = 0 ∧
    statusWord (resultOf (exec .analyze (small 2 2 3 7 [])) State.reset).status = 0xA := by
  decide +kernel

/-- V7.4: ANALYZE refuses SIGLEN = 1048577 with CAP, STATUS 0x304. -/
theorem test_analyze_cap :
    statusWord (resultOf (exec .analyze (small 10 256 1048577 0 [])) State.reset).status = 0x304 := by
  decide +kernel

/-- V4.3: the positive tie under `away`: LASTPH[0] = PI, NEWPH[0] = -4.71238898038469. -/
theorem test_vocode_positive_tie :
    scalarAt Config.params (resultOf (exec .vocode oneSpectrum) State.reset).mem .lastph 0 =
      some 0x400921FB54442D18 ∧
    scalarAt Config.params (resultOf (exec .vocode oneSpectrum) State.reset).mem .newph 0 =
      some 0xC012D97C7F3321D2 := by
  decide +kernel

/-- V4.7, third row: `SPA[0][0] = (-0, +0)` stores PI in LASTPH and -4.71238898038469 in NEWPH. -/
theorem test_vocode_negative_zero :
    scalarAt Config.params
        (resultOf (exec .vocode (small 1 1 0 1 (writeWords [] 0x4000000 [0x8000000000000000, 0, 0, 0])))
          State.reset).mem .newph 0 = some 0xC012D97C7F3321D2 := by
  decide +kernel

/-- V5.2: with F = 0 SYNTH gives W zeros, OUTLEN = W, DONE and WINOK; OUT[4] is untouched. -/
theorem test_synth_empty :
    readScalars Config.params (resultOf (exec (.synth .spb) (small 2 1 0 0 [])) State.reset).mem .out 0 4 =
      some [0, 0, 0, 0] ∧
    (resultOf (exec (.synth .spb) (small 2 1 0 0 [])) State.reset).outlen = 4 ∧
    scalarAt Config.params (resultOf (exec (.synth .spb) (small 2 1 0 0 [])) State.reset).mem .out 4 = none ∧
    statusWord (resultOf (exec (.synth .spb) (small 2 1 0 0 [])) State.reset).status = 0xA := by
  decide +kernel

/-- V7.4: NFRAMES = 4096 with HOP = 512 exceeds OUT_CAP for SYNTH, STATUS 0x304. -/
theorem test_synth_cap :
    statusWord (resultOf (exec (.synth .spa) (small 10 512 0 4096 [])) State.reset).status = 0x304 := by
  decide +kernel

/-- 46_pipeline.md R231: RUN with L < W gives NFRAMES = 0, OUTLEN = W, W zeros. -/
theorem test_run_short :
    (resultOf (exec .run (small 1 1 1 9 [])) State.reset).nframes = 0 ∧
    (resultOf (exec .run (small 1 1 1 9 [])) State.reset).outlen = 2 ∧
    readScalars Config.params (resultOf (exec .run (small 1 1 1 9 [])) State.reset).mem .out 0 2 = some [0, 0] := by
  decide +kernel

/-- V6.6: RUN refuses 4097 frames with CAP and leaves NFRAMES as it was. -/
theorem test_run_cap :
    statusWord (resultOf (exec .run (small 10 1 5120 9 [])) State.reset).status = 0x304 ∧
    (resultOf (exec .run (small 10 1 5120 9 [])) State.reset).nframes = 9 := by
  decide +kernel

/-! ## Numerics, addresses, the PCM boundary: the unmarked vectors -/

/-- V8.1: rounding at ties and at 2^52 - 0.5. -/
theorem test_round :
    b64round .away 0x3FE0000000000000 = 0x3FF0000000000000 ∧ b64round .even 0x3FE0000000000000 = 0 ∧
    b64round .away 0x4004000000000000 = 0x4008000000000000 ∧
    b64round .even 0xC004000000000000 = 0xC000000000000000 ∧ b64round .away 0x3FDFFFFFFFFFFFFF = 0 ∧
    b64round .away 0x432FFFFFFFFFFFFF = 0x4330000000000000 := by
  decide +kernel

/-- V8.3 and V8.4: a modulus, a root, an overflow and an underflow without scaling, the constants. -/
theorem test_arithmetic :
    cabs (numB64 .away) ⟨0x4008000000000000, 0x4010000000000000⟩ = 0x4014000000000000 ∧
    cabs (numB64 .away) ⟨0x3FF0000000000000, 0x3FF0000000000000⟩ = 0x3FF6A09E667F3BCD ∧
    cabs (numB64 .away) ⟨0x6974E718D7D7625A, 0x6974E718D7D7625A⟩ = 0x7FF0000000000000 ∧
    cdivN (numB64 .away) ⟨0x4024000000000000, 0xC010000000000000⟩ 4 = ⟨0x4004000000000000, 0xBFF0000000000000⟩ ∧
    b64sub 0x400921FB54442D18 0x401921FB54442D18 = 0xC00921FB54442D18 := by
  decide +kernel

/-- V8.2: the angle at zeros. -/
theorem test_atan2 :
    b64atan2 0 0xBFF0000000000000 = 0x400921FB54442D18 ∧
    b64atan2 0x8000000000000000 0x8000000000000000 = 0xC00921FB54442D18 ∧
    b64atan2 0x8000000000000000 0 = 0x8000000000000000 ∧
    b64atan2 0xBFF0000000000000 0 = 0xBFF921FB54442D18 := by
  decide +kernel

/-- V7.7: the last word of the aperture, and a bin of frame 1 with W = 8. -/
theorem test_addresses :
    imagAddr Config.params .spb (spectrumIndex 1024 4095 1023) = 0x0BFFFFF8 ∧
    elementAddr Config.params .spa (spectrumIndex 8 1 0) = 0x04000080 := by
  decide +kernel

/-- V7.8: the bytes of the scalar 1.5 at SIG[0]. -/
theorem test_byte_order :
    readBytes (hostWrite Config.params 0x800000 8 0x3FF8000000000000 State.reset).mem 0x800000 8 =
      some [0x00, 0x00, 0x00, 0x00, 0x00, 0x00, 0xF8, 0x3F] := by
  decide +kernel

/-- V9.1 and V9.2: the PCM conversions. -/
theorem test_pcm :
    pcmDecode 0x00 0x80 = 0xBFF0002000400080 ∧ pcmDecode 0x01 0x00 = 0x3F00002000400080 ∧
    pcmEncode 0x3FE0000000000000 = (0xFF, 0x3F) ∧ pcmEncode 0xBFE0000000000000 = (0x01, 0xC0) ∧
    pcmEncode 0xC000000000000000 = (0x01, 0x80) := by
  decide +kernel

/-- R107: while a command is in flight a poll reads BUSY = 1 and is repeated, one read fewer before the engine moves;
once BUSY = 0 the wait ends with that read, however many were foreseen. -/
theorem test_poll :
    (resultOf (step { inFlight 0 State.reset with script := [⟨2, .poll⟩] }) State.reset).script = [⟨1, .poll⟩] ∧
    (resultOf (step { inFlight 0 State.reset with script := [⟨2, .poll⟩] }) State.reset).seen = [1] ∧
    (resultOf (step { State.reset with script := [⟨2, .poll⟩] }) State.reset).script = [] := by
  decide +kernel

/-- R7: another configuration, LOGW_MAX = 11, generates a window that the default one refuses. -/
theorem test_configuration :
    statusWord (resultOf (execWith { Config.params with logwMax := 11 } .wingen (small 11 1 0 0 [])) State.reset).status =
      0xA ∧
    statusWord (resultOf (exec .wingen (small 11 1 0 0 [])) State.reset).status = 0x204 := by
  decide +kernel

/-- V1.2 on the machine over the scalars: FFT with W = 1 leaves the element as it was. -/
theorem test_elements_fft_one :
    (elementExec Config.params (numB64 .away) .fft (elementsOf Config.params frameOfOne)).bind
      (fun t => readRun (t.mem .frm) 0 2) = some [0x4008000000000000, 0x4010000000000000] := by
  decide +kernel

/-- The machine over the exact reals exchanges the scalar itself: √2 written to `SIG[1]`, which no word is, comes back
(20_memory.md R62). -/
theorem test_elements_exchange_a_scalar (tie : RoundTie) :
    (elementAct Config.params (numExact tie) (.bus (.read 0x800008 8))
      (elementAct Config.params (numExact tie) (.bus (.write 0x800008 8 ⟨0, Real.sqrt 2⟩))
        ⟨elementReset (numExact tie), [], []⟩)).seen = [.scalar (Real.sqrt 2)] := by
  rfl

/-- A host write to CMD issues over the exact reals too: BUSY 1 (10_state.md R30). -/
theorem test_elements_issue (tie : RoundTie) :
    (elementStep Config.params (numExact tie)
      ⟨elementReset (numExact tie), [⟨0, .bus (.write 0 8 ⟨0, 0⟩)⟩], []⟩).map (fun m => m.hw.status.busy) =
      some true := by
  rfl

/-- V7.3: LOGW stores bits 4:0 of what is written and the write clears WINOK. -/
theorem test_write_logw :
    (hostWrite Config.params 0x10 8 0x2A
      { State.reset with status := setWinok true Status.reset, logw := 3 }) = State.reset := by
  decide +kernel

/-- P4 lines 18 to 22, V7.6: illegal accesses set ACCERR. -/
theorem test_illegal_accesses :
    (hostWrite Config.params 0x38 8 5 State.reset).status.accerr = true ∧
    (hostWrite Config.params 0x2000 8 0x3FF0000000000000 State.reset).mem = [] ∧
    (hostRead Config.params 0x40 8 State.reset).status.accerr = true ∧
    (hostRead Config.params 0x14 8 State.reset).status.accerr = true ∧
    (hostRead Config.params 0x0C000000 8 State.reset).status.accerr = true ∧
    (hostRead Config.params 0x2000 8 State.reset).status.accerr = false := by
  decide +kernel

/-! ## Witnesses: values that meet the hypotheses of each obligation -/

/-- A memory of whole words holds each word whole. -/
theorem memoryWhole_of_words (b : Nat) (ws : List Word) (hb : b % 8 = 0) : memoryWhole (writeWords [] b ws) := by
  intro a ha i hi
  have hl := flatMap_bytesOfWord_length ws
  rw [writeWords, readByte_writeBytes, readByte_writeBytes, hl]
  by_cases h : b ≤ a ∧ a < b + 8 * ws.length
  · rw [if_pos h, if_pos ⟨by omega, by omega⟩, List.getElem?_eq_getElem (by omega), List.getElem?_eq_getElem (by omega)]
    rfl
  · rw [if_neg h, if_neg (by omega)]
    rfl

/-- W = 2 with the window table generated. -/
def windowOfTwo : State :=
  { small 1 1 0 0 (writeScalars Config.params [] .win 0 (hannWindow (machineNum Config.params) 2)) with
    status := setWinok true Status.reset }

/-- IllegalWordsAreRefused: each way to be illegal at the edge of its range, and legal words. -/
theorem witness_IllegalWordsAreRefused :
    8 ≤ (inFlight 8 State.reset).cmd.toNat % 256 ∧ (inFlight 0x200 State.reset).cmd.toNat / 512 ≠ 0 ∧
    (inFlight 0x107 State.reset).cmd.getLsbD 8 = true ∧ (inFlight 0x107 State.reset).cmd.toNat % 256 ≠ 6 ∧
    ¬(8 ≤ (inFlight 0x106 State.reset).cmd.toNat % 256 ∨ (inFlight 0x106 State.reset).cmd.toNat / 512 ≠ 0 ∨
      ((inFlight 0x106 State.reset).cmd.getLsbD 8 = true ∧ (inFlight 0x106 State.reset).cmd.toNat % 256 ≠ 6)) := by
  decide +kernel

/-- StepKeepsInvariants: a command in flight on a frame that holds values. -/
theorem witness_StepKeepsInvariants :
    Inv Config.params (inFlight 1 frameOfOne) ∧ ∃ t, step (inFlight 1 frameOfOne) = .next t := by
  refine ⟨⟨writeWords_wf List.Pairwise.nil _ _, fun c hc => ⟨.frm, ?_⟩, memoryWhole_of_words _ _ rfl, rfl, ?_⟩, _, rfl⟩
  · have h : ∀ c ∈ (inFlight 1 frameOfOne).mem, inRegion Config.params .frm c.1 = true := by decide +kernel
    exact h c hc
  · exact fun h => absurd h (by decide)

/-- StepKeepsInvariants: with WINOK = 1. -/
theorem witness_StepKeepsInvariants_winok :
    Inv Config.params (inFlight 0 windowOfTwo) ∧ (inFlight 0 windowOfTwo).status.winok = true ∧
    ∃ t, step (inFlight 0 windowOfTwo) = .next t := by
  refine ⟨⟨writeWords_wf List.Pairwise.nil _ _, fun c hc => ⟨.win, ?_⟩, memoryWhole_of_words _ _ rfl, rfl, ?_⟩, rfl, _, rfl⟩
  · have h : ∀ c ∈ (inFlight 0 windowOfTwo).mem, inRegion Config.params .win c.1 = true := by decide +kernel
    exact h c hc
  · exact fun _ => ⟨by decide, by decide,
      readScalars_writeScalars Config.params [] .win 0 (hannWindow (machineNum Config.params) 2)⟩

/-- StepRunsTheDecodedCommand: with an empty script, with an event that waits, and through `withFetchWord`. -/
theorem witness_StepRunsTheDecodedCommand :
    (inFlight 7 State.reset).status.busy = true ∧ (∀ e ∈ (inFlight 7 State.reset).script.head?, e.early = 0) ∧
    decode (inFlight 7 State.reset).cmd = .ok .run ∧
    (∀ e ∈ ({ inFlight 7 State.reset with script := [⟨0, .reset⟩] } : State).script.head?, e.early = 0) ∧
    decodeTableWord 64 0x106 = some (.synth .spa) := by
  refine ⟨rfl, ?_, by decide +kernel, ?_, by decide +kernel⟩ <;> simp [inFlight, issue, State.reset]

/-- WriteToCmdIssues, RegisterMap: an idle machine; the first and the last reserved slot. -/
theorem witness_idle :
    State.reset.status.busy = false ∧ (0x40 ≤ 0x40 ∧ 0x40 < 0x100) ∧ (0x40 ≤ 0xFF ∧ 0xFF < 0x100) := by decide

/-- AddressMap: the first and the last word of each range. -/
theorem witness_AddressMap :
    (∀ a ∈ [0x0, 0x38, 0x40, 0x1FF8, 0x2000, 0x3FF8, 0x4000, 0x5FF8, 0x6000, 0x7FF8, 0x8000, 0xBFF8, 0xC000,
      0x7FFFF8, 0x800000, 0xFFFFF8, 0x1000000, 0x1FFFFF8, 0x2000000, 0x3FFFFF8, 0x4000000, 0x7FFFFF8, 0x8000000,
      0xBFFFFF8, 0xC000000], a % 8 = 0) ∧
    placeOf Config.params 0x38 = .reg .outlen ∧ placeOf Config.params 0x40 = .hole ∧
    placeOf Config.params 0x3FF8 = .region .win ∧ placeOf Config.params 0x4000 = .region .lastph ∧
    placeOf Config.params 0xBFF8 = .region .frm ∧ placeOf Config.params 0xC000 = .hole ∧
    placeOf Config.params 0xBFFFFF8 = .region .spb ∧ placeOf Config.params 0xC000000 = .hole := by
  decide +kernel

/-- IllegalAccessSetsAccerrOnly: each way to be illegal. -/
theorem witness_IllegalAccessSetsAccerrOnly :
    (4 : Nat) ≠ 8 ∧ 0x14 % 8 ≠ 0 ∧ 0xC000000 ≤ 0xC000000 ∧ placeOf Config.params 0x40 = .hole ∧
    placeOf Config.params 0x8 = .reg .status ∧ placeOf Config.params 0x38 = .reg .outlen ∧
    placeOf Config.params 0x2000 = .region .win ∧ placeOf Config.params 0x4000 = .region .lastph ∧
    placeOf Config.params 0x6000 = .region .newph ∧ placeOf Config.params 0x1000000 = .region .out ∧
    (inFlight 0 State.reset).status.busy = true ∧ 0x10 ≠ 0x8 := by
  decide +kernel

/-- OnlyStatusReadableWhileBusy: a command in flight, another address, and another size at STATUS. -/
theorem witness_OnlyStatusReadableWhileBusy :
    (inFlight 0 State.reset).status.busy = true ∧ ¬(0x10 = 0x8 ∧ 8 = 8) ∧ ¬(0x8 = 0x8 ∧ 4 = 8) := by decide

/-- AccerrIsStickyAndInert: ACCERR set and the machine steps; a command that answers. -/
theorem witness_AccerrIsStickyAndInert :
    (raiseAccErr State.reset).status.accerr = true ∧
    step (raiseAccErr State.reset) = .next (raiseAccErr State.reset) ∧
    exec .nop State.reset = .next (complete State.reset) := ⟨rfl, rfl, rfl⟩

/-- HostWriteThenRead: the first word of FRM, an imaginary part, the last word of the aperture. -/
theorem witness_HostWriteThenRead :
    (writeLegal Config.params State.reset 0x8000 8 = true ∧ placeOf Config.params 0x8000 = .region .frm) ∧
    (writeLegal Config.params frameOfOne 0x8008 8 = true ∧ placeOf Config.params 0x8008 = .region .frm) ∧
    (writeLegal Config.params State.reset 0xBFFFFF8 8 = true ∧ placeOf Config.params 0xBFFFFF8 = .region .spb) := by
  decide +kernel

/-- HostWriteThenRead, the reads: a word that holds a value, and a read-only one that holds none. -/
theorem witness_HostRead :
    (frameOfOne.status.busy = false ∧ 0x8008 % 8 = 0 ∧ readWord frameOfOne.mem 0x8008 = some 0x4010000000000000) ∧
    (placeOf Config.params 0x2000 = .region .win ∧ readWord frameOfOne.mem 0x2000 = none) := by
  decide +kernel

/-- WordsAreLittleEndian: the first and the last byte. -/
theorem witness_WordsAreLittleEndian : 0 < 8 ∧ 7 < 8 := by decide

/-- ConfigErrorsFollowTable: each condition at the edge of its range, and none of them. -/
theorem witness_ConfigErrorsFollowTable :
    (Instr.fft ≠ .nop ∧ 10 < (small 11 1 0 0 []).logw.toNat) ∧
    (Instr.wingen ≠ .nop ∧ Instr.wingen ≠ .fft ∧ Instr.wingen ≠ .ifft ∧ (small 0 1 0 0 []).logw.toNat = 0) ∧
    (Instr.vocode ≠ .nop ∧ Instr.vocode ≠ .fft ∧ Instr.vocode ≠ .ifft ∧ Instr.vocode ≠ .wingen ∧
      (small 10 0 0 0 []).hop.toNat = 0) ∧
    ¬(10 < (small 10 1 0 0 []).logw.toNat) ∧ (small 10 1 0 0 []).logw.toNat ≠ 0 ∧
    (small 10 1 0 0 []).hop.toNat ≠ 0 := by
  decide

/-- CapacityErrorsFollowTable: the conditions just met and just not met (V7.4). -/
theorem witness_CapacityErrorsFollowTable :
    (configError Config.params .analyze (small 10 256 1048577 0 []) = false ∧
      2 ^ 20 < (small 10 256 1048577 0 []).siglen.toNat) ∧
    (configError Config.params .analyze (small 10 1 5120 0 []) = false ∧ nframesOf 5120 (2 ^ 10) 1 = 4097) ∧
    (configError Config.params .vocode (small 10 256 0 4097 []) = false ∧
      2 ^ 12 < (small 10 256 0 4097 []).nframes.toNat) ∧
    (configError Config.params (.synth .spb) (small 10 512 0 4096 []) = false ∧ 2 ^ 21 < 4096 * 512 + 2 ^ 10) ∧
    (configError Config.params (.synth .spb) (small 10 511 0 4096 []) = false ∧ ¬2 ^ 21 < 4096 * 511 + 2 ^ 10) ∧
    (configError Config.params .run (small 10 512 1048576 0 []) = false ∧ nframesOf 1048576 (2 ^ 10) 512 = 2047) ∧
    (configError Config.params .run (small 1 2097152 2 0 []) = false ∧
      2 ^ 21 < nframesOf 2 (2 ^ 1) 2097152 * 2097152 + 2 ^ 1) ∧
    (configError Config.params .run (small 1 2097150 2 0 []) = false ∧
      ¬2 ^ 21 < nframesOf 2 (2 ^ 1) 2097150 * 2097150 + 2 ^ 1) := by
  decide +kernel

/-- RefusalChangesStatusOnly: a refusal of each of the three kinds. -/
theorem witness_RefusalChangesStatusOnly :
    (∃ t, performLatched (inFlight 0x105 State.reset) = .next t ∧ t.status.done = false) ∧
    (∃ t, performLatched (inFlight 3 (small 0 1 0 0 [])) = .next t ∧ t.status.done = false) ∧
    (∃ t, performLatched (inFlight 5 (small 10 1 0 4097 [])) = .next t ∧ t.status.done = false) := by
  refine ⟨⟨raiseCmdError .illcmd (inFlight 0x105 State.reset), ?_, rfl⟩,
    ⟨raiseCmdError .cfg (inFlight 3 (small 0 1 0 0 [])), ?_, rfl⟩,
    ⟨raiseCmdError .cap (inFlight 5 (small 10 1 0 4097 [])), ?_, rfl⟩⟩ <;> rfl

/-- EveryCommandEnds: the flags as an issue leaves them. -/
theorem witness_EveryCommandEnds :
    (inFlight 7 State.reset).status.done = false ∧ (inFlight 7 State.reset).status.err = false := ⟨rfl, rfl⟩

/-- UnheldOperandsStillComplete: each command that reads memory, on operands that hold no value; the byte after a
range of each; a command that does not write NFRAMES, OUTLEN or WINOK. -/
theorem witness_UnheldOperandsStillComplete :
    (∀ i ∈ [Instr.fft, .ifft, .analyze, .vocode, .synth .spb, .synth .spa, .run],
      configError Config.params i (small 1 1 2 1 []) = false ∧
      capacityError Config.params i (small 1 1 2 1 []) = false ∧
      operandsHeld Config.params i (small 1 1 2 1 []) = false) ∧
    (∀ i ∈ [Instr.fft, .ifft, .analyze, .vocode, .synth .spb, .synth .spa, .run],
      ∀ r ∈ writeRanges Config.params i (small 1 1 2 1 []), 0x8020 < r.1 ∨ r.1 + r.2 ≤ 0x8020) ∧
    writesNframes .fft = false ∧ writesOutlen .vocode = false ∧ mayWriteWinok .ifft = false := by
  decide +kernel

/-- CommandsWriteOnlyTheirRow: a command answers; the ends of its row; commands without NFRAMES, OUTLEN, WINOK. -/
theorem witness_CommandsWriteOnlyTheirRow :
    (∃ t, exec .wingen windowOfTwo = .next t) ∧ (∀ g ∈ writeSet .wingen, inRegion Config.params g 0x1FFF = false) ∧
    (∀ g ∈ writeSet .wingen, inRegion Config.params g 0x4000 = false) ∧ writesNframes .vocode = false ∧
    writesOutlen .analyze = false ∧ mayWriteWinok .vocode = false ∧ windowOfTwo.status.winok = true :=
  ⟨⟨_, rfl⟩, by decide, by decide, rfl, rfl, rfl, rfl⟩

/-- FftTransformsTheFrame, IfftTransformsTheFrame: W = 1. -/
theorem witness_TransformsTheFrame :
    frameOfOne.logw.toNat ≤ 10 ∧
    readFrame Config.params frameOfOne = some [⟨0x4008000000000000, 0x4010000000000000⟩] := by
  decide +kernel

/-- W = 1024, `FRM[0..1024)` all zero. -/
def largestFrame : State :=
  small 10 1 0 0 (writeComplex Config.params [] .frm 0 (List.replicate (2 ^ 10) ⟨0, 0⟩))

/-- FftTransformsTheFrame, IfftTransformsTheFrame: W = 1024. -/
theorem witness_TransformsTheFrame_largest :
    largestFrame.logw.toNat ≤ 10 ∧
    readFrame Config.params largestFrame = some (List.replicate (2 ^ 10) ⟨0, 0⟩) := by
  have h := readComplex_writeComplex Config.params [] .frm 0 (List.replicate (2 ^ 10) ⟨0, 0⟩)
  have hw : windowSize largestFrame = 2 ^ 10 := by unfold windowSize; rfl
  rw [List.length_replicate] at h
  exact ⟨by decide, by rw [readFrame, hw]; exact h⟩

/-- WingenFillsTheWindow: the smallest and the largest window. -/
theorem witness_WingenFillsTheWindow :
    (1 ≤ (small 1 0 0 0 []).logw.toNat ∧ (small 1 0 0 0 []).logw.toNat ≤ 10) ∧
    (1 ≤ State.reset.logw.toNat ∧ State.reset.logw.toNat ≤ 10) := by
  decide

/-- AnalyzeStoresTheSpectra: one frame, and none; WINOK is 0. -/
theorem witness_AnalyzeStoresTheSpectra :
    (configError Config.params .analyze twoSamples = false ∧ capacityError Config.params .analyze twoSamples = false ∧
      readSignal Config.params twoSamples = some [0x3FF0000000000000, 0x3FF0000000000000] ∧
      analysisFrames twoSamples = 1 ∧ twoSamples.status.winok = false) ∧
    (configError Config.params .analyze (small 1 1 1 0 []) = false ∧
      capacityError Config.params .analyze (small 1 1 1 0 []) = false ∧
      readSignal Config.params (small 1 1 1 0 []) = some []) := by
  decide +kernel

/-- VocodeStoresThePass: one frame, and none. -/
theorem witness_VocodeStoresThePass :
    (configError Config.params .vocode oneSpectrum = false ∧ capacityError Config.params .vocode oneSpectrum = false ∧
      readSpectrum Config.params oneSpectrum .spa = some [⟨0xBFF0000000000000, 0⟩, ⟨0, 0⟩]) ∧
    (configError Config.params .vocode (small 1 1 0 0 []) = false ∧
      capacityError Config.params .vocode (small 1 1 0 0 []) = false ∧
      readSpectrum Config.params (small 1 1 0 0 []) .spa = some []) := by
  decide +kernel

/-- SynthStoresTheOutput: one frame of either bank. -/
theorem witness_SynthStoresTheOutput :
    (configError Config.params (.synth .spb) oneVocoded = false ∧
      capacityError Config.params (.synth .spb) oneVocoded = false ∧
      readSpectrum Config.params oneVocoded .spb = some [⟨0, 0x4000000000000000⟩, ⟨0, 0⟩]) ∧
    (configError Config.params (.synth .spa) oneSpectrum = false ∧
      capacityError Config.params (.synth .spa) oneSpectrum = false ∧
      readSpectrum Config.params oneSpectrum .spa = some [⟨0xBFF0000000000000, 0⟩, ⟨0, 0⟩]) := by
  decide +kernel

/-- RunIsTheThreeCommands: one frame. -/
theorem witness_RunIsTheThreeCommands :
    configError Config.params .run twoSamples = false ∧ capacityError Config.params .run twoSamples = false ∧
    operandsHeld Config.params .run twoSamples = true := by
  decide +kernel

/-- DoLineRunsTheCommand: an idle machine with the line before it, with no read that returns BUSY = 1 and with two. -/
theorem witness_DoLineRunsTheCommand :
    ((withProgram Config.params [.perform .run 0] State.reset).status.busy = false ∧
      (withProgram Config.params [.perform .run 0] State.reset).script =
        expandLine Config.params (.perform .run 0) ++ []) ∧
    (withProgram Config.params [.perform .nop 2] State.reset).status.busy = false ∧
    (withProgram Config.params [.perform .nop 2] State.reset).script =
      expandLine Config.params (.perform .nop 2) ++ [] := ⟨⟨rfl, rfl⟩, rfl, rfl⟩

/-- ResetState: a reset event that comes next, on an idle machine and while a command is in flight. -/
theorem witness_ResetState :
    (({ State.reset with script := [⟨0, .reset⟩] } : State).status.busy = false) ∧
    ({ inFlight 7 State.reset with script := [⟨1, .reset⟩] } : State).status.busy = true ∧ (1 : Nat) ≠ 0 :=
  ⟨rfl, rfl, by decide⟩

/-- FrameCountCountsWindows, PipelineLengths: the smallest window and hop, on both sides of L = W; V3.1. -/
theorem witness_lengths :
    (2 ≤ 2 ∧ 1 ≤ 1) ∧ 2 ≤ 2 ∧ 1 < 2 ∧ 44100 - 1024 = 168 * 256 + 68 ∧ 68 < 256 ∧
    nframesOf 44100 1024 256 = 169 ∧ outputLength 169 1024 256 = 44288 := by
  decide

/-- NegationFlipsTheSignBit, the rounding statements: finite operands, the largest finite value among them; a divisor
that is not zero; an operand that is not negative. -/
theorem witness_finite :
    63 < 64 ∧ isFinite 0x7FEFFFFFFFFFFFFF = true ∧ isFinite 0 = true ∧ isZero 0x7FEFFFFFFFFFFFFF = false ∧
    signOf 0x7FEFFFFFFFFFFFFF = false := by
  decide +kernel

/-- The rounding statements on either side of the overflow bound: half of the largest finite value and the value itself
add up to more than the bound, and the value alone lies below it. -/
theorem witness_overflowBound :
    overflowBound * 2 ^ 1074 ≤ unitsOf 0x7FEFFFFFFFFFFFFF + unitsOf 0x7FDFFFFFFFFFFFFF ∧
    unitsOf 0x7FEFFFFFFFFFFFFF < overflowBound * 2 ^ 1074 := by
  decide +kernel

/-- OfIntIsExact: both ends of the exact range, and an integer beyond it below the overflow bound. -/
theorem witness_OfIntIsExact :
    ((2 : Int) ^ 53).natAbs ≤ 2 ^ 53 ∧ (-(2 : Int) ^ 53).natAbs ≤ 2 ^ 53 ∧ 2 ^ 53 + 1 < overflowBound := by
  decide +kernel

/-- OverflowGivesInfinity: a denominator. -/
theorem witness_OverflowGivesInfinity : 0 < 1 := by decide

/-- SpecialOperandsFollowIeee, NanPropagates, RoundIsExact, the trigonometric statements: an operand of each kind. -/
theorem witness_operand_kinds :
    (isInf 0x7FF0000000000000 = true ∧ isInf 0xFFF0000000000000 = true ∧
      signOf 0x7FF0000000000000 ≠ signOf 0xFFF0000000000000) ∧
    (isZero 0 = true ∧ isZero 0x8000000000000000 = true ∧ signOf 0x8000000000000000 = true) ∧
    (isNaN 0x7FF8000000000000 = true ∧ isNaN 0x7FF0000000000001 = true) ∧
    (isNaN 0xBFF0000000000000 = false ∧ isZero 0xBFF0000000000000 = false ∧ signOf 0xBFF0000000000000 = true ∧
      isFinite 0xBFF0000000000000 = true) ∧
    (isNaN (b64mul 0x3FF0000000000000 0xBFF0000000000000) = false ∧
      isNaN (b64div 0x3FF0000000000000 0xBFF0000000000000) = false) := by
  decide +kernel

/-- OneTwiddleTableServesEverySize: both ends of the ranges; the configuration of PVCORE. -/
theorem witness_OneTwiddleTableServesEverySize :
    (0 < 20 ∧ 0 < 2 ^ 0) ∧ (19 < 20 ∧ 2 ^ 19 - 1 < 2 ^ 19) ∧ Config.params.num = numB64 ∧
    Config.params.logwMax ≤ 20 ∧ (1 ≤ 1 ∧ 0 < 2 ^ (1 - 1)) ∧ 10 ≤ Config.params.logwMax ∧ 511 < 2 ^ (10 - 1) :=
  ⟨by decide, by decide, rfl, by decide, by decide, by decide, by decide⟩

/-- IterativeTransformAgrees, FftIsTheDiscreteFourierTransform, IfftInvertsFft: lengths 1 and 2, the last bin. -/
theorem witness_transform_lengths :
    ([⟨1, 0⟩] : List (Cx ℝ)).length = 2 ^ 0 ∧ ([⟨1, 0⟩, ⟨2, 0⟩] : List (Cx ℝ)).length = 2 ^ 1 ∧ 1 < 2 ^ 1 := by
  simp

/-- UnwrapRangeAndTies: a value inside the open range. -/
theorem witness_UnwrapRangeAndTies : -Real.pi < 0 ∧ 0 < Real.pi := ⟨by linarith [Real.pi_pos], Real.pi_pos⟩

/-- AccumulatorClosedForm: the smallest sizes. -/
theorem witness_AccumulatorClosedForm : 1 ≤ 1 := le_refl 1

/-- OverlapAddClosedForm: one frame of length 2; the first and the last output sample. -/
theorem witness_OverlapAddClosedForm :
    (∀ f ∈ ([[⟨1, 0⟩, ⟨2, 0⟩]] : List (List (Cx ℝ))), f.length = 2 ^ 1) ∧
    0 < ([[⟨1, 0⟩, ⟨2, 0⟩]] : List (List (Cx ℝ))).length * 1 + 2 ^ 1 ∧
    2 < ([[⟨1, 0⟩, ⟨2, 0⟩]] : List (List (Cx ℝ))).length * 1 + 2 ^ 1 := by
  simp

/-- AnalysisThenSynthesisGain, SilenceStaysSilent: the signal of V3.2 just holds its frames; no frame at all. -/
theorem witness_signalSpan :
    (1 ≤ 2 ∧ 1 ≤ 2 ∧ signalSpan 2 (2 ^ 2) 2 ≤ (List.replicate 6 (1 : ℝ)).length ∧ 7 < 2 * 2 + 2 ^ 2) ∧
    signalSpan 0 (2 ^ 2) 2 ≤ 0 := by
  simp [signalSpan]

/-- PcmOutputIsClamped: inside the range, and the first value that is clamped. -/
theorem witness_PcmOutputIsClamped :
    isNaN 0x3FE0000000000000 = false ∧ isNaN 0xBFF0000000000000 = false ∧
    magOf b64one ≤ magOf 0xBFF0000000000000 ∧ magOf 0x3FE0000000000000 ≤ magOf b64one ∧
    magOf 0xBFF0000000000000 ≤ magOf b64one := by
  decide +kernel

end Sys2Proof.Machine.Tests
end

section
/-! SUPPORT. The invariants of memory, window table and STATUS, each under the writes that happen (10_state.md). -/

namespace Sys2Proof.Machine

/-! ## The regions of the address map -/

/-- The parameters of PVCORE are a legal choice (00_scope.md R7, 20_memory.md R61). -/
theorem config_params_legal : Config.params.legal = true := by decide

@[simp] theorem elementAddr_zero (p : Params) (g : Region) : elementAddr p g 0 = regionBase p g := rfl

theorem regionBytes_eq_scalars (p : Params) (g : Region) : regionBytes p g = 8 * regionScalars p g := by
  unfold regionBytes elementSize regionScalars
  split
  · omega
  · rfl

theorem inRegion_iff (p : Params) (g : Region) (a : Nat) :
    inRegion p g a = true ↔ regionBase p g ≤ a ∧ a < regionBase p g + 8 * regionScalars p g := by
  simp [inRegion, regionBytes_eq_scalars]

theorem regionBase_aligned {p : Params} (hp : p.legal = true) (g : Region) : regionBase p g % 8 = 0 := by
  simp only [Params.legal, Params.basesAligned, List.all_cons, List.all_nil, Bool.and_true, Bool.and_eq_true,
    decide_eq_true_eq] at hp
  cases g <;> simp only [regionBase] <;> omega

theorem legal_regionsInOrder {p : Params} (hp : p.legal = true) : p.regionsInOrder = true := by
  simp only [Params.legal, Bool.and_eq_true] at hp
  exact hp.2

theorem legal_frameCap_lt {p : Params} (hp : p.legal = true) : p.frameCap < 2 ^ 32 := by
  simp only [Params.legal, Params.capsLegal, Bool.and_eq_true, decide_eq_true_eq] at hp
  omega

/-! ## The invariants of the memory -/

/-- Every invariant of the memory alone: canonical form, inside the regions, whole words. -/
def memoryInv (p : Params) (m : Memory) : Prop := Memory.wf m ∧ memoryMapped p m ∧ memoryWhole m

theorem inv_iff (p : Params) (s : State) :
    Inv p s ↔ memoryInv p s.mem ∧ statusLegal s.status = true ∧ windowValid p s := by
  simp only [Inv, memoryInv, and_assoc]

theorem Inv.statusLegal {p : Params} {s : State} (h : Inv p s) : statusLegal s.status = true :=
  have ⟨_, hs, _⟩ := (inv_iff p s).mp h
  hs

theorem memoryInv_nil (p : Params) : memoryInv p [] :=
  ⟨List.Pairwise.nil, fun _ hc => absurd hc (List.not_mem_nil), fun _ _ _ _ => rfl⟩

/-- Words written inside one memory stay inside the regions. -/
theorem memoryMapped_writeWords {p : Params} {m : Memory} (h : memoryMapped p m) {g : Region} {b : Nat}
    {ws : List Word} (hlo : regionBase p g ≤ b)
    (hhi : b + 8 * ws.length ≤ regionBase p g + 8 * regionScalars p g) :
    memoryMapped p (writeWords m b ws) := by
  intro c hc
  simp only [writeWords, writeBytes, List.mem_append] at hc
  rcases hc with (hc | hc) | hc
  · exact h c (mem_cellsBelow.mp hc).1
  · have hb := mem_cellsFrom_bounds hc
    rw [flatMap_bytesOfWord_length] at hb
    exact ⟨g, (inRegion_iff p g c.1).mpr (by omega)⟩
  · exact h c (mem_cellsAbove.mp hc).1

theorem memoryMapped_eraseBytes {p : Params} {m : Memory} (h : memoryMapped p m) (b n : Nat) :
    memoryMapped p (eraseBytes m b n) := by
  intro c hc
  rcases List.mem_append.mp hc with hc | hc
  · exact h c (mem_cellsBelow.mp hc).1
  · exact h c (mem_cellsAbove.mp hc).1

/-- A byte is listed after a write of words exactly when it was written or listed before. -/
theorem readByte_writeWords_isSome (m : Memory) (b : Nat) (ws : List Word) (a : Nat) :
    (readByte (writeWords m b ws) a).isSome =
      if b ≤ a ∧ a < b + 8 * ws.length then true else (readByte m a).isSome := by
  have hlen := flatMap_bytesOfWord_length ws
  rw [writeWords, readByte_writeBytes, hlen]
  split
  · rw [List.getElem?_eq_getElem (by omega)]
    rfl
  · rfl

/-- Words written at an aligned address leave every word whole (20_memory.md R64). -/
theorem memoryWhole_writeWords {m : Memory} (h : memoryWhole m) {b : Nat} (hb : b % 8 = 0) (ws : List Word) :
    memoryWhole (writeWords m b ws) := by
  intro a ha i hi
  rw [readByte_writeWords_isSome, readByte_writeWords_isSome, h a ha i hi]
  by_cases hin : b ≤ a ∧ a < b + 8 * ws.length
  · rw [if_pos hin, if_pos (by omega)]
  · rw [if_neg hin, if_neg (by omega)]

/-- Erasing whole words leaves every other word whole. -/
theorem memoryWhole_eraseBytes {m : Memory} (h : memoryWhole m) {b : Nat} (hb : b % 8 = 0) (n : Nat) :
    memoryWhole (eraseBytes m b (8 * n)) := by
  intro a ha i hi
  rw [readByte_eraseBytes, readByte_eraseBytes]
  by_cases hin : b ≤ a ∧ a < b + 8 * n
  · rw [if_pos hin, if_pos (by omega)]
  · rw [if_neg hin, if_neg (by omega), h a ha i hi]

theorem memoryInv_writeWords {p : Params} {m : Memory} (h : memoryInv p m) {g : Region} {b : Nat}
    {ws : List Word} (hb : b % 8 = 0) (hlo : regionBase p g ≤ b)
    (hhi : b + 8 * ws.length ≤ regionBase p g + 8 * regionScalars p g) : memoryInv p (writeWords m b ws) :=
  let ⟨hwf, hmap, hwhole⟩ := h
  ⟨writeWords_wf hwf b ws, memoryMapped_writeWords hmap hlo hhi, memoryWhole_writeWords hwhole hb ws⟩

theorem memoryInv_eraseBytes {p : Params} {m : Memory} (h : memoryInv p m) {b : Nat} (hb : b % 8 = 0) (n : Nat) :
    memoryInv p (eraseBytes m b (8 * n)) :=
  let ⟨hwf, hmap, hwhole⟩ := h
  ⟨eraseBytes_wf hwf b _, memoryMapped_eraseBytes hmap b _, memoryWhole_eraseBytes hwhole hb n⟩

/-! ## The invariant of the window table -/

/-- `WIN[0..n)` is read from the bytes of WIN alone. -/
theorem readWindow_congr {p : Params} {m m' : Memory} {n : Nat} (hn : n ≤ p.wMax)
    (h : ∀ a, inRegion p .win a = true → readByte m a = readByte m' a) :
    readScalars p m .win 0 n = readScalars p m' .win 0 n := by
  refine readWords_congr _ n fun k hk => h _ ((inRegion_iff p .win _).mpr ?_)
  have hs : regionScalars p .win = p.wMax := rfl
  simp only [elementAddr_zero]
  omega

/-- What keeps LOGW and the bytes of WIN, and does not set WINOK, keeps the window valid (10_state.md R43). -/
theorem windowValid_of_winKept {p : Params} {s t : State} (h : windowValid p s) (hl : t.logw = s.logw)
    (hw : t.status.winok = true → s.status.winok = true)
    (hk : ∀ a, inRegion p .win a = true → readByte t.mem a = readByte s.mem a) : windowValid p t := by
  intro ht
  obtain ⟨hlo, hhi, hr⟩ := h (hw ht)
  have hlogw : logwOf t = logwOf s := congrArg BitVec.toNat hl
  have hsize : windowSize t = windowSize s := congrArg (2 ^ ·) hlogw
  rw [hlogw, hsize]
  exact ⟨hlo, hhi, (readWindow_congr (Nat.pow_le_pow_right (by decide) hhi) hk).trans hr⟩

/-- A generated window is valid (42_window.md R181). -/
theorem windowValid_generateWindow {p : Params} {s : State} (hlo : 1 ≤ logwOf s) (hhi : logwOf s ≤ p.logwMax) :
    windowValid p (generateWindow p s) := by
  intro _
  have hr := readScalars_writeScalars p s.mem .win 0 (hannWindow (machineNum p) (windowSize s))
  rw [hannWindow_length] at hr
  exact ⟨hlo, hhi, hr⟩

/-- A write outside WIN leaves the bytes of WIN as they were. -/
theorem winKept_writeWords {p : Params} (hp : p.legal = true) (m : Memory) {g : Region} (hg : g ≠ .win) {b : Nat}
    {ws : List Word} (hlo : regionBase p g ≤ b)
    (hhi : b + 8 * ws.length ≤ regionBase p g + 8 * regionScalars p g) (a : Nat) (ha : inRegion p .win a = true) :
    readByte (writeWords m b ws) a = readByte m a := by
  refine readByte_writeWords_outside m b ws a ?_
  have := regions_apart (legal_regionsInOrder hp) hg
  rw [inRegion_iff] at ha
  omega

/-- Dropping FRM leaves the bytes of WIN as they were. -/
theorem winKept_dropFrame {p : Params} (hp : p.legal = true) {s : State} (hs : windowSize s ≤ p.wMax) (a : Nat)
    (ha : inRegion p .win a = true) : readByte (dropFrame p s).mem a = readByte s.mem a := by
  have hap := regions_apart (legal_regionsInOrder hp) (show Region.frm ≠ .win by decide)
  have hsc : regionScalars p .frm = 2 * p.wMax := rfl
  rw [inRegion_iff] at ha
  rw [dropFrame_mem, readByte_eraseBytes, elementAddr_zero, if_neg (by omega)]

/-- What keeps the memory and LOGW, keeps STATUS legal and does not set WINOK, keeps the invariants. -/
theorem inv_of_memKept {p : Params} {s t : State} (h : Inv p s) (hm : t.mem = s.mem) (hl : t.logw = s.logw)
    (hs : statusLegal t.status = true) (hw : t.status.winok = true → s.status.winok = true) : Inv p t := by
  rw [inv_iff] at h ⊢
  obtain ⟨hmem, _, hwin⟩ := h
  exact ⟨hm ▸ hmem, hs, windowValid_of_winKept hwin hl hw fun a _ => by rw [hm]⟩

/-! ## STATUS stays legal -/

@[simp] theorem statusLegal_issueFlags (t : Status) : statusLegal (issueFlags t) = true := rfl

@[simp] theorem statusLegal_refuseFlags (e : CmdError) (t : Status) : statusLegal (refuseFlags e t) = true := by
  cases e <;> rfl

/-- A command in flight has neither ended nor been refused (10_state.md R30). -/
theorem statusLegal_busy {t : Status} (h : statusLegal t = true) (hb : t.busy = true) :
    t.done = false ∧ t.err = false ∧ t.errcode = 0 := by
  obtain ⟨busy, done, err, winok, accerr, errcode⟩ := t
  cases hb
  cases done <;> cases err <;> simp_all [statusLegal]

theorem statusLegal_completeFlags {t : Status} (h : statusLegal t = true) (hb : t.busy = true) :
    statusLegal (completeFlags t) = true := by
  obtain ⟨_, herr, hcode⟩ := statusLegal_busy h hb
  simp [statusLegal, herr, hcode]

end Sys2Proof.Machine
end

section
/-! SUPPORT. What a command's body is made of, what it leaves unchanged, that it keeps the invariants (10_state.md
R47, R50; 20_memory.md R70). -/

namespace Sys2Proof.Machine

/-! ## The edits a command is made of

Every command's body is a chain of a few kinds of edits, each inside what 20_memory.md R70 and 10_state.md R50 let
the command write. What a command leaves unchanged, and that it keeps the invariants, then holds because each edit
has that property. -/

/-- The command `i`, performed in state `s₀`, may write the first `n` words of the memory `g`: the memory is in its
row of R50, has room for them, and they are one of its ranges of R70. -/
def mayStore (p : Params) (i : Instr) (s₀ : State) (g : Region) (n : Nat) : Prop :=
  g ∈ writeSet i ∧ n ≤ regionScalars p g ∧ (regionBase p g, 8 * n) ∈ writeRanges p i s₀

/-- One edit of the body of the command `i`, performed in state `s₀`. -/
inductive BodyEdit (p : Params) (i : Instr) (s₀ : State) : State → State → Prop
  /-- Words stored from the start of a memory, of WIN only while WINOK = 0 (10_state.md R43). -/
  | store (t : State) (g : Region) (ws : List Word) (room : mayStore p i s₀ g ws.length)
      (winFree : g = .win → t.status.winok = false) :
      BodyEdit p i s₀ t { t with mem := writeWords t.mem (elementAddr p g 0) ws }
  /-- The window generated and WINOK set (42_window.md R181). -/
  | generate (t : State) (allowed : mayWriteWinok i = true) (room : mayStore p i s₀ .win (windowSize t))
      (sizeLow : 1 ≤ logwOf t) (sizeHigh : logwOf t ≤ p.logwMax) : BodyEdit p i s₀ t (generateWindow p t)
  /-- The scratch FRM dropped (10_state.md R44). -/
  | drop (t : State) (room : mayStore p i s₀ .frm (2 * windowSize t)) : BodyEdit p i s₀ t (dropFrame p t)
  /-- NFRAMES written (10_state.md R26). -/
  | nframes (t : State) (v : BitVec 32) (allowed : writesNframes i = true) :
      BodyEdit p i s₀ t { t with nframes := v }
  /-- OUTLEN written (10_state.md R27). -/
  | outlen (t : State) (v : BitVec 32) (allowed : writesOutlen i = true) :
      BodyEdit p i s₀ t { t with outlen := v }
  /-- One unspecified event counted (log 4). -/
  | tick (t : State) : BodyEdit p i s₀ t { t with tick := t.tick + 1 }

/-- A chain of such edits. -/
abbrev BodyEdits (p : Params) (i : Instr) (s₀ : State) : State → State → Prop :=
  Relation.ReflTransGen (BodyEdit p i s₀)

variable {p : Params} {i : Instr} {s₀ s t u : State}

/-! ### What an edit leaves unchanged -/

/-- What the command `i`, performed in state `s₀`, leaves unchanged between two states of its body (10_state.md
R50, 20_memory.md R70). -/
structure BodyKeeps (p : Params) (i : Instr) (s₀ s t : State) : Prop where
  registers : operandRegistersKept s t
  status : t.status = s.status ∨ mayWriteWinok i = true ∧ t.status = setWinok true s.status
  nframes : writesNframes i = false → t.nframes = s.nframes
  outlen : writesOutlen i = false → t.outlen = s.outlen
  bytes : ∀ a, (∀ g n, mayStore p i s₀ g n → a < regionBase p g ∨ regionBase p g + 8 * n ≤ a) →
    readByte t.mem a = readByte s.mem a

theorem operandRegistersKept_refl (s : State) : operandRegistersKept s s := ⟨rfl, rfl, rfl, rfl, rfl, rfl, rfl⟩

theorem operandRegistersKept_trans (h : operandRegistersKept s t) (h' : operandRegistersKept t u) :
    operandRegistersKept s u := by
  obtain ⟨hc, hl, hh, hx, hs, he, hv⟩ := h
  obtain ⟨hc', hl', hh', hx', hs', he', hv'⟩ := h'
  exact ⟨hc'.trans hc, hl'.trans hl, hh'.trans hh, hx'.trans hx, hs'.trans hs, he'.trans he, hv'.trans hv⟩

theorem BodyKeeps.refl (s : State) : BodyKeeps p i s₀ s s :=
  ⟨operandRegistersKept_refl s, .inl rfl, fun _ => rfl, fun _ => rfl, fun _ _ => rfl⟩

theorem BodyKeeps.trans (h : BodyKeeps p i s₀ s t) (h' : BodyKeeps p i s₀ t u) : BodyKeeps p i s₀ s u where
  registers := operandRegistersKept_trans h.registers h'.registers
  status := by
    rcases h.status with hs | ⟨hi, hs⟩ <;> rcases h'.status with hs' | ⟨hi', hs'⟩ <;> rw [hs', hs]
    · exact .inl rfl
    · exact .inr ⟨hi', rfl⟩
    · exact .inr ⟨hi, rfl⟩
    · exact .inr ⟨hi, rfl⟩
  nframes hi := (h'.nframes hi).trans (h.nframes hi)
  outlen hi := (h'.outlen hi).trans (h.outlen hi)
  bytes a ha := (h'.bytes a ha).trans (h.bytes a ha)

theorem BodyEdit.keeps (h : BodyEdit p i s₀ s t) : BodyKeeps p i s₀ s t := by
  have regs := operandRegistersKept_refl
  cases h with
  | store g ws room _ =>
    exact ⟨regs s, .inl rfl, fun _ => rfl, fun _ => rfl,
      fun a ha => readByte_writeWords_outside s.mem _ ws a (ha g _ room)⟩
  | generate allowed room _ _ =>
    refine ⟨regs s, .inr ⟨allowed, rfl⟩, fun _ => rfl, fun _ => rfl, fun a ha => ?_⟩
    refine readByte_writeWords_outside s.mem _ _ a ?_
    rw [hannWindow_length]
    exact ha .win _ room
  | drop room =>
    refine ⟨regs s, .inl rfl, fun _ => rfl, fun _ => rfl, fun a ha => ?_⟩
    have := ha .frm _ room
    rw [dropFrame_mem, readByte_eraseBytes, elementAddr_zero, if_neg (by omega)]
  | nframes v allowed =>
    exact ⟨regs s, .inl rfl, fun hi => absurd allowed (by simp [hi]), fun _ => rfl, fun _ _ => rfl⟩
  | outlen v allowed =>
    exact ⟨regs s, .inl rfl, fun _ => rfl, fun hi => absurd allowed (by simp [hi]), fun _ _ => rfl⟩
  | tick => exact ⟨regs s, .inl rfl, fun _ => rfl, fun _ => rfl, fun _ _ => rfl⟩

theorem BodyEdits.keeps (h : BodyEdits p i s₀ s t) : BodyKeeps p i s₀ s t := by
  induction h with
  | refl => exact .refl s
  | tail _ hlast ih => exact ih.trans hlast.keeps

/-- The flags a body leaves: WINOK at most set, every other as it was. -/
theorem BodyKeeps.flags (h : BodyKeeps p i s₀ s t) :
    t.status.busy = s.status.busy ∧ t.status.err = s.status.err ∧ t.status.errcode = s.status.errcode ∧
      t.status.accerr = s.status.accerr ∧ (mayWriteWinok i = false → t.status.winok = s.status.winok) ∧
      (s.status.winok = true → t.status.winok = true) := by
  rcases h.status with hs | ⟨hi, hs⟩ <;> rw [hs]
  · exact ⟨rfl, rfl, rfl, rfl, fun _ => rfl, id⟩
  · exact ⟨rfl, rfl, rfl, rfl, fun hn => absurd hi (by simp [hn]), fun _ => rfl⟩

theorem BodyKeeps.logw (h : BodyKeeps p i s₀ s t) : logwOf t = logwOf s := by
  obtain ⟨-, hl, -⟩ := h.registers
  exact congrArg BitVec.toNat hl

theorem BodyKeeps.windowSize (h : BodyKeeps p i s₀ s t) : windowSize t = windowSize s := congrArg (2 ^ ·) h.logw

theorem BodyKeeps.hopSize (h : BodyKeeps p i s₀ s t) : hopSize t = hopSize s := by
  obtain ⟨-, -, hh, -⟩ := h.registers
  exact congrArg BitVec.toNat hh

/-! ### Every edit keeps the invariants -/

theorem BodyEdit.inv (hp : p.legal = true) (h : Inv p s) (he : BodyEdit p i s₀ s t) : Inv p t := by
  rw [inv_iff] at h
  obtain ⟨hmem, hstat, hwin⟩ := h
  cases he with
  | store g ws room winFree =>
    obtain ⟨-, hroom, -⟩ := room
    refine (inv_iff p _).mpr ⟨?_, hstat, ?_⟩
    · exact memoryInv_writeWords hmem (regionBase_aligned hp g) le_rfl (by simp only [elementAddr_zero]; omega)
    · by_cases hg : g = .win
      · intro hw
        exact absurd hw (by simp [winFree hg])
      · exact windowValid_of_winKept hwin rfl id
          (winKept_writeWords hp s.mem hg le_rfl (by simp only [elementAddr_zero]; omega))
  | generate _ room sizeLow sizeHigh =>
    obtain ⟨-, hroom, -⟩ := room
    refine (inv_iff p _).mpr ⟨?_, hstat, windowValid_generateWindow sizeLow sizeHigh⟩
    refine memoryInv_writeWords (g := .win) hmem (regionBase_aligned hp .win) le_rfl ?_
    rw [hannWindow_length, elementAddr_zero]
    omega
  | drop room =>
    obtain ⟨-, hroom, -⟩ := room
    have hsize : windowSize s ≤ p.wMax := by
      have : regionScalars p .frm = 2 * p.wMax := rfl
      omega
    refine (inv_iff p _).mpr ⟨?_, hstat, windowValid_of_winKept hwin rfl id (winKept_dropFrame hp hsize)⟩
    rw [dropFrame_mem, show 16 * windowSize s = 8 * (2 * windowSize s) by omega]
    exact memoryInv_eraseBytes hmem (regionBase_aligned hp .frm) _
  | nframes v _ => exact (inv_iff p _).mpr ⟨hmem, hstat, hwin⟩
  | outlen v _ => exact (inv_iff p _).mpr ⟨hmem, hstat, hwin⟩
  | tick => exact (inv_iff p _).mpr ⟨hmem, hstat, hwin⟩

theorem BodyEdits.inv (hp : p.legal = true) (h : Inv p s) (he : BodyEdits p i s₀ s t) : Inv p t := by
  induction he with
  | refl => exact h
  | tail _ hlast ih => exact hlast.inv hp ih

/-! ### The parts of the bodies as edits -/

/-- Words of a known number stored in a memory other than WIN. -/
theorem BodyEdits.store_words {g : Region} {n : Nat} {ws : List Word} (room : mayStore p i s₀ g n)
    (hlen : ws.length = n) (hg : g ≠ .win) :
    BodyEdits p i s₀ t { t with mem := writeWords t.mem (elementAddr p g 0) ws } :=
  .single (.store t g ws (hlen ▸ room) fun h => absurd h hg)

/-- Free words stored in a memory other than WIN. -/
theorem BodyEdits.scramble {g : Region} {n : Nat} (k : Nat) (room : mayStore p i s₀ g n) (hg : g ≠ .win) :
    BodyEdits p i s₀ t { t with mem := scramble k t.mem (elementAddr p g 0) n } :=
  store_words room (freeWords_length k _ n) hg

/-- The command may begin with `ensureWindow` (42_window.md R182): W is a window's size, and WIN is its to write
where WINOK = 0. -/
structure MayEnsureWindow (p : Params) (i : Instr) (s₀ t : State) : Prop where
  allowed : mayWriteWinok i = true
  sizeLow : 1 ≤ logwOf t
  sizeHigh : logwOf t ≤ p.logwMax
  room : t.status.winok = false → mayStore p i s₀ .win (windowSize t)

/-- What a body has done so far takes nothing of that right. -/
theorem MayEnsureWindow.of_keeps (h : MayEnsureWindow p i s₀ s) (hk : BodyKeeps p i s₀ s t) :
    MayEnsureWindow p i s₀ t where
  allowed := h.allowed
  sizeLow := hk.logw ▸ h.sizeLow
  sizeHigh := hk.logw ▸ h.sizeHigh
  room ht := by
    obtain ⟨-, -, -, -, -, hmono⟩ := hk.flags
    rw [hk.windowSize]
    refine h.room (Bool.eq_false_iff.mpr fun hs => ?_)
    exact absurd (hmono hs) (by simp [ht])

theorem ensureWindow_edits (h : MayEnsureWindow p i s₀ t) : BodyEdits p i s₀ t (ensureWindow p t) := by
  unfold ensureWindow
  split
  · exact .refl
  · next hw => exact .single (.generate t h.allowed (h.room (by simpa using hw)) h.sizeLow h.sizeHigh)

theorem ensureWindowFreely_edits (h : MayEnsureWindow p i s₀ t) :
    BodyEdits p i s₀ t (ensureWindowFreely p t) := by
  unfold ensureWindowFreely
  split
  · exact .refl
  · next hw =>
    have hw : t.status.winok = false := by simpa using hw
    split
    · exact .single (.generate t h.allowed (h.room hw) h.sizeLow h.sizeHigh)
    · exact .single (.store t .win _ (by rw [freeWords_length]; exact h.room hw) fun _ => hw)

/-- Neither form of `ensureWindow` changes a size the command works with. -/
theorem ensureWindow_sizes (p : Params) (t : State) :
    windowSize (ensureWindow p t) = windowSize t ∧ hopSize (ensureWindow p t) = hopSize t ∧
      frameCount (ensureWindow p t) = frameCount t ∧ analysisFrames (ensureWindow p t) = analysisFrames t := by
  obtain ⟨hl, hh, hs, hn⟩ := ensureWindow_registers p t
  exact sizes_eq_of_registers hl hh hn hs

theorem ensureWindowFreely_sizes (p : Params) (t : State) :
    windowSize (ensureWindowFreely p t) = windowSize t ∧ hopSize (ensureWindowFreely p t) = hopSize t ∧
      frameCount (ensureWindowFreely p t) = frameCount t ∧
      analysisFrames (ensureWindowFreely p t) = analysisFrames t := by
  rw [(ensureWindowFreely_spec p t).2]
  exact ⟨rfl, rfl, rfl, rfl⟩

theorem storeAnalysis_edits {sig : List Word}
    (hsig : sig.length = signalSpan (analysisFrames t) (windowSize t) (hopSize t))
    (spa : mayStore p i s₀ .spa (2 * (analysisFrames t * windowSize t))) (hn : writesNframes i = true) :
    BodyEdits p i s₀ t (storeAnalysis p sig t) := by
  have hlen := analyzeSignal_flatten_length (machineNum p) (logwOf t) (hopSize t) (analysisFrames t) sig hsig
  refine (BodyEdits.store_words spa ?_ (by decide)).tail (.nframes _ _ hn)
  rw [wordsOfComplex_length, hlen, windowSize]

theorem scrambleAnalysis_edits (spa : mayStore p i s₀ .spa (2 * (analysisFrames t * windowSize t)))
    (hn : writesNframes i = true) : BodyEdits p i s₀ t (scrambleAnalysis p t) :=
  ((BodyEdits.scramble t.tick spa (by decide)).tail (.nframes _ _ hn)).tail (.tick _)

theorem storeVocoded_edits {spec : List (Cx Word)} (hspec : spec.length = frameCount t * windowSize t)
    (spb : mayStore p i s₀ .spb (2 * (frameCount t * windowSize t)))
    (last : mayStore p i s₀ .lastph (windowSize t)) (new : mayStore p i s₀ .newph (windowSize t)) :
    BodyEdits p i s₀ t (storeVocoded p spec t) := by
  obtain ⟨hout, hbins⟩ := vocode_shapes (machineNum p) (windowSize t) (hopSize t) (stretchFactor t)
    (frameCount t) spec hspec
  refine (BodyEdits.store_words spb ?_ (by decide)).trans
    ((BodyEdits.store_words last ?_ (by decide)).trans (BodyEdits.store_words new ?_ (by decide)))
  · rw [wordsOfComplex_length, hout]
  · rw [List.length_map, hbins]
  · rw [List.length_map, hbins]

theorem scrambleVocoded_edits {f : Nat} (spb : mayStore p i s₀ .spb (2 * (f * windowSize t)))
    (last : mayStore p i s₀ .lastph (windowSize t)) (new : mayStore p i s₀ .newph (windowSize t)) :
    BodyEdits p i s₀ t { t with mem := scrambleVocoded p f t } :=
  (BodyEdits.scramble t.tick spb (by decide)).trans
    ((BodyEdits.scramble t.tick last (by decide)).trans (BodyEdits.scramble t.tick new (by decide)))

theorem storeSynthesis_edits {spec : List (Cx Word)}
    (out : mayStore p i s₀ .out (outputLength (frameCount t) (windowSize t) (hopSize t)))
    (ho : writesOutlen i = true) : BodyEdits p i s₀ t (storeSynthesis p spec t) := by
  refine (BodyEdits.store_words out ?_ (by decide)).tail (.outlen _ _ ho)
  rw [synthesizeFrames_length, framesOf_length, windowSize]

theorem scrambleOutput_edits {f : Nat} (out : mayStore p i s₀ .out (outputLength f (windowSize t) (hopSize t))) :
    BodyEdits p i s₀ t { t with mem := scrambleOutput p f t } :=
  BodyEdits.scramble t.tick out (by decide)

theorem scrambleSynthesis_edits
    (out : mayStore p i s₀ .out (outputLength (frameCount t) (windowSize t) (hopSize t)))
    (ho : writesOutlen i = true) : BodyEdits p i s₀ t (scrambleSynthesis p t) :=
  ((scrambleOutput_edits out).tail (.outlen _ _ ho)).tail (.tick _)

theorem scrambleRun_edits (spa : mayStore p i s₀ .spa (2 * (analysisFrames t * windowSize t)))
    (spb : mayStore p i s₀ .spb (2 * (analysisFrames t * windowSize t)))
    (last : mayStore p i s₀ .lastph (windowSize t)) (new : mayStore p i s₀ .newph (windowSize t))
    (out : mayStore p i s₀ .out (outputLength (analysisFrames t) (windowSize t) (hopSize t)))
    (hn : writesNframes i = true) (ho : writesOutlen i = true) : BodyEdits p i s₀ t (scrambleRun p t) := by
  have analysis := BodyEdits.scramble (t := t) t.tick spa (by decide)
  have stores := (analysis.trans (scrambleVocoded_edits spb last new)).trans (scrambleOutput_edits out)
  exact ((stores.tail (.nframes _ (freeLength p t.tick .nframes) hn)).tail
    (.outlen _ (freeLength p t.tick .outlen) ho)).tail (.tick _)

/-! ### The bodies as edits -/

theorem transformFrame_edits {f : Nat → List (Cx Word) → List (Cx Word)}
    (hf : ∀ n x, x.length = 2 ^ n → (f n x).length = 2 ^ n) (frm : mayStore p i s₀ .frm (2 * windowSize t)) :
    BodyEdits p i s₀ t (transformFrame p f t) := by
  unfold transformFrame
  split
  · next x hx =>
    refine BodyEdits.store_words frm ?_ (by decide)
    rw [wordsOfComplex_length, hf _ _ (readComplex_length hx), windowSize]
  · exact (BodyEdits.scramble t.tick frm (by decide)).tail (.tick _)

theorem analyzeBody_edits (hwin : MayEnsureWindow p i s₀ t)
    (spa : mayStore p i s₀ .spa (2 * (analysisFrames t * windowSize t)))
    (frm : mayStore p i s₀ .frm (2 * windowSize t)) (hn : writesNframes i = true) :
    BodyEdits p i s₀ t (analyzeBody p t) := by
  unfold analyzeBody
  split
  · next sig hsig =>
    obtain ⟨hw, hh, -, ha⟩ := ensureWindow_sizes p t
    rw [← hw] at frm
    rw [← hw, ← ha] at spa
    refine ((ensureWindow_edits hwin).trans (storeAnalysis_edits ?_ spa hn)).tail (.drop _ frm)
    rw [hw, hh, ha]
    exact readWords_length hsig
  · obtain ⟨hw, hh, -, ha⟩ := ensureWindowFreely_sizes p t
    rw [← hw] at frm
    rw [← hw, ← ha] at spa
    exact ((ensureWindowFreely_edits hwin).trans (scrambleAnalysis_edits spa hn)).tail (.drop _ frm)

theorem vocodeBody_edits (spb : mayStore p i s₀ .spb (2 * (frameCount t * windowSize t)))
    (last : mayStore p i s₀ .lastph (windowSize t)) (new : mayStore p i s₀ .newph (windowSize t)) :
    BodyEdits p i s₀ t (vocodeBody p t) := by
  unfold vocodeBody
  split
  · next spec hspec => exact storeVocoded_edits (readComplex_length hspec) spb last new
  · exact (scrambleVocoded_edits spb last new).tail (.tick _)

theorem synthBody_edits (bank : Bank) (hwin : MayEnsureWindow p i s₀ t)
    (out : mayStore p i s₀ .out (outputLength (frameCount t) (windowSize t) (hopSize t)))
    (frm : mayStore p i s₀ .frm (2 * windowSize t)) (ho : writesOutlen i = true) :
    BodyEdits p i s₀ t (synthBody p bank t) := by
  unfold synthBody
  split
  · obtain ⟨hw, hh, hf, -⟩ := ensureWindow_sizes p t
    rw [← hw] at frm
    rw [← hw, ← hh, ← hf] at out
    exact ((ensureWindow_edits hwin).trans (storeSynthesis_edits out ho)).tail (.drop _ frm)
  · obtain ⟨hw, hh, hf, -⟩ := ensureWindowFreely_sizes p t
    rw [← hw] at frm
    rw [← hw, ← hh, ← hf] at out
    exact ((ensureWindowFreely_edits hwin).trans (scrambleSynthesis_edits out ho)).tail (.drop _ frm)

/-- ANALYZE leaves in NFRAMES the frame count it computed, which fits (10_state.md R26). -/
theorem frameCount_analyzeBody {sig : List Word} (hsig : readSignal p t = some sig)
    (hcap : analysisFrames t < 2 ^ 32) : frameCount (analyzeBody p t) = analysisFrames t := by
  obtain ⟨-, -, -, ha⟩ := ensureWindow_sizes p t
  have hn : (analyzeBody p t).nframes = BitVec.ofNat 32 (analysisFrames t) := by simp [analyzeBody, hsig, ha]
  rw [frameCount, hn, BitVec.toNat_ofNat, Nat.mod_eq_of_lt hcap]

theorem frameCount_vocodeBody (p : Params) (t : State) : frameCount (vocodeBody p t) = frameCount t := by
  unfold vocodeBody
  split <;> rfl

theorem runBody_edits (hcap : analysisFrames t < 2 ^ 32) (hwin : MayEnsureWindow p i s₀ t)
    (spa : mayStore p i s₀ .spa (2 * (analysisFrames t * windowSize t)))
    (spb : mayStore p i s₀ .spb (2 * (analysisFrames t * windowSize t)))
    (last : mayStore p i s₀ .lastph (windowSize t)) (new : mayStore p i s₀ .newph (windowSize t))
    (out : mayStore p i s₀ .out (outputLength (analysisFrames t) (windowSize t) (hopSize t)))
    (frm : mayStore p i s₀ .frm (2 * windowSize t)) (hn : writesNframes i = true) (ho : writesOutlen i = true) :
    BodyEdits p i s₀ t (runBody p t) := by
  unfold runBody
  split
  · next sig hsig =>
    have analysis := analyzeBody_edits hwin spa frm hn
    have frames := frameCount_analyzeBody hsig hcap
    have size := analysis.keeps.windowSize
    rw [← frames, ← size] at spb
    rw [← size] at last new
    have pass : BodyEdits p i s₀ t (vocodeBody p (analyzeBody p t)) :=
      analysis.trans (vocodeBody_edits spb last new)
    have frames' := (frameCount_vocodeBody p (analyzeBody p t)).trans frames
    rw [← frames', ← pass.keeps.windowSize, ← pass.keeps.hopSize] at out
    rw [← pass.keeps.windowSize] at frm
    exact pass.trans (synthBody_edits .spb (hwin.of_keeps pass.keeps) out frm ho)
  · obtain ⟨hw, hh, -, ha⟩ := ensureWindowFreely_sizes p t
    rw [← hw] at frm last new
    rw [← hw, ← ha] at spa spb
    rw [← hw, ← hh, ← ha] at out
    exact ((ensureWindowFreely_edits hwin).trans (scrambleRun_edits spa spb last new out hn ho)).tail (.drop _ frm)

/-! ### What each command may store -/

theorem mayStore_frm (hi : .frm ∈ writeSet i) (hw : windowSize s ≤ p.wMax) :
    mayStore p i s .frm (2 * windowSize s) := by
  refine ⟨hi, Nat.mul_le_mul_left 2 hw, ?_⟩
  rw [show 8 * (2 * windowSize s) = 16 * windowSize s by omega]
  cases i <;> simp_all [writeSet, writeRanges]

theorem mayStore_win (hi : .win ∈ writeSet i) (hw : windowSize s ≤ p.wMax) (hok : s.status.winok = false) :
    mayStore p i s .win (windowSize s) := by
  refine ⟨hi, hw, ?_⟩
  cases i <;> simp_all [writeSet, writeRanges]

theorem mayStore_win_wingen (hw : windowSize s ≤ p.wMax) : mayStore p .wingen s .win (windowSize s) :=
  ⟨by decide, hw, by simp [writeRanges]⟩

theorem mayStore_spa (hi : .spa ∈ writeSet i) (hw : windowSize s ≤ p.wMax) (hf : analysisFrames s ≤ p.frameCap) :
    mayStore p i s .spa (2 * (analysisFrames s * windowSize s)) := by
  refine ⟨hi, Nat.mul_le_mul_left 2 (Nat.mul_le_mul hf hw), ?_⟩
  rw [show 8 * (2 * (analysisFrames s * windowSize s)) = 16 * (analysisFrames s * windowSize s) by omega]
  cases i <;> simp_all [writeSet, writeRanges]

/-- The memories of a vocoder pass of `f` frames, in VOCODE and in RUN. -/
theorem mayStore_vocoded {f : Nat} (hi : (i = .vocode ∧ f = frameCount s) ∨ (i = .run ∧ f = analysisFrames s))
    (hw : windowSize s ≤ p.wMax) (hf : f ≤ p.frameCap) :
    mayStore p i s .spb (2 * (f * windowSize s)) ∧ mayStore p i s .lastph (windowSize s) ∧
      mayStore p i s .newph (windowSize s) := by
  have hspb : 2 * (f * windowSize s) ≤ regionScalars p .spb := Nat.mul_le_mul_left 2 (Nat.mul_le_mul hf hw)
  have hlen : 8 * (2 * (f * windowSize s)) = 16 * (f * windowSize s) := by omega
  rcases hi with ⟨rfl, rfl⟩ | ⟨rfl, rfl⟩ <;>
    exact ⟨⟨by decide, hspb, by simp [writeRanges, hlen]⟩, ⟨by decide, hw, by simp [writeRanges]⟩,
      ⟨by decide, hw, by simp [writeRanges]⟩⟩

theorem mayStore_out_synth {bank : Bank}
    (ho : outputLength (frameCount s) (windowSize s) (hopSize s) ≤ p.outCap) :
    mayStore p (.synth bank) s .out (outputLength (frameCount s) (windowSize s) (hopSize s)) :=
  ⟨by simp [writeSet], ho, by simp [writeRanges]⟩

theorem mayStore_out_run (ho : outputLength (analysisFrames s) (windowSize s) (hopSize s) ≤ p.outCap) :
    mayStore p .run s .out (outputLength (analysisFrames s) (windowSize s) (hopSize s)) :=
  ⟨by decide, ho, by simp [writeRanges]⟩

/-- A command that may set WINOK and passed its CFG check has a window size that a window has (60_exceptions.md
R242). -/
theorem logw_bounds_of_configured (hi : mayWriteWinok i = true) (hc : configError p i s = false) :
    1 ≤ logwOf s ∧ logwOf s ≤ p.logwMax := by
  cases i <;>
    simp_all [mayWriteWinok, configError, windowConfigError, passConfigError, windowTooLarge, windowTooSmall] <;>
    omega

theorem mayEnsureWindow (hi : mayWriteWinok i = true) (hm : .win ∈ writeSet i)
    (hc : configError p i s = false) : MayEnsureWindow p i s s :=
  have ⟨hlo, hhi⟩ := logw_bounds_of_configured hi hc
  ⟨hi, hlo, hhi, mayStore_win hm (Nat.pow_le_pow_right (by decide) hhi)⟩

/-- The body of a command that passed its checks is a chain of edits that R50 and R70 let it make. -/
theorem bodyOf_edits (hp : p.legal = true) (hc : configError p i s = false) (hk : capacityError p i s = false) :
    BodyEdits p i s s (bodyOf p i s) := by
  obtain ⟨size, framesA, framesN, outSynth, outRun⟩ := within_capacities hc hk
  cases i with
  | nop => exact .refl
  | fft => exact transformFrame_edits (fft_length _) (mayStore_frm (by decide) (size (by decide)))
  | ifft => exact transformFrame_edits (ifft_length _) (mayStore_frm (by decide) (size (by decide)))
  | wingen =>
    obtain ⟨hlo, hhi⟩ := logw_bounds_of_configured rfl hc
    exact .single (.generate s rfl (mayStore_win_wingen (size (by decide))) hlo hhi)
  | analyze =>
    have hw := size (by decide)
    exact analyzeBody_edits (mayEnsureWindow rfl (by decide) hc)
      (mayStore_spa (by decide) hw (framesA (.inl rfl))) (mayStore_frm (by decide) hw) rfl
  | vocode =>
    obtain ⟨spb, last, new⟩ := mayStore_vocoded (.inl ⟨rfl, rfl⟩) (size (by decide)) (framesN (.inl rfl))
    exact vocodeBody_edits spb last new
  | synth bank =>
    exact synthBody_edits bank (mayEnsureWindow rfl (by simp [writeSet]) hc)
      (mayStore_out_synth (outSynth ⟨bank, rfl⟩)) (mayStore_frm (by simp [writeSet]) (size (by simp))) rfl
  | run =>
    have hw := size (by decide)
    have hf := framesA (.inr rfl)
    obtain ⟨spb, last, new⟩ := mayStore_vocoded (.inr ⟨rfl, rfl⟩) hw hf
    exact runBody_edits (hf.trans_lt (legal_frameCap_lt hp)) (mayEnsureWindow rfl (by decide) hc)
      (mayStore_spa (by decide) hw hf) spb last new (mayStore_out_run (outRun rfl))
      (mayStore_frm (by decide) hw) rfl rfl

end Sys2Proof.Machine
end

section
/-! The statements of 10_state.md settled: the invariants, what commands write, reset, the registers. -/

namespace Sys2Proof.Machine

/-! ## Every step keeps the invariants (O7) -/

theorem inv_raiseCmdError {p : Params} {s : State} (h : Inv p s) (e : CmdError) : Inv p (raiseCmdError e s) :=
  inv_of_memKept h rfl rfl (statusLegal_refuseFlags e s.status) id

theorem inv_complete {p : Params} {s : State} (h : Inv p s) (hb : s.status.busy = true) : Inv p (complete s) :=
  inv_of_memKept h rfl rfl (statusLegal_completeFlags h.statusLegal hb) id

/-- What a command answers: a refusal, or a completed body whose edits R50 and R70 let it make. -/
theorem exec_refuses_or_completes (i : Instr) (s : State) :
    (∃ e, exec i s = .next (raiseCmdError e s)) ∨
      exec i s = .next (complete (bodyOf Config.params i s)) ∧
        BodyEdits Config.params i s s (bodyOf Config.params i s) := by
  rcases exec_cases i s with ⟨-, he⟩ | ⟨-, -, he⟩ | ⟨hc, hk, he⟩
  · exact .inl ⟨.cfg, he⟩
  · exact .inl ⟨.cap, he⟩
  · exact .inr ⟨he, bodyOf_edits config_params_legal hc hk⟩

/-- A command in flight keeps the invariants. -/
theorem exec_inv {i : Instr} {s t : State} (h : Inv Config.params s) (hb : s.status.busy = true)
    (ht : exec i s = .next t) : Inv Config.params t := by
  rcases exec_refuses_or_completes i s with ⟨e, he⟩ | ⟨he, edits⟩ <;> rw [he] at ht <;> cases ht
  · exact inv_raiseCmdError h e
  · obtain ⟨hbusy, -⟩ := edits.keeps.flags
    exact inv_complete (edits.inv config_params_legal h) (hbusy.trans hb)

theorem performLatched_inv {s t : State} (h : Inv Config.params s) (hb : s.status.busy = true)
    (ht : performLatched s = .next t) : Inv Config.params t := by
  rcases performLatched_cases s with ⟨i, -, hi⟩ | ⟨e, -, he⟩
  · exact exec_inv h hb (hi ▸ ht)
  · rw [he] at ht
    cases ht
    exact inv_raiseCmdError h .illcmd

/-- A host read keeps the invariants: it has no side effect but ACCERR (20_memory.md R65, R66). -/
theorem hostRead_inv {p : Params} {s : State} (h : Inv p s) (addr size : Nat) : Inv p (hostRead p addr size s) := by
  have hs : statusLegal s.status = true := h.statusLegal
  rcases hostRead_cases p addr size s with ⟨-, w, hr⟩ | ⟨-, hr⟩ | ⟨-, hr⟩ <;> rw [hr]
  · exact inv_of_memKept h rfl rfl hs id
  · exact inv_of_memKept h rfl rfl hs id
  · exact inv_of_memKept h rfl rfl hs id

/-- A write to a register keeps the invariants: an issue leaves STATUS legal, and a write to LOGW clears WINOK
(10_state.md R22, R30, R43). -/
theorem writeReg_inv {p : Params} {s : State} (h : Inv p s) (v : Word) (r : Reg) : Inv p (writeReg s v r) := by
  have hs : statusLegal s.status = true := h.statusLegal
  cases r with
  | cmd => exact inv_of_memKept h rfl rfl (statusLegal_issueFlags s.status) id
  | status => exact h
  | logw =>
    obtain ⟨hmem, -, -⟩ := (inv_iff p s).mp h
    exact (inv_iff p _).mpr ⟨hmem, hs, fun hw => Bool.noConfusion hw⟩
  | hop => exact inv_of_memKept h rfl rfl hs id
  | stretch => exact inv_of_memKept h rfl rfl hs id
  | siglen => exact inv_of_memKept h rfl rfl hs id
  | nframes => exact inv_of_memKept h rfl rfl hs id
  | outlen => exact h

/-- What makes a write legal in a memory: an aligned address, of a memory the host may write (20_memory.md R64,
R65). -/
theorem writeLegal_region {p : Params} {s : State} {addr size : Nat} {g : Region}
    (h : writeLegal p s addr size = true) (hg : placeOf p addr = .region g) :
    addr % 8 = 0 ∧ regionHostWritable g = true := by
  simp only [writeLegal, wellPlaced, hg, Bool.and_eq_true, decide_eq_true_eq] at h
  obtain ⟨⟨⟨⟨-, haligned⟩, -⟩, -⟩, hwritable⟩ := h
  exact ⟨haligned, hwritable⟩

/-- A host write of a word of a memory keeps the invariants: WIN is not among those it may write. -/
theorem writeMemory_inv {p : Params} (hp : p.legal = true) {s : State} (h : Inv p s) {addr : Nat} {g : Region}
    (haligned : addr % 8 = 0) (hplace : placeOf p addr = .region g) (hwritable : regionHostWritable g = true)
    (v : Word) : Inv p { s with mem := writeWords s.mem addr [v] } := by
  have hwin : g ≠ .win := fun hg => by simp [hg, regionHostWritable] at hwritable
  obtain ⟨hlo, hhi⟩ := (inRegion_iff p g addr).mp (inRegion_of_placeOf hplace)
  have hbase := regionBase_aligned hp g
  have hend : addr + 8 * [v].length ≤ regionBase p g + 8 * regionScalars p g := by
    rw [List.length_singleton]
    omega
  obtain ⟨hmem, hs, hvalid⟩ := (inv_iff p s).mp h
  exact (inv_iff p _).mpr ⟨memoryInv_writeWords hmem haligned hlo hend, hs,
    windowValid_of_winKept hvalid rfl id (winKept_writeWords hp s.mem hwin hlo hend)⟩

theorem hostWrite_inv {p : Params} (hp : p.legal = true) {s : State} (h : Inv p s) (addr size : Nat) (v : Word) :
    Inv p (hostWrite p addr size v s) := by
  rcases hostWrite_cases p addr size v s with ⟨-, r, -, hw⟩ | ⟨hl, g, hg, hw⟩ | ⟨-, hw⟩ <;> rw [hw]
  · exact writeReg_inv h v r
  · obtain ⟨haligned, hwritable⟩ := writeLegal_region hl hg
    exact writeMemory_inv hp h haligned hg hwritable v
  · exact inv_of_memKept h rfl rfl h.statusLegal id

/-- A reset leads to a state that meets the invariants, whatever the state before it (10_state.md R48). -/
theorem resetTo_inv (p : Params) (s : State) : Inv p (resetTo State.reset s) :=
  (inv_iff p _).mpr ⟨memoryInv_nil p, rfl, fun hw => Bool.noConfusion hw⟩

theorem environmentAct_inv {p : Params} (hp : p.legal = true) {s : State} (h : Inv p s) (a : Act) :
    Inv p (environmentAct p State.reset a s) := by
  cases a with
  | bus op =>
    cases op with
    | read addr size => exact hostRead_inv h addr size
    | write addr size v => exact hostWrite_inv hp h addr size v
  | poll => exact hostRead_inv h _ _
  | reset => exact resetTo_inv p s

/-- Settles O7: the engine's body is a chain of edits each of which keeps the invariants, a refusal writes STATUS
only, and the environment cannot write WIN. -/
theorem stepKeepsInvariants : Obligations.StepKeepsInvariants := by
  intro s t h ht
  rcases step_cases s with ⟨hb, hs⟩ | ⟨e, rest, -, -, hs⟩ | ⟨-, -, hs⟩
  · exact performLatched_inv h hb (hs ▸ ht)
  · rw [hs] at ht
    cases ht
    have hs : statusLegal s.status = true := h.statusLegal
    have hrest : Inv Config.params { s with script := scriptAfter s.status.busy e rest } :=
      inv_of_memKept h rfl rfl hs id
    exact environmentAct_inv config_params_legal hrest e.act
  · rw [hs] at ht
    cases ht
    exact h

/-! ## What a command writes (O23, O24, O22) -/

theorem ensureWindowFreely_tick (p : Params) (s : State) : (ensureWindowFreely p s).tick = s.tick := by
  rw [(ensureWindowFreely_spec p s).2]

theorem transformFrame_tick_of_unheld {p : Params} {s : State} {f : Nat → List (Cx Word) → List (Cx Word)}
    (h : (readFrame p s).isSome = false) : (transformFrame p f s).tick = s.tick + 1 := by
  rw [Option.isSome_eq_false_iff, Option.isNone_iff_eq_none] at h
  simp [transformFrame, h]

/-- A command that reads an element holding no value counts one unspecified event (log 4, log 5). -/
theorem bodyOf_tick_of_unheld {p : Params} {i : Instr} {s : State} (h : operandsHeld p i s = false) :
    (bodyOf p i s).tick = s.tick + 1 := by
  cases i with
  | nop => exact Bool.noConfusion h
  | fft => exact transformFrame_tick_of_unheld h
  | ifft => exact transformFrame_tick_of_unheld h
  | wingen => exact Bool.noConfusion h
  | analyze =>
    have hn : readSignal p s = none := by simpa [operandsHeld] using h
    simp [bodyOf, analyzeBody, hn, ensureWindowFreely_tick]
  | vocode =>
    have hn : readSpectrum p s .spa = none := by simpa [operandsHeld] using h
    simp [bodyOf, vocodeBody, hn]
  | synth bank =>
    have hn : readSpectrum p s (bankRegion bank) = none := by simpa [operandsHeld] using h
    simp [bodyOf, synthBody, hn, ensureWindowFreely_tick]
  | run =>
    have hn : readSignal p s = none := by simpa [operandsHeld] using h
    simp [bodyOf, runBody, hn, ensureWindowFreely_tick]

/-- The bytes outside the ranges of R70 are outside whatever the command may store. -/
theorem BodyKeeps.outsideRanges {p : Params} {i : Instr} {s t : State} (h : BodyKeeps p i s s t) :
    bytesKeptOutside (writeRanges p i s) s t :=
  fun a ha => h.bytes a fun _ _ ⟨_, _, hr⟩ => ha _ hr

/-- The bytes outside the memories of the row of R50 are outside whatever the command may store. -/
theorem BodyKeeps.outsideRow {p : Params} {i : Instr} {s t : State} (h : BodyKeeps p i s s t) (a : Nat)
    (ha : ∀ g ∈ writeSet i, inRegion p g a = false) : readByte t.mem a = readByte s.mem a := by
  refine h.bytes a fun g n ⟨hg, hroom, _⟩ => ?_
  have hout : ¬(regionBase p g ≤ a ∧ a < regionBase p g + 8 * regionScalars p g) := by
    rw [← inRegion_iff, ha g hg]
    decide
  omega

/-- Settles O23: such a command passes its checks, so its body keeps what R50 and R70 say, and counts one event. -/
theorem unheldOperandsStillComplete : Obligations.UnheldOperandsStillComplete := by
  intro i s hc hk hu
  have he : exec i s = .next (complete (bodyOf Config.params i s)) := by
    rw [exec_eq_perform, hc, hk]
    rfl
  have keeps := (bodyOf_edits config_params_legal hc hk).keeps
  obtain ⟨-, herr, hcode, hacc, hwin, hwin'⟩ := keeps.flags
  exact ⟨_, he, rfl, rfl, herr, hcode, hacc, bodyOf_tick_of_unheld hu, keeps.registers, keeps.outsideRanges,
    keeps.nframes, keeps.outlen, hwin, hwin'⟩

/-- Settles O24: a refusal writes STATUS only; a command that completes keeps what R50 and R70 say. -/
theorem commandsWriteOnlyTheirRow : Obligations.CommandsWriteOnlyTheirRow := by
  intro i s t ht
  rcases exec_refuses_or_completes i s with ⟨e, he⟩ | ⟨he, edits⟩ <;> rw [he] at ht <;> cases ht
  · exact ⟨fun _ _ => rfl, operandRegistersKept_refl s, rfl, fun _ => rfl, fun _ => rfl, fun _ => rfl, id⟩
  · have keeps := edits.keeps
    obtain ⟨-, -, -, hacc, hwin, hwin'⟩ := keeps.flags
    exact ⟨keeps.outsideRow, keeps.registers, hacc, keeps.nframes, keeps.outlen, hwin, hwin'⟩

/-- Settles O22: a refusal sets ERR and not DONE; a completion sets DONE and leaves ERR as the issue left it. -/
theorem everyCommandEnds : Obligations.EveryCommandEnds := by
  intro i s
  rcases exec_refuses_or_completes i s with ⟨e, he⟩ | ⟨he, edits⟩
  · exact ⟨_, he, rfl, fun _ _ => rfl⟩
  · obtain ⟨-, herr, -⟩ := edits.keeps.flags
    refine ⟨_, he, rfl, fun _ hs => ?_⟩
    rw [complete_status, completeFlags_done, completeFlags_err, herr, hs]
    rfl

/-! ## Reset and the step (O5, O6, O8) -/

theorem realOf_stretch_reset : realOf State.reset.stretch = 1.5 := by
  have h : signedUnitsOf State.reset.stretch = 3 * 2 ^ 1073 := by decide +kernel
  have hunit : (2 : ℝ) ^ 1074 = 2 ^ 1073 * 2 := pow_succ 2 1073
  have hpos : (2 : ℝ) ^ 1073 ≠ 0 := by positivity
  rw [realOf, h, Int.cast_mul, Int.cast_pow, Int.cast_ofNat, Int.cast_ofNat, hunit, mul_comm (3 : ℝ),
    mul_div_mul_left _ _ hpos]
  norm_num

/-- The script after a reset event has happened is what followed it (log 2). -/
theorem scriptAfter_reset {e : Event} (he : e.act = .reset) (busy : Bool) (rest : List Event) :
    scriptAfter busy e rest = rest := by
  simp [scriptAfter, he]

theorem sameHardware_resetTo (r s : State) : sameHardware r (resetTo r s) :=
  ⟨rfl, rfl, rfl, rfl, rfl, rfl, rfl, rfl, rfl⟩

/-- A step takes a reset that comes next in the script, unless the engine moves first. -/
theorem step_reset {s : State} {e : Event} {rest : List Event} (hs : s.script = e :: rest) (he : e.act = .reset)
    (hb : s.status.busy = true → e.early ≠ 0) :
    step s = .next (resetTo State.reset { s with script := rest }) := by
  have hmove : nextMove s.status.busy s.script = .environment .reset rest := by
    rw [hs, nextMove, if_neg (by simpa using hb), he, scriptAfter_reset he]
  simp [step, stepBy, hmove, environmentAct]

/-- Settles O5. -/
theorem resetState : Obligations.ResetState := by
  refine ⟨rfl, rfl, rfl, rfl, rfl, realOf_stretch_reset, rfl, rfl, rfl, fun _ => rfl,
    fun s => sameHardware_resetTo State.reset s, ?_⟩
  intro s e rest hs he hb
  exact ⟨_, step_reset hs he hb, sameHardware_resetTo _ _, rfl⟩

/-- Settles O6: the reset event leaves the reset state itself as it is. -/
theorem resetMeetsInvariants : Obligations.ResetMeetsInvariants := resetTo_inv Config.params State.reset

theorem performLatched_of_decode {s : State} {i : Instr} (h : decode s.cmd = .ok i) :
    performLatched s = exec i s := by
  simp [performLatched, performBy, h]

/-- A word of the opcode table is laid out as bytes and read back as itself (20_memory.md R63). -/
theorem decode_of_decodeTableWord {nbits w : Nat} {i : Instr} (h : decodeTableWord nbits w = some i) :
    decode (wordOfTableBits nbits w) = .ok i := by
  unfold decodeTableWord decodeBytes at h
  rw [if_pos (bytesOfWord_length _), wordOfBytes_bytesOfWord] at h
  split at h
  · next heq =>
    cases h
    exact Option.some.inj heq
  · cases h

theorem early_of_mem_head?_letEngineMove {script : List Event} {e : Event} (h : e ∈ (letEngineMove script).head?) :
    e.early = 0 := by
  cases script with
  | nil => cases h
  | cons x rest =>
    cases h
    rfl

/-- Settles O8. -/
theorem stepRunsTheDecodedCommand : Obligations.StepRunsTheDecodedCommand := by
  constructor
  · intro s i hb hs hd
    rw [step_engine hb hs, performLatched_of_decode hd]
  · intro s nbits w i hi
    rw [step_engine rfl fun _ he => early_of_mem_head?_letEngineMove he,
      performLatched_of_decode (decode_of_decodeTableWord hi)]

/-! ## The host's registers (O9, O10, O11) -/

theorem placeOf_regAddr (r : Reg) : placeOf Config.params (regAddr Config.params r) = .reg r := by
  cases r <;> rfl

theorem wellPlaced_regAddr (r : Reg) : wellPlaced Config.params (regAddr Config.params r) 8 = true := by
  cases r <;> rfl

/-- While BUSY = 0, a read of a register returns its word (10_state.md R49). -/
theorem hostRead_reg {s : State} (hb : s.status.busy = false) (r : Reg) :
    hostRead Config.params (regAddr Config.params r) 8 s = returnWord (readReg s r) s := by
  have hl : readLegal Config.params s (regAddr Config.params r) 8 = true := by
    cases r <;> simp [readLegal, placeOf_regAddr, wellPlaced_regAddr, hb]
  simp [hostRead, readPlace, hl, placeOf_regAddr]

/-- While BUSY = 0, a write of a register does what its rule says, or sets ACCERR where it is read-only (10_state.md
R49, 20_memory.md R65). -/
theorem hostWrite_reg {s : State} (hb : s.status.busy = false) (v : Word) (r : Reg) :
    hostWrite Config.params (regAddr Config.params r) 8 v s =
      if regHostWritable r then writeReg s v r else raiseAccErr s := by
  have hl : writeLegal Config.params s (regAddr Config.params r) 8 = regHostWritable r := by
    simp [writeLegal, placeOf_regAddr, wellPlaced_regAddr, hb]
  simp [hostWrite, writePlace, hl, placeOf_regAddr]

/-- The slots after the last register are a hole (10_state.md R49). -/
theorem placeOf_reserved {o : Nat} (hlo : 0x40 ≤ o) (hhi : o < 0x100) : placeOf Config.params o = .hole := by
  have hreg : (allRegs.find? fun r => regAddr Config.params r == o) = none := by
    rw [List.find?_eq_none]
    intro r _
    have : regAddr Config.params r < 0x40 := by cases r <;> decide
    simp only [beq_iff_eq]
    omega
  have hregion : (allRegions.find? fun g => inRegion Config.params g o) = none := by
    rw [List.find?_eq_none]
    intro g _
    have : 0x100 ≤ regionBase Config.params g := by cases g <;> decide
    rw [inRegion_iff]
    omega
  rw [placeOf, hreg, hregion]

/-- An access to a hole is illegal, aligned or not (20_memory.md R65). -/
theorem hole_illegal {p : Params} {addr : Nat} (h : placeOf p addr = .hole) (size : Nat) (v : Word) (s : State) :
    hostWrite p addr size v s = raiseAccErr s ∧
      hostRead p addr size s = raiseAccErr (returnUnspecified addr s) := by
  simp [hostWrite, hostRead, writeLegal, readLegal, h]

/-- Settles O9: an issue by its definition, and R49's reading of CMD. -/
theorem writeToCmdIssues : Obligations.WriteToCmdIssues :=
  ⟨rfl, fun _ v hb => ⟨hostWrite_reg hb v .cmd, hostRead_reg hb .cmd⟩⟩

/-- Settles O10: one rule for reads, one for writes, one for the reserved slots, at each register's address. -/
theorem registerMap : Obligations.RegisterMap := by
  intro s v hb
  have read := hostRead_reg hb
  have write := hostWrite_reg hb v
  refine ⟨⟨read .cmd, read .status, read .logw, read .hop, read .stretch, read .siglen, read .nframes,
    read .outlen⟩, ⟨write .cmd, write .status, ?_, ?_, write .stretch, ?_, ?_, write .outlen⟩, ?_,
    rfl, rfl, rfl, rfl, rfl, rfl, rfl, rfl⟩
  · rw [← BitVec.setWidth_eq_extractLsb' (by decide)]
    exact write .logw
  · rw [← BitVec.setWidth_eq_extractLsb' (by decide)]
    exact write .hop
  · rw [← BitVec.setWidth_eq_extractLsb' (by decide)]
    exact write .siglen
  · rw [← BitVec.setWidth_eq_extractLsb' (by decide)]
    exact write .nframes
  · exact fun o hlo hhi => hole_illegal (placeOf_reserved hlo hhi) 8 v s

/-- Bit `i` of one flag at its place. -/
theorem getLsbD_bitWord (b : Bool) {pos : Nat} (hp : pos < 64) (i : Nat) :
    (bitWord b pos).getLsbD i = (decide (i = pos) && b) := by
  cases b with
  | false => simp [bitWord]
  | true =>
    have htwo : bitWord true pos = BitVec.twoPow 64 pos := (BitVec.twoPow_eq 64 pos).symm
    rw [htwo, BitVec.getLsbD_twoPow]
    by_cases h : pos = i
    · simp [h, h ▸ hp]
    · simp [h, Ne.symm h]

/-- Bit `i` of ERRCODE at its place, bits 11:8. -/
theorem getLsbD_errcode (c : BitVec 4) (i : Nat) :
    (c.setWidth 64 <<< 8).getLsbD i = (decide (8 ≤ i ∧ i ≤ 11) && c.getLsbD (i - 8)) := by
  rw [BitVec.getLsbD_shiftLeft, BitVec.getLsbD_setWidth]
  by_cases h : 8 ≤ i ∧ i ≤ 11
  · have hlow : i < 64 ∧ ¬i < 8 ∧ i - 8 < 64 := by omega
    simp [h, hlow]
  · by_cases hlow : i < 8
    · simp [h, hlow]
    · simp [h, BitVec.getLsbD_of_ge c (i - 8) (by omega)]

/-- Settles O11: STATUS is the union of its fields, each at its own place. -/
theorem statusBits : Obligations.StatusBits := by
  intro t i
  have flag := fun b (pos : Nat) (hp : pos < 64) => getLsbD_bitWord b hp i
  simp only [statusWord, BitVec.getLsbD_or, getLsbD_errcode, flag _ 0 (by decide), flag _ 1 (by decide),
    flag _ 2 (by decide), flag _ 3 (by decide), flag _ 4 (by decide)]
  split_ifs with h0 h1 h2 h3 h4 hcode
  · simp [h0]
  · simp [h1]
  · simp [h2]
  · simp [h3]
  · simp [h4]
  · simp [h0, h1, h2, h3, h4, hcode]
  · simp [h0, h1, h2, h3, h4, hcode]

end Sys2Proof.Machine
end

section
/-! SUPPORT. What stands at an address: `placeOf` as equivalences, for any legal choice of the parameters (10_state.md
R49, 20_memory.md R61). -/

namespace Sys2Proof.Machine

variable {p : Params} {a : Nat}

theorem find_reg_eq_some_iff {r : Reg} :
    (allRegs.find? fun r => regAddr p r == a) = some r ↔ a = regAddr p r := by
  constructor
  · intro h
    have := List.find?_some (p := fun r => regAddr p r == a) h
    exact (beq_iff_eq.mp this).symm
  · rintro rfl
    cases r <;> simp [allRegs, regAddr, regOffset]

theorem find_region_eq_some_iff (hp : p.regionsInOrder = true) {g : Region} :
    (allRegions.find? fun g => inRegion p g a) = some g ↔ inRegion p g a = true := by
  refine ⟨fun h => List.find?_some (p := fun g => inRegion p g a) h, fun h => ?_⟩
  have hg : g ∈ allRegions := by cases g <;> decide
  obtain ⟨g', hfind⟩ :=
    Option.isSome_iff_exists.mp (List.find?_isSome (p := fun g => inRegion p g a).mpr ⟨g, hg, h⟩)
  have hin := List.find?_some (p := fun g => inRegion p g a) hfind
  have hsame : g' = g := by
    by_contra hne
    have := regions_apart hp hne
    rw [inRegion_iff] at h hin
    omega
  rw [hfind, hsame]

/-- The registers end below the first memory. -/
theorem regAddr_lt_regionBase (hp : p.regionsInOrder = true) (r : Reg) (g : Region) :
    regAddr p r < regionBase p g := by
  have hr : regAddr p r < p.baseReg + 0x100 := by cases r <;> simp [regAddr, regOffset]
  simp only [Params.regionsInOrder, Bool.and_eq_true, decide_eq_true_eq] at hp
  cases g <;> simp only [regionBase] <;> omega

theorem placeOf_eq_reg_iff {r : Reg} : placeOf p a = .reg r ↔ a = regAddr p r := by
  rw [← find_reg_eq_some_iff, placeOf]
  split
  · next heq => simp [heq]
  · next heq => split <;> simp [heq]

theorem placeOf_eq_region_iff (hp : p.regionsInOrder = true) {g : Region} :
    placeOf p a = .region g ↔ inRegion p g a = true := by
  refine ⟨inRegion_of_placeOf, fun h => ?_⟩
  have hreg : (allRegs.find? fun r => regAddr p r == a) = none := by
    rw [List.find?_eq_none]
    intro r _
    have hlt := regAddr_lt_regionBase hp r g
    rw [inRegion_iff] at h
    simp only [beq_iff_eq]
    omega
  rw [placeOf, hreg, (find_region_eq_some_iff hp).mpr h]

theorem placeOf_eq_hole_iff :
    placeOf p a = .hole ↔ (¬∃ r, placeOf p a = .reg r) ∧ ∀ g, placeOf p a ≠ .region g := by
  cases placeOf p a <;> simp

theorem forall_region {P : Region → Prop} :
    (∀ g, P g) ↔ P .win ∧ P .lastph ∧ P .newph ∧ P .frm ∧ P .sig ∧ P .out ∧ P .spa ∧ P .spb :=
  ⟨fun h => ⟨h _, h _, h _, h _, h _, h _, h _, h _⟩,
    fun ⟨hwin, hlast, hnew, hfrm, hsig, hout, hspa, hspb⟩ g => by cases g <;> assumption⟩

/-- A word of a memory lies inside the aperture. -/
theorem lt_apertureSize_of_region (hp : p.regionsInOrder = true) {g : Region} (h : placeOf p a = .region g) :
    a < p.apertureSize := by
  obtain ⟨-, hhi⟩ := (inRegion_iff p g a).mp (inRegion_of_placeOf h)
  have hsize : regionBase p g + 8 * regionScalars p g ≤ p.apertureSize := by
    simp only [Params.regionsInOrder, Bool.and_eq_true, decide_eq_true_eq] at hp
    cases g <;>
      simp only [regionBase, regionScalars, regionIsComplex, regionElements, if_true, Bool.false_eq_true,
        if_false] <;> omega
  omega

end Sys2Proof.Machine
end

section
/-! The statements of 20_memory.md settled: the address map, the host's accesses, the byte order. -/

namespace Sys2Proof.Machine

/-! ## The address map (O12) -/

theorem config_regionsInOrder : Config.params.regionsInOrder = true := legal_regionsInOrder config_params_legal

/-- The aligned addresses of the registers are the first eight words. -/
theorem placeOf_isReg_iff {a : Nat} (ha : a % 8 = 0) : (∃ r, placeOf Config.params a = .reg r) ↔ a < 0x40 := by
  simp only [placeOf_eq_reg_iff]
  constructor
  · rintro ⟨r, rfl⟩
    cases r <;> decide
  · intro hlt
    obtain ⟨k, rfl⟩ := Nat.dvd_of_mod_eq_zero ha
    have hk : k < 8 := by omega
    interval_cases k
    exacts [⟨.cmd, rfl⟩, ⟨.status, rfl⟩, ⟨.logw, rfl⟩, ⟨.hop, rfl⟩, ⟨.stretch, rfl⟩, ⟨.siglen, rfl⟩,
      ⟨.nframes, rfl⟩, ⟨.outlen, rfl⟩]

/-- Where a memory stands, from its base to its end. -/
theorem placeOf_config_region_iff (g : Region) (a : Nat) :
    placeOf Config.params a = .region g ↔
      regionBase Config.params g ≤ a ∧ a < regionBase Config.params g + 8 * regionScalars Config.params g :=
  (placeOf_eq_region_iff config_regionsInOrder).trans (inRegion_iff _ g a)

/-- Settles O12: the registers and the eight memories by their bounds; a hole is what is left. -/
theorem addressMap : Obligations.AddressMap := by
  intro a ha
  have hreg := placeOf_isReg_iff ha
  have hwin : placeOf Config.params a = .region .win ↔ 0x2000 ≤ a ∧ a < 0x4000 := placeOf_config_region_iff .win a
  have hlast : placeOf Config.params a = .region .lastph ↔ 0x4000 ≤ a ∧ a < 0x6000 :=
    placeOf_config_region_iff .lastph a
  have hnew : placeOf Config.params a = .region .newph ↔ 0x6000 ≤ a ∧ a < 0x8000 :=
    placeOf_config_region_iff .newph a
  have hfrm : placeOf Config.params a = .region .frm ↔ 0x8000 ≤ a ∧ a < 0xC000 := placeOf_config_region_iff .frm a
  have hsig : placeOf Config.params a = .region .sig ↔ 0x800000 ≤ a ∧ a < 0x1000000 :=
    placeOf_config_region_iff .sig a
  have hout : placeOf Config.params a = .region .out ↔ 0x1000000 ≤ a ∧ a < 0x2000000 :=
    placeOf_config_region_iff .out a
  have hspa : placeOf Config.params a = .region .spa ↔ 0x4000000 ≤ a ∧ a < 0x8000000 :=
    placeOf_config_region_iff .spa a
  have hspb : placeOf Config.params a = .region .spb ↔ 0x8000000 ≤ a ∧ a < 0xC000000 :=
    placeOf_config_region_iff .spb a
  refine ⟨hreg, hwin, hlast, hnew, hfrm, hsig, hout, hspa, hspb, ?_⟩
  rw [placeOf_eq_hole_iff, forall_region, hreg]
  simp only [ne_eq, hwin, hlast, hnew, hfrm, hsig, hout, hspa, hspb]
  omega

/-! ## Illegal accesses (O13, O14) -/

theorem hostWrite_of_illegal {p : Params} {s : State} {addr size : Nat} (h : writeLegal p s addr size = false)
    (v : Word) : hostWrite p addr size v s = raiseAccErr s := by
  simp [hostWrite, h]

theorem hostRead_of_illegal {p : Params} {s : State} {addr size : Nat} (h : readLegal p s addr size = false) :
    hostRead p addr size s = raiseAccErr (returnUnspecified addr s) := by
  simp [hostRead, h]

/-- What a legal write is (20_memory.md R64, R65). -/
theorem writeLegal_iff {p : Params} {s : State} {addr size : Nat} :
    writeLegal p s addr size = true ↔
      size = 8 ∧ addr % 8 = 0 ∧ addr < p.apertureSize ∧ s.status.busy = false ∧
        ((∃ r, placeOf p addr = .reg r ∧ regHostWritable r = true) ∨
          ∃ g, placeOf p addr = .region g ∧ regionHostWritable g = true) := by
  unfold writeLegal wellPlaced
  cases placeOf p addr <;> simp [and_assoc]

/-- What a legal read is: while BUSY = 1, of STATUS only (20_memory.md R64, R65, R75). -/
theorem readLegal_iff {p : Params} {s : State} {addr size : Nat} :
    readLegal p s addr size = true ↔
      size = 8 ∧ addr % 8 = 0 ∧ addr < p.apertureSize ∧ placeOf p addr ≠ .hole ∧
        (s.status.busy = true → addr = regAddr p .status) := by
  rw [← placeOf_eq_reg_iff (r := .status)]
  unfold readLegal wellPlaced
  cases placeOf p addr with
  | reg r => cases r <;> simp [and_assoc]
  | region g => simp [and_assoc]
  | hole => simp

/-- Settles O13: each of the listed accesses lacks one of the conditions of a legal one. -/
theorem illegalAccessSetsAccerrOnly : Obligations.IllegalAccessSetsAccerrOnly := by
  intro s addr size v
  refine ⟨fun h => hostWrite_of_illegal ?_ v, fun h => hostRead_of_illegal ?_⟩
  · rw [Bool.eq_false_iff, ne_eq, writeLegal_iff]
    rintro ⟨hsize, haligned, hinside, hidle, hplace⟩
    obtain h | h | h | h | h | h | h | h | h | h | hbusy := h
    · exact h hsize
    · exact h haligned
    · exact absurd hinside (Nat.not_lt.mpr h)
    iterate 7 · simp [h, regHostWritable, regionHostWritable] at hplace
    · simp [hidle] at hbusy
  · rw [Bool.eq_false_iff, ne_eq, readLegal_iff]
    rintro ⟨hsize, haligned, hinside, hhole, hstatus⟩
    obtain h | h | h | h | ⟨hbusy, hne⟩ := h
    · exact h hsize
    · exact h haligned
    · exact absurd hinside (Nat.not_lt.mpr h)
    · exact hhole h
    · exact hne (hstatus hbusy)

/-- Settles O14: STATUS is the one place a busy machine may be read at; no write is legal. -/
theorem onlyStatusReadableWhileBusy : Obligations.OnlyStatusReadableWhileBusy := by
  intro s hb
  refine ⟨?_, by rw [statusBits, if_pos rfl, hb], fun addr size h => hostRead_of_illegal ?_,
    fun addr size v => hostWrite_of_illegal ?_ v⟩
  · have hplace : placeOf Config.params 0x8 = .reg .status := placeOf_regAddr .status
    have hlegal : readLegal Config.params s 0x8 8 = true :=
      readLegal_iff.mpr ⟨rfl, rfl, by decide, by simp [hplace], fun _ => rfl⟩
    simp [hostRead, readPlace, hlegal, hplace, readReg, returnWord]
  · rw [Bool.eq_false_iff, ne_eq, readLegal_iff]
    rintro ⟨hsize, -, -, -, hstatus⟩
    exact h ⟨hstatus hb, hsize⟩
  · rw [Bool.eq_false_iff, ne_eq, writeLegal_iff]
    rintro ⟨-, -, -, hidle, -⟩
    simp [hb] at hidle

/-! ## Reads and writes of memory (O16, O17, O18) -/

/-- While BUSY = 0 an aligned read in a memory is legal, in a read-only one as well (20_memory.md R65). -/
theorem readLegal_region {p : Params} (hp : p.regionsInOrder = true) {s : State} {addr : Nat} {g : Region}
    (hidle : s.status.busy = false) (haligned : addr % 8 = 0) (hg : placeOf p addr = .region g) :
    readLegal p s addr 8 = true :=
  readLegal_iff.mpr ⟨rfl, haligned, lt_apertureSize_of_region hp hg, by simp [hg], by simp [hidle]⟩

theorem hostRead_of_held {p : Params} {s : State} {addr : Nat} {g : Region} (hlegal : readLegal p s addr 8 = true)
    (hg : placeOf p addr = .region g) {w : Word} (hw : readWord s.mem addr = some w) :
    hostRead p addr 8 s = returnWord w s := by
  simp [hostRead, readPlace, hlegal, hg, hw]

theorem hostRead_of_unheld {p : Params} {s : State} {addr : Nat} {g : Region}
    (hlegal : readLegal p s addr 8 = true) (hg : placeOf p addr = .region g) (hw : readWord s.mem addr = none) :
    hostRead p addr 8 s = returnUnspecified addr s := by
  simp [hostRead, readPlace, hlegal, hg, hw]

theorem hostWrite_region {p : Params} {s : State} {addr : Nat} {g : Region}
    (hlegal : writeLegal p s addr 8 = true) (hg : placeOf p addr = .region g) (v : Word) :
    hostWrite p addr 8 v s = { s with mem := writeWords s.mem addr [v] } := by
  simp [hostWrite, writePlace, hlegal, hg]

/-- Settles O16: by what a write of words leaves to be read, at its place and outside it. -/
theorem hostWriteThenRead : Obligations.HostWriteThenRead := by
  constructor
  · intro s addr v g hlegal hg
    obtain ⟨-, haligned, -, hidle, -⟩ := writeLegal_iff.mp hlegal
    rw [hostWrite_region hlegal hg]
    refine ⟨hostRead_of_held ?_ hg (readWord_writeWords s.mem addr [v] 0 Nat.zero_lt_one),
      fun a ha => readByte_writeWords_outside s.mem addr [v] a (ha _ (List.mem_singleton_self _)), rfl⟩
    exact readLegal_region config_regionsInOrder hidle haligned hg
  · intro s addr g hidle haligned hg
    have hlegal := readLegal_region config_regionsInOrder hidle haligned hg
    exact ⟨fun w hw => hostRead_of_held hlegal hg hw, fun hw => hostRead_of_unheld hlegal hg hw⟩

theorem sameHardware_refl (s : State) : sameHardware s s := ⟨rfl, rfl, rfl, rfl, rfl, rfl, rfl, rfl, rfl⟩

/-- Settles O17: what a host read can do, case by case. -/
theorem readsHaveNoSideEffect : Obligations.ReadsHaveNoSideEffect := by
  intro s addr size
  rcases hostRead_cases Config.params addr size s with ⟨hl, w, hr⟩ | ⟨hl, hr⟩ | ⟨hl, hr⟩ <;> rw [hr, hl]
  · exact ⟨w, rfl, rfl, sameHardware_refl s⟩
  · exact ⟨_, rfl, rfl, sameHardware_refl s⟩
  · exact ⟨_, rfl, rfl, sameHardware_refl (raiseAccErr s)⟩

/-- The bytes of a word in the order of their addresses (20_memory.md R63). -/
theorem bytesOfWord_getElem? (w : Word) {i : Nat} (hi : i < 8) :
    (bytesOfWord w)[i]? = some (w.extractLsb' (8 * i) 8) := by
  interval_cases i <;> rfl

/-- Settles O18. -/
theorem wordsAreLittleEndian : Obligations.WordsAreLittleEndian := by
  intro m addr v i hi
  have hbyte := readByte_writeWords_inside m addr [v] 0 i Nat.zero_lt_one hi
  rw [Nat.mul_zero, Nat.zero_add] at hbyte
  exact hbyte.trans (bytesOfWord_getElem? v hi)

end Sys2Proof.Machine
end

section
/-! SUPPORT. Rounding is to the nearest value (40_numerics.md R122). A magnitude, bits 62:0 of a word, stands for a
count of units of 2^-1074 that grows with it; `roundUnits` answers the magnitude whose count is nearest. -/

namespace Sys2Proof.Machine

/-! ## Magnitudes as counts of units -/

/-- The units of 2^-1074 that a magnitude stands for (R121), also past the finite ones, as if the exponent had no
bound: rounding is to nearest there, and overflow is decided afterwards. -/
def unitsOfMag (m : Nat) : Nat :=
  if m / 2 ^ 52 = 0 then m else (2 ^ 52 + m % 2 ^ 52) * 2 ^ (m / 2 ^ 52 - 1)

/-- The units of a word are those of its magnitude. -/
theorem unitsOf_eq_unitsOfMag (w : Word) : unitsOf w = unitsOfMag (magOf w) := by
  have hexp : magOf w / 2 ^ 52 = expOf w := by
    unfold magOf expOf
    omega
  have hfrac : magOf w % 2 ^ 52 = fracOf w := by
    unfold magOf fracOf
    omega
  unfold unitsOf unitsOfMag
  rw [hexp, hfrac]
  split
  · next hzero => omega
  · rfl

/-- A significand of at most 53 bits, shifted: each shift is one step of the exponent. A significand of 2^53 is the
first of the next exponent. -/
theorem unitsOfMag_shifted {s q : Nat} (hq : q ≤ 2 ^ 53) (hs : s = 0 ∨ 2 ^ 52 ≤ q) :
    unitsOfMag (s * 2 ^ 52 + q) = q * 2 ^ s := by
  unfold unitsOfMag
  by_cases hlow : q < 2 ^ 52
  · have hs0 : s = 0 := by omega
    rw [hs0, if_pos (by omega)]
    omega
  · by_cases htop : q = 2 ^ 53
    · have hdiv : (s * 2 ^ 52 + q) / 2 ^ 52 = s + 2 := by omega
      have hmod : (s * 2 ^ 52 + q) % 2 ^ 52 = 0 := by omega
      rw [hdiv, hmod, if_neg (by omega), htop, show s + 2 - 1 = s + 1 by omega, pow_succ 2 s]
      omega
    · have hdiv : (s * 2 ^ 52 + q) / 2 ^ 52 = s + 1 := by omega
      have hmod : 2 ^ 52 + (s * 2 ^ 52 + q) % 2 ^ 52 = q := by omega
      rw [hdiv, hmod, if_neg (by omega), Nat.add_sub_cancel]

/-- Every magnitude is such a shifted significand. -/
theorem exists_shifted (m : Nat) : ∃ s q, m = s * 2 ^ 52 + q ∧ q < 2 ^ 53 ∧ (s = 0 ∨ 2 ^ 52 ≤ q) :=
  ⟨m / 2 ^ 52 - 1, m - (m / 2 ^ 52 - 1) * 2 ^ 52, by omega, by omega, by omega⟩

theorem unitsOfMag_zero : unitsOfMag 0 = 0 := rfl

/-- A larger magnitude stands for more units. -/
theorem unitsOfMag_strictMono : StrictMono unitsOfMag := by
  refine strictMono_nat_of_lt_succ fun m => ?_
  obtain ⟨s, q, rfl, hq, hs⟩ := exists_shifted m
  rw [unitsOfMag_shifted hq.le hs, add_assoc, unitsOfMag_shifted hq (by omega)]
  exact Nat.mul_lt_mul_of_pos_right (Nat.lt_succ_self q) (Nat.two_pow_pos s)

/-- What is no multiple of 2^s is below the magnitudes whose significand is shifted by s. -/
theorem dvd_unitsOfMag_or_lt (s m : Nat) : 2 ^ s ∣ unitsOfMag m ∨ s ≠ 0 ∧ unitsOfMag m < 2 ^ 52 * 2 ^ s := by
  obtain ⟨t, q, rfl, hq, ht⟩ := exists_shifted m
  rw [unitsOfMag_shifted hq.le ht]
  by_cases hle : s ≤ t
  · exact .inl ((pow_dvd_pow 2 hle).mul_left q)
  · refine .inr ⟨by omega, ?_⟩
    calc q * 2 ^ t < 2 ^ 53 * 2 ^ t := Nat.mul_lt_mul_of_pos_right hq (Nat.two_pow_pos t)
      _ = 2 ^ 52 * 2 ^ (t + 1) := by rw [pow_succ 2 t]; omega
      _ ≤ 2 ^ 52 * 2 ^ s := Nat.mul_le_mul_left _ (Nat.pow_le_pow_right (by decide) (by omega))

/-- A significand of at most 53 bits, shifted at will, is the count of some magnitude. -/
theorem exists_unitsOfMag_eq {q : Nat} (hq : q ≤ 2 ^ 53) (s : Nat) : ∃ m, unitsOfMag m = q * 2 ^ s := by
  induction s generalizing q with
  | zero => exact ⟨0 * 2 ^ 52 + q, unitsOfMag_shifted hq (.inl rfl)⟩
  | succ s ih =>
    by_cases hlow : 2 ^ 52 ≤ q
    · exact ⟨(s + 1) * 2 ^ 52 + q, unitsOfMag_shifted hq (.inr hlow)⟩
    · obtain ⟨m, hm⟩ := ih (q := q * 2) (by omega)
      exact ⟨m, by rw [hm, pow_succ, mul_assoc, mul_comm 2]⟩

/-- The count of ONE: a unit is 2^-1074. -/
def oneUnits : Nat := 2 ^ 1074

theorem oneUnits_pos : 0 < oneUnits := by
  unfold oneUnits
  positivity

/-- The infinity stands past every finite value, at 2^1024. -/
theorem unitsOfMag_infBits : unitsOfMag infBits = 2 ^ 52 * 2 ^ 2046 := by
  have hbits : infBits = 2046 * 2 ^ 52 + 2 ^ 52 := by decide
  rw [hbits, unitsOfMag_shifted (by decide) (.inr le_rfl)]

/-- The integers up to 2^53 are finite binary64 values (R125). -/
theorem exists_mag_of_integer {k : Nat} (hk : k ≤ 2 ^ 53) : ∃ m < infBits, unitsOfMag m = k * oneUnits := by
  obtain ⟨m, hm⟩ := exists_unitsOfMag_eq hk 1074
  refine ⟨m, unitsOfMag_strictMono.lt_iff_lt.mp ?_, hm⟩
  rw [hm, unitsOfMag_infBits]
  calc k * 2 ^ 1074 ≤ 2 ^ 53 * 2 ^ 1074 := Nat.mul_le_mul_right _ hk
    _ = 2 ^ (53 + 1074) := (pow_add 2 53 1074).symm
    _ < 2 ^ (52 + 2046) := by rw [Nat.pow_lt_pow_iff_right (by decide)]; decide
    _ = 2 ^ 52 * 2 ^ 2046 := pow_add 2 52 2046

/-! ## The nearest magnitude -/

/-- The magnitude that `roundUnits` answers, before the bound at infinity. -/
def roundedMag (n d : Nat) : Nat := ulpShift n d * 2 ^ 52 + nearestEven n (d * 2 ^ ulpShift n d)

theorem roundUnits_eq_min (n d : Nat) : roundUnits n d = min infBits (roundedMag n d) := rfl

/-- `nearestEven n (d * e)` steps of e come within half a step of n/d, and are an even count where they are half a step
away. -/
theorem abs_sub_nearestEven (n : Nat) {d e : Nat} (hd : 0 < d) (he : 0 < e) :
    |(n : ℝ) / d - nearestEven n (d * e) * e| ≤ e / 2 ∧
      (|(n : ℝ) / d - nearestEven n (d * e) * e| = e / 2 → nearestEven n (d * e) % 2 = 0) := by
  obtain ⟨hup, hlow, heven⟩ := nearestEven_spec n (d * e) (Nat.mul_pos hd he)
  generalize nearestEven n (d * e) = q at *
  have hd' : (0 : ℝ) < d := Nat.cast_pos.mpr hd
  have hn : (n : ℝ) = n / d * d := (div_mul_cancel₀ _ hd'.ne').symm
  have hup' : (2 * n : ℝ) ≤ (2 * q + 1) * (d * e) := mod_cast hup
  have hlow' : (2 * q * (d * e) : ℝ) ≤ 2 * n + d * e := mod_cast hlow
  refine ⟨abs_le.mpr ⟨?_, ?_⟩, fun h => heven ?_⟩
  · refine le_of_mul_le_mul_right ?_ hd'
    linarith
  · refine le_of_mul_le_mul_right ?_ hd'
    linarith
  · rcases (abs_eq (by positivity)).mp h with h | h
    · left
      have : (2 * n : ℝ) = (2 * q + 1) * (d * e) := by linear_combination 2 * hn + 2 * d * h
      exact_mod_cast this
    · right
      have : (2 * q * (d * e) : ℝ) = 2 * n + d * e := by linear_combination -2 * hn - 2 * d * h
      exact_mod_cast this

/-- A count of steps within half a step is nearest, and another is as near only half a step away. -/
theorem nearest_of_abs_sub_le_half {y e : ℝ} (he : 0 < e) {q : Nat} (h : |y - q * e| ≤ e / 2) (k : Nat) :
    |y - q * e| ≤ |y - k * e| ∧ (|y - k * e| = |y - q * e| → k ≠ q → |y - q * e| = e / 2) := by
  by_cases hk : k = q
  · simp [hk]
  · have hfar : e ≤ |k * e - q * e| := by
      have hint : (1 : ℤ) ≤ |(k : ℤ) - q| := Int.one_le_abs (by omega)
      have hreal : (1 : ℝ) ≤ |(k : ℝ) - q| := mod_cast hint
      rw [← sub_mul, abs_mul, abs_of_pos he]
      exact le_mul_of_one_le_left he.le hreal
    have htri : |k * e - q * e| ≤ |y - q * e| + |y - k * e| := by
      rw [← sub_sub_sub_cancel_left (q * e) (k * e) y]
      exact abs_sub _ _
    exact ⟨by linarith, fun htie _ => by linarith⟩

/-- The shift leaves a quotient of at most 53 bits, and of exactly 53 where it is not zero. -/
theorem ulpShift_spec (n : Nat) {d : Nat} (hd : 0 < d) :
    n < 2 ^ 53 * (d * 2 ^ ulpShift n d) ∧ (ulpShift n d ≠ 0 → 2 ^ 52 * (d * 2 ^ ulpShift n d) ≤ n) := by
  have harrange : ∀ a b : Nat, a * (d * b) = a * b * d := fun a b => by ring
  rw [harrange, harrange, ← pow_add, ← pow_add, ← Nat.div_lt_iff_lt_mul hd, ← Nat.le_div_iff_mul_le hd]
  refine ⟨Nat.lt_log2_self.trans_le (Nat.pow_le_pow_right (by decide) (by unfold ulpShift; omega)), fun hs => ?_⟩
  have hlog : Nat.log2 (n / d) = 52 + ulpShift n d := by
    unfold ulpShift at hs ⊢
    omega
  have hne : n / d ≠ 0 := fun h => by simp [h, Nat.log2_zero] at hlog; omega
  rw [← hlog]
  exact Nat.log2_self_le hne

theorem nearestEven_le {n d k : Nat} (hd : 0 < d) (h : n < k * d) : nearestEven n d ≤ k := by
  obtain ⟨-, hlow, -⟩ := nearestEven_spec n d hd
  by_contra hlt
  have := Nat.mul_le_mul_right d (show 2 * k + 2 ≤ 2 * nearestEven n d by omega)
  linarith

theorem le_nearestEven {n d k : Nat} (hd : 0 < d) (h : k * d ≤ n) : k ≤ nearestEven n d := by
  obtain ⟨hup, -, -⟩ := nearestEven_spec n d hd
  by_contra hlt
  have := Nat.mul_le_mul_right d (show 2 * nearestEven n d + 2 ≤ 2 * k by omega)
  linarith

/-- The units of the rounded magnitude: the nearest integer to the shifted quotient, shifted back. -/
theorem unitsOfMag_roundedMag (n : Nat) {d : Nat} (hd : 0 < d) :
    unitsOfMag (roundedMag n d) = nearestEven n (d * 2 ^ ulpShift n d) * 2 ^ ulpShift n d := by
  obtain ⟨hup, hlow⟩ := ulpShift_spec n hd
  have hpos : 0 < d * 2 ^ ulpShift n d := Nat.mul_pos hd (Nat.two_pow_pos _)
  exact unitsOfMag_shifted (nearestEven_le hpos hup)
    ((Nat.eq_zero_or_pos _).imp_right fun hs => le_nearestEven hpos (hlow hs.ne'))

/-- No magnitude is nearer n/d units than the rounded one, and where another is as near the rounded one is even
(R122). -/
theorem roundedMag_nearest (n : Nat) {d : Nat} (hd : 0 < d) (m : Nat) :
    |(n : ℝ) / d - unitsOfMag (roundedMag n d)| ≤ |(n : ℝ) / d - unitsOfMag m| ∧
      (|(n : ℝ) / d - unitsOfMag m| = |(n : ℝ) / d - unitsOfMag (roundedMag n d)| →
        unitsOfMag m ≠ unitsOfMag (roundedMag n d) → roundedMag n d % 2 = 0) := by
  have hmag : roundedMag n d = ulpShift n d * 2 ^ 52 + nearestEven n (d * 2 ^ ulpShift n d) := rfl
  have hunits := unitsOfMag_roundedMag n hd
  obtain ⟨hhalf, heven⟩ := abs_sub_nearestEven n hd (Nat.two_pow_pos (ulpShift n d))
  obtain ⟨-, hbig⟩ := ulpShift_spec n hd
  generalize roundedMag n d = r at *
  generalize ulpShift n d = s at *
  generalize nearestEven n (d * 2 ^ s) = q at *
  have hmultiple := nearest_of_abs_sub_le_half (Nat.cast_pos.mpr (Nat.two_pow_pos s)) hhalf
  rw [hunits, Nat.cast_mul]
  rcases dvd_unitsOfMag_or_lt s m with ⟨k, hk⟩ | ⟨hs, hlt⟩
  · obtain ⟨hle, htie⟩ := hmultiple k
    rw [hk, mul_comm (2 ^ s) k, Nat.cast_mul]
    refine ⟨hle, fun h hne => ?_⟩
    have := heven (htie h fun hkq => hne (by rw [hkq]))
    omega
  · have hbelow : ((2 ^ 52 : Nat) : ℝ) * (2 ^ s : Nat) ≤ n / d := by
      rw [le_div_iff₀ (Nat.cast_pos.mpr hd)]
      exact_mod_cast (by linarith [hbig hs] : 2 ^ 52 * 2 ^ s * d ≤ n)
    have hlt' : (unitsOfMag m : ℝ) < (2 ^ 52 : Nat) * (2 ^ s : Nat) := mod_cast hlt
    have hstrict : |(n : ℝ) / d - q * (2 ^ s : Nat)| < |(n : ℝ) / d - unitsOfMag m| :=
      calc |(n : ℝ) / d - q * (2 ^ s : Nat)|
          ≤ |(n : ℝ) / d - (2 ^ 52 : Nat) * (2 ^ s : Nat)| := (hmultiple (2 ^ 52)).1
        _ = n / d - (2 ^ 52 : Nat) * (2 ^ s : Nat) := abs_of_nonneg (sub_nonneg.mpr hbelow)
        _ < n / d - unitsOfMag m := sub_lt_sub_left hlt' _
        _ ≤ |(n : ℝ) / d - unitsOfMag m| := le_abs_self _
    exact ⟨hstrict.le, fun h => absurd h hstrict.ne'⟩

/-- Rounding does not pass a magnitude that is at least n/d units. -/
theorem roundedMag_le {n d m : Nat} (hd : 0 < d) (h : n ≤ unitsOfMag m * d) : roundedMag n d ≤ m := by
  by_contra hlt
  have hd' : (0 : ℝ) < d := Nat.cast_pos.mpr hd
  have hle : (n : ℝ) / d ≤ unitsOfMag m := (div_le_iff₀ hd').mpr (mod_cast h)
  have hgrow : (unitsOfMag m : ℝ) < unitsOfMag (roundedMag n d) :=
    Nat.cast_lt.mpr (unitsOfMag_strictMono (Nat.not_le.mp hlt))
  have hnear := (roundedMag_nearest n hd m).1
  rw [abs_of_nonpos (by linarith), abs_of_nonpos (by linarith)] at hnear
  linarith

/-- Rounding does not pass a magnitude that is at most n/d units. -/
theorem le_roundedMag {n d m : Nat} (hd : 0 < d) (h : unitsOfMag m * d ≤ n) : m ≤ roundedMag n d := by
  by_contra hlt
  have hd' : (0 : ℝ) < d := Nat.cast_pos.mpr hd
  have hle : (unitsOfMag m : ℝ) ≤ n / d := (le_div_iff₀ hd').mpr (mod_cast h)
  have hgrow : (unitsOfMag (roundedMag n d) : ℝ) < unitsOfMag m :=
    Nat.cast_lt.mpr (unitsOfMag_strictMono (Nat.not_le.mp hlt))
  have hnear := (roundedMag_nearest n hd m).1
  rw [abs_of_nonneg (by linarith), abs_of_nonneg (by linarith)] at hnear
  linarith

theorem roundUnits_le_of_le {n d m : Nat} (hd : 0 < d) (h : n ≤ unitsOfMag m * d) : roundUnits n d ≤ m :=
  (min_le_right _ _).trans (roundedMag_le hd h)

/-- What a magnitude stands for exactly is rounded to it. -/
theorem roundUnits_exact {d m : Nat} (hd : 0 < d) (hm : m ≤ infBits) : roundUnits (unitsOfMag m * d) d = m := by
  rw [roundUnits_eq_min, le_antisymm (roundedMag_le hd le_rfl) (le_roundedMag hd le_rfl), min_eq_right hm]

/-! ## The nearest word -/

/-- A magnitude with a sign. -/
def signedReal (sign : Bool) (u : ℝ) : ℝ := if sign then -u else u

theorem realOf_eq_div (w : Word) : realOf w = (signedUnitsOf w : ℝ) / oneUnits := by
  unfold realOf oneUnits
  rw [Nat.cast_pow, Nat.cast_ofNat]

theorem realOf_eq_signedReal (w : Word) : realOf w = signedReal (signOf w) ((unitsOf w : ℝ) / oneUnits) := by
  rw [realOf_eq_div]
  unfold signedUnitsOf signedReal
  split
  · rw [Int.cast_neg, Int.cast_natCast, neg_div]
  · rw [Int.cast_natCast]

theorem abs_signedReal_sub_same (b : Bool) (u v : ℝ) : |signedReal b u - signedReal b v| = |u - v| := by
  cases b with
  | false => rfl
  | true => rw [signedReal, signedReal, if_pos rfl, if_pos rfl, neg_sub_neg, abs_sub_comm]

theorem abs_signedReal_sub_of_ne {b c : Bool} (h : b ≠ c) {u v : ℝ} (hu : 0 ≤ u) (hv : 0 ≤ v) :
    |signedReal b u - signedReal c v| = u + v := by
  have habs := abs_of_nonneg (add_nonneg hu hv)
  cases b <;> cases c
  case false.true => simpa [signedReal] using habs
  case true.false =>
    rw [← habs, ← abs_neg (u + v), neg_add']
    rfl
  all_goals exact absurd rfl h

/-- Signs do not change what is nearest: on the same side distances are those of the magnitudes, and across zero no
magnitude is nearer than zero itself. The counts `u` of the result and `v` of another value are in units of 1/c. -/
theorem nearest_signed {y c : ℝ} (hy : 0 ≤ y) (hc : 0 < c) {u v : Nat} {even : Prop}
    (hzero : |y - u| ≤ |y - (0 : Nat)|) (hnear : |y - u| ≤ |y - v| ∧ (|y - v| = |y - u| → v ≠ u → even))
    (b b' : Bool) :
    |signedReal b (y / c) - signedReal b (u / c)| ≤ |signedReal b (y / c) - signedReal b' (v / c)| ∧
      (|signedReal b (y / c) - signedReal b' (v / c)| = |signedReal b (y / c) - signedReal b (u / c)| →
        signedReal b' (v / c) ≠ signedReal b (u / c) → even) := by
  obtain ⟨hle, htie⟩ := hnear
  rw [abs_signedReal_sub_same, ← sub_div, abs_div, abs_of_pos hc]
  by_cases hb : b = b'
  · subst hb
    rw [abs_signedReal_sub_same, ← sub_div, abs_div, abs_of_pos hc]
    refine ⟨div_le_div_of_nonneg_right hle hc.le, fun h hne => htie ?_ fun huv => hne (by rw [huv])⟩
    exact (div_left_inj' hc.ne').mp h
  · have hv : (0 : ℝ) ≤ v := Nat.cast_nonneg v
    rw [abs_signedReal_sub_of_ne hb (by positivity) (by positivity), ← add_div]
    rw [Nat.cast_zero, sub_zero, abs_of_nonneg hy] at hzero
    refine ⟨div_le_div_of_nonneg_right (by linarith) hc.le, fun h hne => ?_⟩
    have h : y + v = |y - u| := (div_left_inj' hc.ne').mp h
    have hv0 : v = 0 := by exact_mod_cast (by linarith : (v : ℝ) = 0)
    subst hv0
    refine htie ?_ fun hu => hne ?_
    · rw [← h, Nat.cast_zero, sub_zero, add_zero, abs_of_nonneg hy]
    · rw [← hu, Nat.cast_zero, zero_div]
      simp [signedReal]

theorem isFinite_packWord {m : Nat} (hm : m < infBits) (sign : Bool) :
    isFinite (packWord sign m) = true ∧ signOf (packWord sign m) = sign ∧ magOf (packWord sign m) = m ∧
      unitsOf (packWord sign m) = unitsOfMag m := by
  obtain ⟨hs, hmag⟩ := packWord_parts sign m (hm.trans (by decide))
  exact ⟨by simpa [isFinite, hmag] using hm, hs, hmag, by rw [unitsOf_eq_unitsOfMag, hmag]⟩

/-- The rounded magnitude with the sign of the exact result is nearest it, wherever it is finite (R122). -/
theorem nearestTo_packWord {n d : Nat} (hd : 0 < d) (hfin : roundUnits n d < infBits) (sign : Bool) :
    NearestTo (signedReal sign ((n : ℝ) / d / oneUnits)) (packWord sign (roundUnits n d)) := by
  obtain ⟨-, hsign, hmag, hunits⟩ := isFinite_packWord hfin sign
  have hround : roundUnits n d = roundedMag n d := by
    rw [roundUnits_eq_min] at hfin ⊢
    omega
  intro w _
  have hnear := roundedMag_nearest n hd (magOf w)
  have hzero := (roundedMag_nearest n hd 0).1
  rw [realOf_eq_signedReal w, realOf_eq_signedReal, hsign, hmag, hunits, hround, unitsOf_eq_unitsOfMag w]
  exact nearest_signed (by positivity) (Nat.cast_pos.mpr oneUnits_pos) hzero hnear _ _

end Sys2Proof.Machine
end

section
/-! SUPPORT. The operations of binary64 on finite operands (40_numerics.md R122, R125): a sign and a rounded magnitude,
nearest the exact result where the result is finite. -/

namespace Sys2Proof.Machine

theorem not_special_of_isFinite {w : Word} (h : isFinite w = true) : isNaN w = false ∧ isInf w = false := by
  simp only [isFinite, isNaN, isInf, decide_eq_true_eq, decide_eq_false_iff_not] at h ⊢
  omega

theorem b64mul_of_finite {a b : Word} (ha : isFinite a = true) (hb : isFinite b = true) :
    b64mul a b = packWord (signOf a != signOf b) (roundUnits (unitsOf a * unitsOf b) oneUnits) := by
  obtain ⟨hna, hia⟩ := not_special_of_isFinite ha
  obtain ⟨hnb, hib⟩ := not_special_of_isFinite hb
  simp [b64mul, hna, hia, hnb, hib, oneUnits, -Nat.reducePow]

theorem b64div_of_finite {a b : Word} (ha : isFinite a = true) (hb : isFinite b = true) (hz : isZero b = false) :
    b64div a b = packWord (signOf a != signOf b) (roundUnits (unitsOf a * oneUnits) (unitsOf b)) := by
  obtain ⟨hna, hia⟩ := not_special_of_isFinite ha
  obtain ⟨hnb, hib⟩ := not_special_of_isFinite hb
  simp [b64div, hna, hia, hnb, hib, hz, oneUnits, -Nat.reducePow]

theorem isZero_iff_unitsOf (w : Word) : isZero w = true ↔ unitsOf w = 0 := by
  rw [unitsOf_eq_unitsOfMag, ← unitsOfMag_zero, unitsOfMag_strictMono.injective.eq_iff]
  exact decide_eq_true_iff

/-- The integers up to 2^53 in magnitude are converted exactly (R125). -/
theorem b64ofInt_exact {k : Int} (hk : k.natAbs ≤ 2 ^ 53) :
    isFinite (b64ofInt k) = true ∧ signOf (b64ofInt k) = decide (k < 0) ∧
      unitsOf (b64ofInt k) = k.natAbs * oneUnits := by
  obtain ⟨m, hm, hunits⟩ := exists_mag_of_integer hk
  have hround : roundUnits (k.natAbs * oneUnits) 1 = m := by
    rw [← hunits, ← Nat.mul_one (unitsOfMag m), roundUnits_exact Nat.one_pos hm.le]
  have hword : b64ofInt k = packWord (decide (k < 0)) m := by
    rw [← hround]
    rfl
  obtain ⟨hfin, hsign, -, hu⟩ := isFinite_packWord hm (decide (k < 0))
  rw [hword]
  exact ⟨hfin, hsign, hu.trans hunits⟩

theorem realOf_b64ofInt {k : Int} (hk : k.natAbs ≤ 2 ^ 53) : realOf (b64ofInt k) = k := by
  obtain ⟨-, hsign, hunits⟩ := b64ofInt_exact hk
  have hone : (oneUnits : ℝ) ≠ 0 := Nat.cast_ne_zero.mpr oneUnits_pos.ne'
  rw [realOf_eq_signedReal, hsign, hunits, Nat.cast_mul, mul_div_cancel_right₀ _ hone, Nat.cast_natAbs]
  by_cases hneg : k < 0
  · simp [signedReal, hneg, abs_of_neg]
  · simp [signedReal, hneg, abs_of_nonneg (not_lt.mp hneg)]

theorem signedReal_div (b b' : Bool) (u v : ℝ) : signedReal b u / signedReal b' v = signedReal (b != b') (u / v) := by
  cases b <;> cases b' <;> simp [signedReal, neg_div, div_neg]

theorem realOf_div (a b : Word) :
    realOf a / realOf b =
      signedReal (signOf a != signOf b) (((unitsOf a * oneUnits : Nat) : ℝ) / unitsOf b / oneUnits) := by
  rw [realOf_eq_signedReal, realOf_eq_signedReal, signedReal_div, Nat.cast_mul]
  have hone : (oneUnits : ℝ) ≠ 0 := Nat.cast_ne_zero.mpr oneUnits_pos.ne'
  congr 1
  field_simp

/-- A quotient of finite operands that does not overflow is the value nearest the exact quotient (R122). -/
theorem b64div_nearest {a b : Word} (ha : isFinite a = true) (hb : isFinite b = true) (hz : isZero b = false)
    (hfin : roundUnits (unitsOf a * oneUnits) (unitsOf b) < infBits) :
    isFinite (b64div a b) = true ∧ NearestTo (realOf a / realOf b) (b64div a b) := by
  have hb0 : 0 < unitsOf b := by
    rw [Nat.pos_iff_ne_zero, ne_eq, ← isZero_iff_unitsOf, hz]
    exact Bool.false_ne_true
  obtain ⟨hpack, -⟩ := isFinite_packWord hfin (signOf a != signOf b)
  rw [b64div_of_finite ha hb hz, realOf_div]
  exact ⟨hpack, nearestTo_packWord hb0 hfin _⟩

end Sys2Proof.Machine
end

section
/-! The conversions of the PCM boundary settled (20_memory.md R76, R77). -/

namespace Sys2Proof.Machine

/-- The full scale 32767 as a binary64 value. -/
theorem b64ofInt_fullScale :
    isFinite (b64ofInt 32767) = true ∧ signOf (b64ofInt 32767) = false ∧
      unitsOf (b64ofInt 32767) = 32767 * oneUnits := by
  simpa using b64ofInt_exact (k := 32767) (by decide)

/-! ## Input (O59) -/

/-- Settles O59: the quotient of two integers that are exact as binary64 values, far from overflow. -/
theorem pcmInputIsNearestQuotient : Obligations.PcmInputIsNearestQuotient := by
  intro b0 b1
  have hlow := BitVec.le_toInt (b1 ++ b0)
  have hhigh := BitVec.toInt_lt (x := b1 ++ b0)
  rw [pcmDecode]
  generalize (b1 ++ b0).toInt = k at *
  have hk : k.natAbs ≤ 2 ^ 15 := by omega
  have hk53 : k.natAbs ≤ 2 ^ 53 := hk.trans (by decide)
  obtain ⟨hfin, -, hunits⟩ := b64ofInt_exact hk53
  obtain ⟨hfin', -, hunits'⟩ := b64ofInt_fullScale
  have hz : isZero (b64ofInt 32767) = false := by
    rw [Bool.eq_false_iff, ne_eq, isZero_iff_unitsOf, hunits']
    exact (Nat.mul_pos (by decide) oneUnits_pos).ne'
  obtain ⟨two, htwo, htwo_units⟩ := exists_mag_of_integer (k := 2) (by decide)
  have hround : roundUnits (unitsOf (b64ofInt k) * oneUnits) (unitsOf (b64ofInt 32767)) ≤ two := by
    rw [hunits, hunits']
    refine roundUnits_le_of_le (Nat.mul_pos (by decide) oneUnits_pos) ?_
    rw [htwo_units, mul_right_comm, ← mul_assoc, mul_right_comm 2]
    exact Nat.mul_le_mul_right _ (Nat.mul_le_mul_right _ (by omega))
  have hquotient := b64div_nearest hfin hfin' hz (hround.trans_lt htwo)
  rwa [realOf_b64ofInt hk53, realOf_b64ofInt (k := 32767) (by decide), Int.cast_ofNat] at hquotient

/-! ## Output (O60) -/

/-- A value clamped to [-1, 1] keeps its sign; one inside is left as it is, one outside becomes 1 or -1 (R77). -/
theorem pcmClamp_spec (x : Word) :
    signOf (pcmClamp x) = signOf x ∧ magOf (pcmClamp x) = min (magOf x) (magOf b64one) ∧
      (magOf x ≤ magOf b64one → pcmClamp x = x) := by
  unfold pcmClamp boundedBy
  split
  · next h => exact ⟨rfl, (min_eq_left h).symm, fun _ => rfl⟩
  · next h =>
    obtain ⟨hs, hm⟩ := packWord_parts (signOf x) (magOf b64one) (magOf_lt b64one)
    exact ⟨hs, hm.trans (min_eq_right (by omega)).symm, fun h' => absurd h' h⟩

theorem unitsOf_b64one : unitsOf b64one = oneUnits := by decide +kernel

/-- A value in [-1, 1] times 32767: a finite value of the same sign and at most 32767, and that exactly at 1 and -1. -/
theorem scaled_spec {c : Word} (hc : magOf c ≤ magOf b64one) :
    isFinite (b64mul c (b64ofInt 32767)) = true ∧ signOf (b64mul c (b64ofInt 32767)) = signOf c ∧
      unitsOf (b64mul c (b64ofInt 32767)) ≤ 32767 * oneUnits ∧
      (magOf c = magOf b64one → unitsOf (b64mul c (b64ofInt 32767)) = 32767 * oneUnits) := by
  have hfin : isFinite c = true := decide_eq_true (hc.trans_lt (by decide))
  obtain ⟨hfin', hsign', hunits'⟩ := b64ofInt_fullScale
  obtain ⟨m, hm, hm_units⟩ := exists_mag_of_integer (k := 32767) (by decide)
  have hround : roundUnits (unitsOf c * (32767 * oneUnits)) oneUnits ≤ m := by
    refine roundUnits_le_of_le oneUnits_pos ?_
    rw [hm_units, mul_comm]
    refine Nat.mul_le_mul_left _ ?_
    rw [← unitsOf_b64one, unitsOf_eq_unitsOfMag, unitsOf_eq_unitsOfMag]
    exact unitsOfMag_strictMono.monotone hc
  obtain ⟨hpack, hs, -, hu⟩ := isFinite_packWord (hround.trans_lt hm) (signOf c != signOf (b64ofInt 32767))
  rw [b64mul_of_finite hfin hfin', hunits']
  refine ⟨hpack, hs.trans (by rw [hsign', Bool.bne_false]), ?_, fun hone => ?_⟩
  · rw [hu]
    exact (unitsOfMag_strictMono.monotone hround).trans_eq hm_units
  · have hexact : roundUnits (unitsOf c * (32767 * oneUnits)) oneUnits = m := by
      rw [unitsOf_eq_unitsOfMag, hone, ← unitsOf_eq_unitsOfMag, unitsOf_b64one, ← hm_units, mul_comm,
        roundUnits_exact oneUnits_pos hm.le]
    rw [hu, hexact, hm_units]

theorem truncToward0_eq (w : Word) :
    truncToward0 w =
      if signOf w then -((unitsOf w / oneUnits : Nat) : Int) else ((unitsOf w / oneUnits : Nat) : Int) := rfl

/-- The fraction dropped is rounding down on a value that is not negative, and rounding up on one not positive. -/
theorem truncToward0_floor_ceil (w : Word) :
    (0 ≤ realOf w → truncToward0 w = ⌊realOf w⌋) ∧ (realOf w ≤ 0 → truncToward0 w = ⌈realOf w⌉) := by
  have hquot : ⌊(unitsOf w : ℝ) / oneUnits⌋ = ((unitsOf w / oneUnits : Nat) : ℤ) := by
    rw [Int.floor_div_natCast, Int.floor_natCast, Int.natCast_div]
  have hnonneg : (0 : ℝ) ≤ (unitsOf w : ℝ) / oneUnits := by positivity
  rw [realOf_eq_signedReal, truncToward0_eq]
  cases signOf w with
  | false =>
    simp only [signedReal, Bool.false_eq_true, if_false]
    refine ⟨fun _ => hquot.symm, fun h => ?_⟩
    rw [← hquot, le_antisymm h hnonneg, Int.floor_zero, Int.ceil_zero]
  | true =>
    simp only [signedReal, if_true]
    refine ⟨fun h => ?_, fun _ => by rw [Int.ceil_neg, hquot]⟩
    have hzero : (unitsOf w : ℝ) / oneUnits = 0 := le_antisymm (neg_nonneg.mp h) hnonneg
    rw [← hquot, hzero, Int.floor_zero, neg_zero, neg_zero, Int.floor_zero]

/-- What the 16-bit sample of a value that is no NaN is: the clamped value scaled, its fraction dropped (R77). -/
theorem toInt_pcmSample {x : Word} (hx : isNaN x = false) :
    (pcmSample x).toInt = truncToward0 (b64mul (pcmClamp x) (b64ofInt 32767)) ∧
      |(pcmSample x).toInt| ≤ 32767 := by
  obtain ⟨-, hmag, -⟩ := pcmClamp_spec x
  obtain ⟨-, -, hunits, -⟩ := scaled_spec (hmag.trans_le (min_le_right _ _))
  have hbound : |truncToward0 (b64mul (pcmClamp x) (b64ofInt 32767))| ≤ 32767 := by
    have hdiv := Nat.div_le_of_le_mul (hunits.trans_eq (mul_comm _ _))
    rw [truncToward0_eq]
    split
    · rw [abs_neg, Nat.abs_cast]
      exact_mod_cast hdiv
    · rw [Nat.abs_cast]
      exact_mod_cast hdiv
  have hint : (pcmSample x).toInt = truncToward0 (b64mul (pcmClamp x) (b64ofInt 32767)) := by
    rw [abs_le] at hbound
    rw [pcmSample, hx, if_neg Bool.false_ne_true, BitVec.toInt_ofInt_eq_self] <;> omega
  exact ⟨hint, hint ▸ hbound⟩

/-- Settles O60: the clamp bounds the product at full scale, and where the clamp changes nothing the product is that of
the value itself. -/
theorem pcmOutputIsClamped : Obligations.PcmOutputIsClamped := by
  intro x hx
  obtain ⟨hsign, hmag, hinside⟩ := pcmClamp_spec x
  obtain ⟨hfin, hsign', -, hfull⟩ := scaled_spec (hmag.trans_le (min_le_right _ _))
  obtain ⟨hint, hbound⟩ := toInt_pcmSample hx
  obtain ⟨hlow, hhigh⟩ := abs_le.mp hbound
  refine ⟨hlow, hhigh, fun hone => ?_, fun hone => ?_⟩
  · rw [hint, truncToward0_eq, hsign', hsign, hfull (hmag.trans (min_eq_right hone)),
      Nat.mul_div_cancel _ oneUnits_pos]
    rfl
  · rw [hinside hone] at hint hfin
    obtain ⟨hfloor, hceil⟩ := truncToward0_floor_ceil (b64mul x (b64ofInt 32767))
    exact ⟨hfin, fun h => hint.trans (hfloor h), fun h => hint.trans (hceil h)⟩

end Sys2Proof.Machine
end

section
/-! The statements of 30_encoding.md settled: the opcode table, the round trip, and the line DO of a host program. -/

namespace Sys2Proof.Machine

/-! ## The opcode table (O2, O1, O3) -/

theorem and_fullMask (w : Word) : w &&& 0xFFFFFFFFFFFFFFFF = w := BitVec.and_allOnes

theorem and_bankBit (w : Word) : w &&& 0x100 = if w.getLsbD 8 then 0x100 else 0 := BitVec.and_twoPow w 8

/-- The mask of SYNTH leaves out BANK alone: with BANK put back, the word is whole again (30_encoding.md R104). -/
theorem and_synthMask_or_bank (w : Word) :
    w &&& 0xFFFFFFFFFFFFFEFF ||| (if w.getLsbD 8 then 0x100 else 0) = w := by
  rw [← and_bankBit, ← BitVec.and_or_distrib_left]
  exact and_fullMask w

theorem bankOfWord_eq_iff (w : Word) (bank : Bank) : bankOfWord w = bank ↔ w.getLsbD 8 = decide (bank = .spa) := by
  unfold bankOfWord
  cases w.getLsbD 8 <;> cases bank <;> decide

/-- The row of SYNTH fixes every bit but BANK, and BANK is the operand. -/
theorem eq_encode_synth_iff (w : Word) (bank : Bank) :
    w = encode (.synth bank) ↔ w &&& 0xFFFFFFFFFFFFFEFF = 0x0000000000000006 ∧ bankOfWord w = bank := by
  constructor
  · rintro rfl
    cases bank <;> decide
  · rintro ⟨hmask, rfl⟩
    have hword := and_synthMask_or_bank w
    rw [hmask] at hword
    refine hword.symm.trans ?_
    unfold bankOfWord
    cases w.getLsbD 8 <;> rfl

theorem selects_iff (r : OpcodeRow) (w : Word) : r.selects w = true ↔ w &&& r.mask = r.pattern := beq_iff_eq

/-- A row of the table selects a word exactly when the word encodes the row's command (30_encoding.md R102). -/
theorem selects_iff_eq_encode {w : Word} {r : OpcodeRow × Instr} (hr : r ∈ opcodeRows w) :
    r.1.selects w = true ↔ w = encode r.2 := by
  have full (pattern : Word) : OpcodeRow.selects ⟨pattern, 0xFFFFFFFFFFFFFFFF⟩ w = true ↔ w = pattern := by
    rw [selects_iff, and_fullMask]
  have synth : OpcodeRow.selects ⟨0x6, 0xFFFFFFFFFFFFFEFF⟩ w = true ↔ w = encode (.synth (bankOfWord w)) := by
    rw [selects_iff, eq_encode_synth_iff, and_iff_left rfl]
  simp only [opcodeRows, List.mem_cons, List.not_mem_nil, or_false] at hr
  obtain rfl | rfl | rfl | rfl | rfl | rfl | rfl | rfl := hr
  exacts [full _, full _, full _, full _, full _, full _, synth, full _]

theorem decode_encode (i : Instr) : decode (encode i) = .ok i := by
  have h : Laws.RoundTrip.Statement i := by
    cases i with
    | nop => exact Laws.RoundTrip.nop
    | fft => exact Laws.RoundTrip.fft
    | ifft => exact Laws.RoundTrip.ifft
    | wingen => exact Laws.RoundTrip.wingen
    | analyze => exact Laws.RoundTrip.analyze
    | vocode => exact Laws.RoundTrip.vocode
    | synth bank => exact Laws.RoundTrip.synth bank
    | run => exact Laws.RoundTrip.run
  obtain ⟨-, -, hdecode⟩ := h
  exact hdecode

/-- What the decoder answers comes from a row that selects the word. -/
theorem exists_row_of_decode {w : Word} {i : Instr} (h : decode w = .ok i) :
    ∃ r ∈ opcodeRows w, r.1.selects w = true ∧ r.2 = i := by
  unfold decode at h
  split at h
  · next r hfind =>
    cases h
    have hselects := List.find?_some hfind
    exact ⟨r, List.mem_of_find?_eq_some hfind, hselects, rfl⟩
  · cases h

theorem decode_eq_ok_iff {w : Word} {i : Instr} : decode w = .ok i ↔ w = encode i := by
  constructor
  · intro h
    obtain ⟨r, hr, hselects, rfl⟩ := exists_row_of_decode h
    exact (selects_iff_eq_encode hr).mp hselects
  · rintro rfl
    exact decode_encode i

theorem instr_wf (i : Instr) : i.wf = true := by cases i <;> rfl

/-- Settles O2: the row that decodes a word has it as the encoding of its command, and each encoding decodes. -/
theorem decodeAndEncodeAgree : Obligations.DecodeAndEncodeAgree := fun _ i =>
  decode_eq_ok_iff.trans (and_iff_right (instr_wf i)).symm

/-- Settles O1: a row with the full mask selects one word, the encoding; SYNTH's selects one for each bank. -/
theorem decoderFollowsOpcodeTable : Obligations.DecoderFollowsOpcodeTable := by
  intro w
  have full (i : Instr) : decode w = .ok i ↔ w &&& 0xFFFFFFFFFFFFFFFF = encode i := by
    rw [decode_eq_ok_iff, and_fullMask]
  have synth (bank : Bank) : decode w = .ok (.synth bank) ↔
      w &&& 0xFFFFFFFFFFFFFEFF = 0x0000000000000006 ∧ w.getLsbD 8 = decide (bank = .spa) := by
    rw [decode_eq_ok_iff, eq_encode_synth_iff, bankOfWord_eq_iff]
  exact ⟨full .nop, full .fft, full .ifft, full .wingen, full .analyze, full .vocode, synth .spb, synth .spa,
    full .run⟩

/-- Settles O3. -/
theorem decodesWrittenWords : Obligations.DecodesWrittenWords :=
  ⟨decode_encode .nop, decode_encode .fft, decode_encode .analyze, decode_encode (.synth .spb),
    decode_encode (.synth .spa), rfl, rfl, rfl⟩

/-! ## The line DO (O33) -/

/-- The environment makes the next move of its script unless the engine moves first. -/
theorem step_environment {s : State} {e : Event} {rest : List Event} (hs : s.script = e :: rest)
    (hb : s.status.busy = true → e.early ≠ 0) :
    step s = .next (environmentAct Config.params State.reset e.act
      { s with script := scriptAfter s.status.busy e rest }) := by
  have hmove : nextMove s.status.busy s.script = .environment e.act (scriptAfter s.status.busy e rest) := by
    rw [hs, nextMove, if_neg (by simpa using hb)]
  simp [step, stepBy, hmove]

/-- STATUS can be read at any time, and the read changes nothing (20_memory.md R65, R75). -/
theorem hostRead_status (s : State) :
    hostRead Config.params (regAddr Config.params .status) 8 s = returnWord (statusWord s.status) s := by
  cases hb : s.status.busy with
  | false => exact hostRead_reg hb .status
  | true =>
    obtain ⟨hread, -⟩ := onlyStatusReadableWhileBusy s hb
    exact hread

theorem hostWrite_cmd {s : State} (hb : s.status.busy = false) (v : Word) :
    hostWrite Config.params (regAddr Config.params .cmd) 8 v s = issue v s := hostWrite_reg hb v .cmd

/-- On an idle machine, a line that writes CMD issues the command (10_state.md R30). -/
theorem step_writeCmd {s : State} {v : Word} {rest : List Event} (hb : s.status.busy = false)
    (hs : s.script = writeLine Config.params .cmd v :: rest) :
    step s = .next (issue v { s with script := rest }) := by
  rw [step_environment hs (by simp [hb])]
  exact congrArg Host.Outcome.next (hostWrite_cmd (s := { s with script := rest }) hb v)

/-- A poll of a busy machine returns BUSY = 1 and is repeated (30_encoding.md R107). -/
theorem step_pollBusy {s : State} {k : Nat} {rest : List Event} (hb : s.status.busy = true)
    (hs : s.script = ⟨k + 1, .poll⟩ :: rest) :
    step s = .next { s with script := ⟨k, .poll⟩ :: rest, seen := statusWord s.status :: s.seen } := by
  rw [step_environment hs fun _ => k.succ_ne_zero, hb]
  exact congrArg Host.Outcome.next (hostRead_status _)

/-- A poll of an idle machine ends the wait (30_encoding.md R107). -/
theorem step_pollIdle {s : State} {k : Nat} {rest : List Event} (hb : s.status.busy = false)
    (hs : s.script = ⟨k, .poll⟩ :: rest) :
    step s = .next { s with script := rest, seen := statusWord s.status :: s.seen } := by
  rw [step_environment hs (by simp [hb]), hb]
  exact congrArg Host.Outcome.next (hostRead_status _)

theorem run_succ_of_step {s t : State} (h : step s = .next t) (k : Nat) :
    Sys2Proof.core.run (k + 1) s = Sys2Proof.core.run k t := by
  have hcore : Sys2Proof.core.step s = .next t := h
  simp only [Host.Core.run, hcore]

/-- The state once `k` polls have returned the STATUS of a busy machine and the engine is to move. -/
def afterBusyPolls (k : Nat) (rest : List Event) (s : State) : State :=
  { s with
    script := ⟨0, .poll⟩ :: rest
    seen := List.replicate k (statusWord s.status) ++ s.seen }

/-- The polls of a busy machine that come before the engine moves, one after another. -/
theorem run_pollBusy (k : Nat) {s : State} {rest : List Event} (hb : s.status.busy = true)
    (hs : s.script = ⟨k, .poll⟩ :: rest) :
    Sys2Proof.core.run k s = .next (afterBusyPolls k rest s) := by
  induction k generalizing s with
  | zero =>
    rw [afterBusyPolls, ← hs]
    rfl
  | succ k ih =>
    have hrest := ih (s := { s with script := ⟨k, .poll⟩ :: rest, seen := statusWord s.status :: s.seen }) hb rfl
    refine (run_succ_of_step (step_pollBusy hb hs) k).trans (hrest.trans ?_)
    rw [afterBusyPolls, afterBusyPolls, List.replicate_succ', List.append_assoc]
    rfl

/-- The engine performs a command whose encoding is in CMD, where nothing in the script is early. -/
theorem step_performs {s : State} {i : Instr} (hb : s.status.busy = true)
    (hs : ∀ e ∈ s.script.head?, e.early = 0) (hcmd : s.cmd = encode i) : step s = exec i s := by
  rw [step_engine hb hs, performLatched_of_decode (decode_eq_ok_iff.mpr hcmd)]

theorem exec_script {i : Instr} {s t : State} (h : exec i s = .next t) : t.script = s.script := by
  rw [← execWith_params] at h
  obtain ⟨hscript, -⟩ := execWith_keeps h
  exact hscript

/-- Settles O33: the issue, the polls while BUSY = 1, the perform step, which ends idle with the script as it was, and
the last poll. -/
theorem doLineRunsTheCommand : Obligations.DoLineRunsTheCommand := by
  intro i busyReads s rest hb hs
  obtain ⟨t, ht, hidle, -⟩ :=
    everyCommandEnds i
      (afterBusyPolls busyReads rest (issue (encode i) { s with script := waitLine busyReads :: rest }))
  refine ⟨_, _, t, step_writeCmd hb hs, rfl, rfl, run_pollBusy busyReads rfl rfl, rfl, ?_, ht, hidle, ?_⟩
  · exact step_performs rfl (by simp [afterBusyPolls]) rfl
  · exact step_pollIdle hidle (exec_script ht)

end Sys2Proof.Machine
end

section
/-! SUPPORT. The parts of a binary64 word, sign and magnitude, under the operations of 40_numerics.md that look at
nothing else: negation (R124), the bound and the sign of the free functions (R127, R128), the free NaN (R132). -/

namespace Sys2Proof.Machine

theorem eq_of_sign_mag {v w : Word} (hs : signOf v = signOf w) (hm : magOf v = magOf w) : v = w := by
  rw [← packWord_sign_mag v, hs, hm, packWord_sign_mag]

theorem signOf_eq_msb (w : Word) : signOf w = w.msb := (BitVec.msb_eq_decide w).symm

/-! ## Negation -/

@[simp] theorem signOf_b64neg (a : Word) : signOf (b64neg a) = !signOf a := by
  rw [signOf_eq_msb, signOf_eq_msb, b64neg, BitVec.msb_xor, show (0x8000000000000000 : Word).msb = true from rfl,
    Bool.xor_true]

@[simp] theorem magOf_b64neg (a : Word) : magOf (b64neg a) = magOf a := by
  have hmask : (0x8000000000000000 : Word).toNat % 2 ^ 63 = 0 := rfl
  rw [magOf, b64neg, BitVec.toNat_xor, Nat.xor_mod_two_pow, hmask, Nat.xor_zero, magOf]

@[simp] theorem b64neg_b64neg (a : Word) : b64neg (b64neg a) = a := eq_of_sign_mag (by simp) (by simp)

@[simp] theorem isNaN_b64neg (a : Word) : isNaN (b64neg a) = isNaN a := by simp [isNaN]

@[simp] theorem isInf_b64neg (a : Word) : isInf (b64neg a) = isInf a := by simp [isInf]

@[simp] theorem isZero_b64neg (a : Word) : isZero (b64neg a) = isZero a := by simp [isZero]

theorem signedUnitsOf_b64neg (a : Word) : signedUnitsOf (b64neg a) = -signedUnitsOf a := by
  unfold signedUnitsOf
  rw [signOf_b64neg, unitsOf_eq_unitsOfMag, unitsOf_eq_unitsOfMag, magOf_b64neg]
  cases signOf a <;> simp

theorem realOf_b64neg (a : Word) : realOf (b64neg a) = -realOf a := by
  rw [realOf, realOf, signedUnitsOf_b64neg, Int.cast_neg, neg_div]

/-! ## The kinds of words -/

@[simp] theorem isNaN_freeNaN (op : FpOp) (a b : Word) : isNaN (freeNaN op a b) = true := isNaN_someNaN _

theorem not_isNaN_of_isInf {w : Word} (h : isInf w = true) : isNaN w = false := by
  simp only [isInf, isNaN, decide_eq_true_eq, decide_eq_false_iff_not] at h ⊢
  omega

theorem isFinite_of_isZero {w : Word} (h : isZero w = true) : isFinite w = true := by
  simp only [isZero, isFinite, decide_eq_true_eq] at h ⊢
  rw [h]
  decide

theorem not_isNaN_of_isZero {w : Word} (h : isZero w = true) : isNaN w = false :=
  (not_special_of_isFinite (isFinite_of_isZero h)).1

theorem not_isInf_of_isZero {w : Word} (h : isZero w = true) : isInf w = false :=
  (not_special_of_isFinite (isFinite_of_isZero h)).2

theorem not_isZero_of_isInf {w : Word} (h : isInf w = true) : isZero w = false :=
  Bool.eq_false_iff.mpr fun hz => Bool.false_ne_true ((not_isInf_of_isZero hz).symm.trans h)

/-- A zero is a sign and nothing else (R121). -/
theorem eq_packWord_of_isZero {w : Word} (h : isZero w = true) : w = packWord (signOf w) 0 := by
  rw [← decide_eq_true_iff.mp h, packWord_sign_mag]

/-! ## Signs given and magnitudes bounded -/

@[simp] theorem signOf_withSign (s : Bool) (w : Word) : signOf (withSign s w) = s :=
  (packWord_parts s _ (magOf_lt w)).1

@[simp] theorem magOf_withSign (s : Bool) (w : Word) : magOf (withSign s w) = magOf w :=
  (packWord_parts s _ (magOf_lt w)).2

theorem magOf_boundedBy_le (bound w : Word) : magOf (boundedBy bound w) ≤ magOf bound := by
  unfold boundedBy
  split
  · assumption
  · exact (packWord_parts _ _ (magOf_lt bound)).2.le

theorem abs_signedReal (b : Bool) {u : ℝ} (hu : 0 ≤ u) : |signedReal b u| = u := by
  cases b with
  | false => exact abs_of_nonneg hu
  | true => exact (abs_neg u).trans (abs_of_nonneg hu)

theorem abs_realOf (w : Word) : |realOf w| = (unitsOf w : ℝ) / oneUnits := by
  rw [realOf_eq_signedReal, abs_signedReal _ (by positivity)]

/-- Magnitudes order the values: a word whose magnitude is at most that of ONE stands for a value in [-1, 1]. -/
theorem realOf_mem_of_magOf_le_one {w : Word} (h : magOf w ≤ magOf b64one) :
    isFinite w = true ∧ -1 ≤ realOf w ∧ realOf w ≤ 1 := by
  have hunits : unitsOf w ≤ oneUnits := by
    rw [← unitsOf_b64one, unitsOf_eq_unitsOfMag, unitsOf_eq_unitsOfMag]
    exact unitsOfMag_strictMono.monotone h
  have habs : |realOf w| ≤ 1 := by
    rw [abs_realOf, div_le_one (Nat.cast_pos.mpr oneUnits_pos)]
    exact_mod_cast hunits
  exact ⟨decide_eq_true (h.trans_lt (by decide)), abs_le.mp habs⟩

end Sys2Proof.Machine
end

section
/-! SUPPORT. Correct rounding with overflow (40_numerics.md R122): a sign and a rounded magnitude are the finite value
nearest the exact result, or the infinity of its sign from the overflow bound on. -/

namespace Sys2Proof.Machine

/-! ## Where overflow begins -/

/-- Rounding reaches the even magnitude above `m` exactly from the middle of the two on. -/
theorem succ_le_roundedMag_iff {n d m : Nat} (hd : 0 < d) (hodd : m % 2 = 1) :
    m + 1 ≤ roundedMag n d ↔ (unitsOfMag m + unitsOfMag (m + 1)) * d ≤ 2 * n := by
  have hd' : (0 : ℝ) < d := Nat.cast_pos.mpr hd
  have hmid : (unitsOfMag m + unitsOfMag (m + 1)) * d ≤ 2 * n ↔
      (unitsOfMag m + unitsOfMag (m + 1) : ℝ) ≤ 2 * (n / d) := by
    rw [← mul_div_assoc, le_div_iff₀ hd']
    exact_mod_cast Iff.rfl
  have hgap : (unitsOfMag m : ℝ) < unitsOfMag (m + 1) := Nat.cast_lt.mpr (unitsOfMag_strictMono (Nat.lt_succ_self m))
  rw [hmid]
  constructor
  · intro hreach
    by_contra hbelow
    have hfar : (unitsOfMag (m + 1) : ℝ) ≤ unitsOfMag (roundedMag n d) :=
      Nat.cast_le.mpr (unitsOfMag_strictMono.monotone hreach)
    have hnear := (roundedMag_nearest n hd m).1
    have hdist := neg_abs_le ((n : ℝ) / d - unitsOfMag (roundedMag n d))
    rcases abs_cases ((n : ℝ) / d - unitsOfMag m) with ⟨habs, -⟩ | ⟨habs, -⟩ <;> linarith
  · intro habove
    by_contra hbelow
    have hle : roundedMag n d ≤ m := by omega
    have hnear : (unitsOfMag (roundedMag n d) : ℝ) ≤ unitsOfMag m :=
      Nat.cast_le.mpr (unitsOfMag_strictMono.monotone hle)
    obtain ⟨hmin, htie⟩ := roundedMag_nearest n hd (m + 1)
    rw [abs_of_nonneg (by linarith : (0 : ℝ) ≤ n / d - unitsOfMag (roundedMag n d))] at hmin htie
    rcases abs_cases ((n : ℝ) / d - unitsOfMag (m + 1)) with ⟨habs, -⟩ | ⟨habs, -⟩
    · linarith
    · have heven := htie (by linarith) (unitsOfMag_strictMono.injective.ne (by omega))
      have hsame : unitsOfMag (roundedMag n d) = unitsOfMag m := by
        exact_mod_cast (by linarith : (unitsOfMag (roundedMag n d) : ℝ) = unitsOfMag m)
      have := unitsOfMag_strictMono.injective hsame
      omega

theorem unitsOfMag_largestFinite : unitsOfMag (infBits - 1) = (2 ^ 53 - 1) * 2 ^ 2045 := by
  have hbits : infBits - 1 = 2045 * 2 ^ 52 + (2 ^ 53 - 1) := by decide
  rw [hbits, unitsOfMag_shifted (by decide) (.inr (by decide))]

/-- The magnitude is rounded to infinity from half a unit in the last place past the largest finite value on (R122). -/
theorem roundUnits_eq_infBits_iff (n : Nat) {d : Nat} (hd : 0 < d) :
    roundUnits n d = infBits ↔ (2 ^ 54 - 1) * 2 ^ 2044 * d ≤ n := by
  have hmiddle : unitsOfMag (infBits - 1) + unitsOfMag (infBits - 1 + 1) = 2 * ((2 ^ 54 - 1) * 2 ^ 2044) := by
    rw [unitsOfMag_largestFinite, show infBits - 1 + 1 = infBits from rfl, unitsOfMag_infBits,
      pow_succ 2 2044, pow_succ 2 2045, pow_succ 2 2044]
    generalize 2 ^ 2044 = e
    omega
  rw [roundUnits_eq_min, min_eq_left_iff, show infBits = infBits - 1 + 1 from rfl,
    succ_le_roundedMag_iff hd (by decide), hmiddle, mul_assoc]
  exact Nat.mul_le_mul_left_iff Nat.two_pos

theorem overflowBound_pos : (0 : ℝ) < overflowBound := Nat.cast_pos.mpr (by unfold overflowBound; positivity)

theorem overflowBound_mul_oneUnits : overflowBound * oneUnits = (2 ^ 54 - 1) * 2 ^ 2044 := by
  rw [overflowBound, oneUnits, show 2044 = 970 + 1074 from rfl, pow_add, mul_assoc]

theorem roundUnits_eq_infBits_iff_overflow (n : Nat) {d : Nat} (hd : 0 < d) :
    roundUnits n d = infBits ↔ (overflowBound : ℝ) ≤ n / d / oneUnits := by
  rw [roundUnits_eq_infBits_iff n hd, ← overflowBound_mul_oneUnits, le_div_iff₀ (Nat.cast_pos.mpr oneUnits_pos),
    le_div_iff₀ (Nat.cast_pos.mpr hd)]
  exact_mod_cast Iff.rfl

/-! ## The correctly rounded word -/

/-- A sign and a rounded magnitude are the correctly rounded result. -/
theorem roundsTo_packWord (n : Nat) {d : Nat} (hd : 0 < d) (sign : Bool) :
    RoundsTo (signedReal sign ((n : ℝ) / d / oneUnits)) (packWord sign (roundUnits n d)) := by
  have hnonneg : (0 : ℝ) ≤ n / d / oneUnits := div_nonneg (by positivity) (Nat.cast_nonneg _)
  have hinf := roundUnits_eq_infBits_iff_overflow n hd
  have hpos := overflowBound_pos
  refine ⟨fun hbelow => ?_, fun habove => ?_, fun hbelow => ?_⟩
  · rw [abs_signedReal _ hnonneg] at hbelow
    have hfin : roundUnits n d < infBits :=
      lt_of_le_of_ne (roundUnits_le n d) fun h => hbelow.not_ge (hinf.mp h)
    exact ⟨(isFinite_packWord hfin sign).1, nearestTo_packWord hd hfin sign⟩
  · cases sign with
    | false => rw [hinf.mpr habove]; rfl
    | true => rw [signedReal, if_pos rfl] at habove; linarith
  · cases sign with
    | false => rw [signedReal, if_neg Bool.false_ne_true] at hbelow; linarith
    | true => rw [signedReal, if_pos rfl, neg_le_neg_iff] at hbelow; rw [hinf.mpr hbelow]; rfl

theorem signedReal_zero (b : Bool) : signedReal b 0 = 0 := by cases b <;> simp [signedReal]

theorem intCast_eq_signedReal (k : Int) : (k : ℝ) = signedReal (decide (k < 0)) (k.natAbs : ℝ) := by
  rw [Nat.cast_natAbs, Int.cast_abs]
  rcases lt_or_ge k 0 with h | h
  · simp [signedReal, h, abs_of_neg]
  · simp [signedReal, not_lt.mpr h, abs_of_nonneg, h]

theorem signedReal_div_right (b : Bool) (u c : ℝ) : signedReal b u / c = signedReal b (u / c) := by
  cases b <;> simp [signedReal, neg_div]

/-- A count of units, rounded (R122); an exact zero takes the sign it is given. -/
theorem roundsTo_packSigned (k : Int) (zeroSign : Bool) : RoundsTo ((k : ℝ) / oneUnits) (packSigned k zeroSign) := by
  by_cases hk : k = 0
  · have hzero := roundsTo_packWord 0 Nat.one_pos zeroSign
    rw [Nat.cast_zero, zero_div, zero_div, signedReal_zero] at hzero
    rwa [hk, packSigned, if_pos rfl, Int.cast_zero, zero_div]
  · have hround := roundsTo_packWord k.natAbs Nat.one_pos (decide (k < 0))
    rw [Nat.cast_one, div_one] at hround
    rwa [packSigned, if_neg hk, intCast_eq_signedReal, signedReal_div_right]

/-- A correctly rounded result is infinite exactly where the exact one reaches the overflow bound. -/
theorem isInf_iff_of_roundsTo {x : ℝ} {r : Word} (h : RoundsTo x r) :
    isInf r = true ↔ (overflowBound : ℝ) ≤ |x| := by
  obtain ⟨hfinite, hpos, hneg⟩ := h
  constructor
  · intro hinf
    by_contra hlt
    obtain ⟨hfin, -⟩ := hfinite (not_le.mp hlt)
    rw [(not_special_of_isFinite hfin).2] at hinf
    exact Bool.false_ne_true hinf
  · intro hle
    rcases le_abs.mp hle with h | h
    · rw [hpos h]
      rfl
    · rw [hneg (by linarith)]
      rfl

/-! ## The four operations on finite operands -/

theorem b64add_of_finite {a b : Word} (ha : isFinite a = true) (hb : isFinite b = true) :
    b64add a b = packSigned (signedUnitsOf a + signedUnitsOf b) (signOf a && signOf b) := by
  obtain ⟨hna, hia⟩ := not_special_of_isFinite ha
  obtain ⟨hnb, hib⟩ := not_special_of_isFinite hb
  simp [b64add, sumOf, hna, hia, hnb, hib]

theorem b64sub_of_finite {a b : Word} (ha : isFinite a = true) (hb : isFinite b = true) :
    b64sub a b = packSigned (signedUnitsOf a - signedUnitsOf b) (signOf a && !signOf b) := by
  obtain ⟨hna, hia⟩ := not_special_of_isFinite ha
  obtain ⟨hnb, hib⟩ := not_special_of_isFinite hb
  simp [b64sub, sumOf, hna, hia, hnb, hib, signedUnitsOf_b64neg, sub_eq_add_neg]

theorem signedReal_mul (b b' : Bool) (u v : ℝ) : signedReal b u * signedReal b' v = signedReal (b != b') (u * v) := by
  cases b <;> cases b' <;> simp [signedReal]

theorem realOf_mul (a b : Word) :
    realOf a * realOf b =
      signedReal (signOf a != signOf b) (((unitsOf a * unitsOf b : Nat) : ℝ) / oneUnits / oneUnits) := by
  rw [realOf_eq_signedReal, realOf_eq_signedReal, signedReal_mul, Nat.cast_mul, div_mul_div_comm, div_div]

theorem unitsOf_pos_of_not_isZero {w : Word} (h : isZero w = false) : 0 < unitsOf w := by
  rw [Nat.pos_iff_ne_zero, ne_eq, ← isZero_iff_unitsOf, h]
  exact Bool.false_ne_true

end Sys2Proof.Machine
end

section
/-! Correct rounding settled: the operations of 40_numerics.md R122 on finite operands, and ofInt (R125). -/

namespace Sys2Proof.Machine

/-- Settles O38: the magnitude of the integer, rounded, with its sign. -/
theorem ofIntIsExact : Obligations.OfIntIsExact := by
  refine ⟨fun n => ?_, fun n hn => ⟨(b64ofInt_exact hn).1, realOf_b64ofInt hn⟩, by decide +kernel⟩
  have hone : (oneUnits : ℝ) ≠ 0 := Nat.cast_ne_zero.mpr oneUnits_pos.ne'
  have hround := roundsTo_packWord (n.natAbs * oneUnits) Nat.one_pos (decide (n < 0))
  rw [Nat.cast_one, div_one, Nat.cast_mul, mul_div_cancel_right₀ _ hone, ← intCast_eq_signedReal] at hround
  exact hround

/-- Settles O39: sums and differences of counts of units are exact integers, rounded once. -/
theorem addAndSubtractRoundToNearest : Obligations.AddAndSubtractRoundToNearest := by
  intro a b ha hb
  rw [realOf_eq_div, realOf_eq_div, ← add_div, ← sub_div, ← Int.cast_add, ← Int.cast_sub, b64add_of_finite ha hb,
    b64sub_of_finite ha hb]
  exact ⟨roundsTo_packSigned _ _, roundsTo_packSigned _ _⟩

/-- Settles O40: products and quotients of counts of units are quotients of integers, rounded once. -/
theorem multiplyAndDivideRoundToNearest : Obligations.MultiplyAndDivideRoundToNearest := by
  intro a b ha hb
  refine ⟨?_, fun hz => ?_⟩
  · rw [realOf_mul, b64mul_of_finite ha hb]
    exact roundsTo_packWord _ oneUnits_pos _
  · rw [realOf_div, b64div_of_finite ha hb hz]
    exact roundsTo_packWord _ (unitsOf_pos_of_not_isZero hz) _

/-- Settles O42: a correctly rounded result is infinite exactly from the bound on. -/
theorem overflowGivesInfinity : Obligations.OverflowGivesInfinity := by
  refine ⟨fun n d => roundUnits_eq_infBits_iff n, fun a b ha hb => ?_⟩
  obtain ⟨hadd, hsub⟩ := addAndSubtractRoundToNearest a b ha hb
  obtain ⟨hmul, hdiv⟩ := multiplyAndDivideRoundToNearest a b ha hb
  exact ⟨isInf_iff_of_roundsTo hadd, isInf_iff_of_roundsTo hsub, isInf_iff_of_roundsTo hmul,
    fun hz => isInf_iff_of_roundsTo (hdiv hz)⟩

end Sys2Proof.Machine
end

section
/-! SUPPORT. The results of 40_numerics.md that are irrational, the square root (R122) and π (R126): nearness is decided
between the magnitudes next to the result, without the result's value. -/

namespace Sys2Proof.Machine

/-- If no magnitude stands nearer a real count `y` of units than `m` does, and `m` is even where another stands as near,
then `m` with a sign is the word nearest `y` units with that sign (R122). -/
theorem nearestTo_packWord_of_nearest {y : ℝ} (hy : 0 ≤ y) {m : Nat} (hm : m < infBits)
    (hnear : ∀ k, |y - unitsOfMag m| ≤ |y - unitsOfMag k| ∧
      (|y - unitsOfMag k| = |y - unitsOfMag m| → unitsOfMag k ≠ unitsOfMag m → m % 2 = 0)) (sign : Bool) :
    NearestTo (signedReal sign (y / oneUnits)) (packWord sign m) := by
  obtain ⟨-, hsign, hmag, hunits⟩ := isFinite_packWord hm sign
  intro w _
  rw [realOf_eq_signedReal w, realOf_eq_signedReal, hsign, hmag, hunits, unitsOf_eq_unitsOfMag w]
  exact nearest_signed hy (Nat.cast_pos.mpr oneUnits_pos) (hnear 0).1 (hnear (magOf w)) _ _

/-! ## The square root -/

/-- No boundary of rounding lies strictly between two neighbouring halves: of two whole counts the same one is nearer,
for all that stands there, and neither is as near as the other. -/
theorem nearer_of_same_half {s u v : Nat} {y z : ℝ} (hys : (s : ℝ) < 2 * y) (hys' : 2 * y < s + 1)
    (hzs : (s : ℝ) < 2 * z) (hzs' : 2 * z < s + 1) (h : |y - u| ≤ |y - v|) :
    |z - u| ≤ |z - v| ∧ (|z - v| = |z - u| → v = u) := by
  have hsq : (0 : ℝ) ≤ (v - u) * (v + u - 2 * y) := by
    have := sq_le_sq.mpr h
    linarith
  have hdist : ∀ t : ℝ, 0 < t → |z - v| ^ 2 = |z - u| ^ 2 + t → |z - u| < |z - v| := fun t ht heq =>
    lt_of_pow_lt_pow_left₀ 2 (abs_nonneg _) (by linarith)
  have hstrict : v ≠ u → |z - u| < |z - v| := by
    intro hne
    refine hdist ((v - u) * (v + u - 2 * z)) ?_ (by rw [sq_abs, sq_abs]; ring)
    rcases Nat.lt_or_gt_of_ne hne with hlt | hlt
    · have hlt' : (v : ℝ) - u < 0 := sub_neg.mpr (mod_cast hlt)
      have hsum : (v : ℝ) + u < s + 1 := by
        have := nonpos_of_mul_nonneg_right hsq hlt'
        linarith
      have hsum' : (v : ℝ) + u ≤ s := mod_cast Nat.lt_succ_iff.mp (mod_cast hsum : v + u < s + 1)
      exact mul_pos_of_neg_of_neg hlt' (by linarith)
    · have hlt' : (0 : ℝ) < v - u := sub_pos.mpr (mod_cast hlt)
      have hsum : (s : ℝ) < v + u := by
        have := nonneg_of_mul_nonneg_right hsq hlt'
        linarith
      have hsum' : (s : ℝ) + 1 ≤ v + u := mod_cast Nat.succ_le_of_lt (mod_cast hsum : s < v + u)
      exact mul_pos hlt' (by linarith)
  by_cases hvu : v = u
  · exact ⟨by rw [hvu], fun _ => hvu⟩
  · exact ⟨(hstrict hvu).le, fun heq => absurd heq (hstrict hvu).ne'⟩

/-- The numerator over 4 that stands for the square root of `n` (the docstring of `sqrtUnits`). -/
def rootQuarters (n : Nat) : Nat :=
  if isqrt (4 * n) * isqrt (4 * n) = 4 * n then 2 * isqrt (4 * n) else 2 * isqrt (4 * n) + 1

theorem sqrtUnits_eq (n : Nat) : sqrtUnits n = roundUnits (rootQuarters (n * oneUnits)) 4 := rfl

/-- The quarters are the root itself, or stand strictly between the same halves as the root. -/
theorem rootQuarters_spec (n : Nat) :
    √(n : ℝ) = rootQuarters n / 4 ∨
      ∃ s : Nat, (s : ℝ) < 2 * √(n : ℝ) ∧ 2 * √(n : ℝ) < s + 1 ∧
        (s : ℝ) < 2 * (rootQuarters n / 4) ∧ 2 * ((rootQuarters n : ℝ) / 4) < s + 1 := by
  obtain ⟨hle, hlt⟩ := isqrt_spec (4 * n)
  have htwice : √((4 * n : Nat) : ℝ) = 2 * √(n : ℝ) := by
    rw [Nat.cast_mul, show ((4 : Nat) : ℝ) = 2 ^ 2 by norm_num, Real.sqrt_mul (by positivity),
      Real.sqrt_sq (by norm_num)]
  unfold rootQuarters
  generalize isqrt (4 * n) = s at *
  split
  · next hexact =>
    left
    rw [← hexact, Nat.cast_mul, Real.sqrt_mul_self (Nat.cast_nonneg s)] at htwice
    push_cast
    linarith
  · next hinexact =>
    refine .inr ⟨s, ?_, ?_, by push_cast; linarith, by push_cast; linarith⟩
    · rw [← htwice]
      exact Real.lt_sqrt_of_sq_lt (by exact_mod_cast (by rw [sq]; omega : s ^ 2 < 4 * n))
    · rw [← htwice, Real.sqrt_lt' (by positivity)]
      exact_mod_cast (by rw [sq]; omega : 4 * n < (s + 1) ^ 2)

/-- What rounds the quarters rounds the root (R122). -/
theorem roundedMag_rootQuarters_nearest (n k : Nat) :
    |√(n : ℝ) - unitsOfMag (roundedMag (rootQuarters n) 4)| ≤ |√(n : ℝ) - unitsOfMag k| ∧
      (|√(n : ℝ) - unitsOfMag k| = |√(n : ℝ) - unitsOfMag (roundedMag (rootQuarters n) 4)| →
        unitsOfMag k ≠ unitsOfMag (roundedMag (rootQuarters n) 4) → roundedMag (rootQuarters n) 4 % 2 = 0) := by
  have hnear := roundedMag_nearest (rootQuarters n) (by decide : 0 < 4) k
  rw [Nat.cast_ofNat] at hnear
  rcases rootQuarters_spec n with hexact | ⟨s, hlow, hhigh, hlow', hhigh'⟩
  · rwa [hexact]
  · obtain ⟨hle, hsame⟩ := nearer_of_same_half hlow' hhigh' hlow hhigh hnear.1
    exact ⟨hle, fun htie hne => absurd (hsame htie) hne⟩

theorem rootQuarters_le {n b : Nat} (h : n ≤ b * b) : rootQuarters n ≤ 4 * b + 1 := by
  have hsq := (isqrt_spec (4 * n)).1
  have hroot : isqrt (4 * n) ≤ 2 * b := by
    by_contra hlt
    have := Nat.mul_self_lt_mul_self (not_le.mp hlt)
    linarith
  unfold rootQuarters
  split <;> omega

theorem two_pow_mul_le {a b c e : Nat} (h : a + b + c ≤ e + e) : 2 ^ a * 2 ^ b * 2 ^ c ≤ 2 ^ e * 2 ^ e := by
  rw [← pow_add, ← pow_add, ← pow_add]
  exact Nat.pow_le_pow_right Nat.two_pos h

/-- The root of a finite value is far from overflow. -/
theorem sqrtUnits_lt {n : Nat} (hn : n < unitsOfMag infBits) : sqrtUnits n < infBits := by
  have hsquare : n * oneUnits ≤ 2 ^ 1586 * 2 ^ 1586 := by
    have hpowers := two_pow_mul_le (a := 52) (b := 2046) (c := 1074) (e := 1586) (by decide)
    rw [show 2 ^ 1074 = oneUnits from rfl] at hpowers
    rw [unitsOfMag_infBits] at hn
    exact (Nat.mul_le_mul_right oneUnits hn.le).trans hpowers
  have hpow : 2 ^ 1586 ≤ 2 ^ 2044 := pow_le_pow_right₀ one_le_two (by decide)
  have hgap : ∀ b e : Nat, b ≤ e → 0 < e → 4 * b + 1 < (2 ^ 54 - 1) * e * 4 := by omega
  rw [sqrtUnits_eq]
  refine lt_of_le_of_ne (roundUnits_le _ _) fun hinf => ?_
  have hlarge := (roundUnits_eq_infBits_iff _ (by decide)).mp hinf
  exact hlarge.not_gt ((rootQuarters_le hsquare).trans_lt (hgap _ _ hpow (by positivity)))

theorem sqrt_realOf {a : Word} (hs : signOf a = false) :
    √(realOf a) = √((unitsOf a * oneUnits : Nat) : ℝ) / oneUnits := by
  have hone : (0 : ℝ) < oneUnits := Nat.cast_pos.mpr oneUnits_pos
  rw [realOf_eq_signedReal, hs, signedReal, if_neg Bool.false_ne_true, Nat.cast_mul, eq_div_iff hone.ne']
  nth_rw 2 [← Real.sqrt_mul_self hone.le]
  rw [← Real.sqrt_mul (div_nonneg (Nat.cast_nonneg _) hone.le)]
  congr 1
  field_simp

/-- A value is nearest itself. -/
theorem nearestTo_realOf (r : Word) : NearestTo (realOf r) r := by
  intro w _
  rw [sub_self, abs_zero]
  exact ⟨abs_nonneg _, fun htie hne => absurd (sub_eq_zero.mp (abs_eq_zero.mp htie)).symm hne⟩

theorem realOf_of_isZero {w : Word} (h : isZero w = true) : realOf w = 0 := by
  rw [realOf_eq_signedReal, (isZero_iff_unitsOf w).mp h, Nat.cast_zero, zero_div, signedReal_zero]

theorem b64sqrt_of_positive {a : Word} (ha : isFinite a = true) (hz : isZero a = false) (hs : signOf a = false) :
    b64sqrt a = packWord false (sqrtUnits (unitsOf a)) := by
  obtain ⟨hna, hia⟩ := not_special_of_isFinite ha
  simp [b64sqrt, hna, hia, hz, hs]

theorem unitsOf_lt_of_isFinite {a : Word} (ha : isFinite a = true) : unitsOf a < unitsOfMag infBits := by
  rw [unitsOf_eq_unitsOfMag]
  exact unitsOfMag_strictMono (of_decide_eq_true ha)

/-! ## Rounding to an integer -/

theorem roundToInteger_le (tie : RoundTie) (u : Nat) : roundToInteger tie u ≤ u / oneUnits + 1 := by
  unfold roundToInteger oneUnits
  split
  · exact Nat.le_succ _
  · split
    · exact le_rfl
    · cases tie with
      | away => exact le_rfl
      | even =>
        dsimp only
        split
        · exact Nat.le_succ _
        · exact le_rfl

theorem roundToInteger_whole (tie : RoundTie) (k : Nat) : roundToInteger tie (k * oneUnits) = k := by
  have hunit : 2 ^ 1074 = oneUnits := rfl
  unfold roundToInteger
  rw [hunit, Nat.mul_mod_left, Nat.mul_div_cancel _ oneUnits_pos, Nat.mul_zero, if_pos oneUnits_pos]

/-- The integer that a magnitude of the reals rounds to (R131). -/
noncomputable def nearestInteger (tie : RoundTie) (y : ℝ) : ℤ :=
  if y - ⌊y⌋ < 1 / 2 then ⌊y⌋
  else if 1 / 2 < y - ⌊y⌋ then ⌊y⌋ + 1
  else
    match tie with
    | .away => ⌊y⌋ + 1
    | .even => if ⌊y⌋ % 2 = 0 then ⌊y⌋ else ⌊y⌋ + 1

theorem exactRound_eq (tie : RoundTie) (x : ℝ) :
    exactRound tie x = if x < 0 then -(nearestInteger tie |x| : ℝ) else (nearestInteger tie |x| : ℝ) := by
  cases tie <;> rfl

/-- Whole part and fraction of a count of units are quotient and remainder, the half of ONE the boundary. -/
theorem floor_fraction_units (u : Nat) :
    ⌊(u : ℝ) / oneUnits⌋ = (u / oneUnits : Nat) ∧
      ((u : ℝ) / oneUnits - ((u / oneUnits : Nat) : ℤ) < 1 / 2 ↔ 2 * (u % oneUnits) < oneUnits) ∧
      (1 / 2 < (u : ℝ) / oneUnits - ((u / oneUnits : Nat) : ℤ) ↔ oneUnits < 2 * (u % oneUnits)) := by
  have hone : (0 : ℝ) < oneUnits := Nat.cast_pos.mpr oneUnits_pos
  have hfrac : (u : ℝ) / oneUnits - ((u / oneUnits : Nat) : ℤ) = ((u % oneUnits : Nat) : ℝ) / oneUnits := by
    have hsplit : (u : ℝ) = oneUnits * (u / oneUnits : Nat) + (u % oneUnits : Nat) :=
      mod_cast (Nat.div_add_mod u _).symm
    rw [Int.cast_natCast, div_sub' hone.ne', sub_eq_of_eq_add' hsplit]
  rw [hfrac, div_lt_div_iff₀ hone two_pos, div_lt_div_iff₀ two_pos hone, one_mul, mul_comm _ (2 : ℝ)]
  refine ⟨?_, mod_cast Iff.rfl, mod_cast Iff.rfl⟩
  rw [Int.floor_div_natCast, Int.floor_natCast, Int.natCast_div]

/-- The integer that a count of units rounds to is that of the reals. -/
theorem nearestInteger_units (tie : RoundTie) (u : Nat) :
    nearestInteger tie ((u : ℝ) / oneUnits) = roundToInteger tie u := by
  obtain ⟨hfloor, hlow, hhigh⟩ := floor_fraction_units u
  have hunit : 2 ^ 1074 = oneUnits := rfl
  unfold nearestInteger roundToInteger
  rw [hunit, hfloor]
  simp only [hlow, hhigh]
  generalize u / oneUnits = k
  split
  · rfl
  · split
    · rfl
    · cases tie with
      | away => rfl
      | even =>
        by_cases heven : k % 2 = 0
        · rw [if_pos heven, if_pos (by omega)]
        · rw [if_neg heven, if_neg (by omega)]
          rfl

theorem exactRound_signedReal (tie : RoundTie) (b : Bool) (u : Nat) :
    exactRound tie (signedReal b ((u : ℝ) / oneUnits)) = signedReal b (roundToInteger tie u) := by
  have hnonneg : (0 : ℝ) ≤ (u : ℝ) / oneUnits := div_nonneg (Nat.cast_nonneg _) (Nat.cast_nonneg _)
  rw [exactRound_eq, abs_signedReal b hnonneg, nearestInteger_units, Int.cast_natCast]
  cases b with
  | false => exact if_neg (not_lt.mpr hnonneg)
  | true =>
    rcases hnonneg.eq_or_lt with hzero | hpos
    · have hu : u = 0 := by
        rcases div_eq_zero_iff.mp hzero.symm with h | h
        · exact_mod_cast h
        · exact absurd h (Nat.cast_ne_zero.mpr oneUnits_pos.ne')
      have hround := roundToInteger_whole tie 0
      rw [Nat.zero_mul] at hround
      rw [hu, hround, Nat.cast_zero, zero_div, signedReal_zero, neg_zero, ite_self]
    · exact if_pos (neg_lt_zero.mpr hpos)

/-- An integer count of ONE with a sign is a word of its own (R125). -/
theorem packWord_of_integer (sign : Bool) {k : Nat} (hk : k ≤ 2 ^ 53) :
    isFinite (packWord sign (roundUnits (k * oneUnits) 1)) = true ∧
      signOf (packWord sign (roundUnits (k * oneUnits) 1)) = sign ∧
      unitsOf (packWord sign (roundUnits (k * oneUnits) 1)) = k * oneUnits := by
  obtain ⟨m, hm, hunits⟩ := exists_mag_of_integer hk
  rw [← hunits, ← Nat.mul_one (unitsOfMag m), roundUnits_exact Nat.one_pos hm.le, Nat.mul_one]
  obtain ⟨hfin, hsign, -, hu⟩ := isFinite_packWord hm sign
  exact ⟨hfin, hsign, hu⟩

/-- A value of 2^52 and more is an integer, as zero is: no significand there has bits below the binary point. -/
theorem oneUnits_dvd_of_large {x : Word} (h : isZero x = true ∨ 2 ^ 52 * oneUnits ≤ unitsOf x) :
    oneUnits ∣ unitsOf x := by
  rcases h with hz | hlarge
  · rw [(isZero_iff_unitsOf x).mp hz]
    exact dvd_zero _
  · rw [unitsOf_eq_unitsOfMag] at hlarge ⊢
    have hcases := dvd_unitsOfMag_or_lt 1074 (magOf x)
    rw [show 2 ^ 1074 = oneUnits from rfl] at hcases
    exact hcases.resolve_right fun h => hlarge.not_gt h.2

/-- What fround answers on a finite value: the value itself, which is an integer then, or the integer that its
magnitude rounds to, with its sign. -/
theorem b64round_of_finite (tie : RoundTie) {x : Word} (hx : isFinite x = true) :
    (b64round tie x = x ∧ oneUnits ∣ unitsOf x) ∨
      (b64round tie x = packWord (signOf x) (roundUnits (roundToInteger tie (unitsOf x) * oneUnits) 1) ∧
        unitsOf x < 2 ^ 52 * oneUnits) := by
  obtain ⟨hn, hi⟩ := not_special_of_isFinite hx
  have hunit : 2 ^ 1074 = oneUnits := rfl
  unfold b64round
  rw [hunit, hn, hi, if_neg Bool.false_ne_true, Bool.false_or]
  split
  · next h =>
    rw [Bool.or_eq_true, decide_eq_true_eq] at h
    exact .inl ⟨rfl, oneUnits_dvd_of_large h⟩
  · next h =>
    rw [Bool.or_eq_true, decide_eq_true_eq, not_or, not_le] at h
    exact .inr ⟨rfl, h.2⟩

end Sys2Proof.Machine
end

section
/-! Square root and rounding settled (40_numerics.md R122, R131). -/

namespace Sys2Proof.Machine

/-- Settles O41: the quarters stand for the root, which is far from overflow; a zero is its own root. -/
theorem squareRootRoundsToNearest : Obligations.SquareRootRoundsToNearest := by
  intro a ha hs
  cases hz : isZero a with
  | true =>
    have hroot : b64sqrt a = a := by simp [b64sqrt, (not_special_of_isFinite ha).1, hz]
    have hnear := nearestTo_realOf a
    rw [hroot, realOf_of_isZero hz, Real.sqrt_zero]
    exact ⟨ha, realOf_of_isZero hz ▸ hnear⟩
  | false =>
    have hfin := sqrtUnits_lt (unitsOf_lt_of_isFinite ha)
    rw [b64sqrt_of_positive ha hz hs, sqrt_realOf hs]
    refine ⟨(isFinite_packWord hfin false).1, ?_⟩
    have hround : sqrtUnits (unitsOf a) = roundedMag (rootQuarters (unitsOf a * oneUnits)) 4 := by
      rw [sqrtUnits_eq, roundUnits_eq_min] at hfin ⊢
      omega
    refine nearestTo_packWord_of_nearest (Real.sqrt_nonneg _) hfin ?_ false
    rw [hround]
    exact roundedMag_rootQuarters_nearest _

/-- Settles O47: what is returned unchanged is an integer already; what is rounded becomes an integer that has a word
of its own, so that nothing is rounded twice. -/
theorem roundIsExact : Obligations.RoundIsExact := by
  refine fun tie x => ⟨fun hn => ?_, fun hspecial => ?_, fun hx => ?_⟩
  · rw [b64round, if_pos hn]
    exact isNaN_freeNaN _ _ _
  · have hn : isNaN x = false := hspecial.elim not_isNaN_of_isInf not_isNaN_of_isZero
    have hkept : (isInf x || isZero x) = true := Bool.or_eq_true_iff.mpr hspecial
    rw [b64round, hn, if_neg Bool.false_ne_true, hkept, Bool.true_or, if_pos rfl]
  · have hone : (oneUnits : ℝ) ≠ 0 := Nat.cast_ne_zero.mpr oneUnits_pos.ne'
    rw [realOf_eq_signedReal x, exactRound_signedReal, realOf_eq_signedReal]
    rcases b64round_of_finite tie hx with ⟨hsame, k, hk⟩ | ⟨hround, hsmall⟩
    · rw [hsame, hk, mul_comm, roundToInteger_whole, Nat.cast_mul, mul_div_cancel_right₀ _ hone]
      exact ⟨hx, rfl, rfl⟩
    · have hdiv := (Nat.div_lt_iff_lt_mul oneUnits_pos).mpr hsmall
      have hle := roundToInteger_le tie (unitsOf x)
      obtain ⟨hfin, hsign, hunits⟩ := packWord_of_integer (signOf x) (k := roundToInteger tie (unitsOf x)) (by omega)
      rw [hround, hunits, hsign, Nat.cast_mul, mul_div_cancel_right₀ _ hone]
      exact ⟨hfin, rfl, rfl⟩

end Sys2Proof.Machine
end

section
/-! Negation, the special operands and the NaN settled (40_numerics.md R122, R124, R132). -/

namespace Sys2Proof.Machine

/-- Settles O37: negation is the exclusive-or with the one bit 63, which is the sign alone. -/
theorem negationFlipsTheSignBit : Obligations.NegationFlipsTheSignBit := by
  refine ⟨fun a i hi => ?_, fun a _ => realOf_b64neg a, fun _ _ => rfl,
    fun _ a => congrArg (Cx.mk a) (by decide : b64neg 0x0 = 0x8000000000000000)⟩
  have hmask : (0x8000000000000000 : Word) = BitVec.twoPow 64 63 := rfl
  rw [b64neg, hmask, BitVec.getLsbD_xor, BitVec.getLsbD_twoPow]
  simp [eq_comm]

/-! ## Products and quotients of any operands -/

/-- A product is a NaN of its own or has the exclusive-or of the signs (R122). -/
theorem b64mul_cases (a b : Word) :
    b64mul a b = freeNaN .mul a b ∨ ∃ m ≤ infBits, b64mul a b = packWord (signOf a != signOf b) m := by
  unfold b64mul
  split
  · exact .inl rfl
  · split
    · exact .inl rfl
    · split
      · exact .inr ⟨_, le_rfl, rfl⟩
      · exact .inr ⟨_, roundUnits_le _ _, rfl⟩

/-- A quotient is a NaN of its own or has the exclusive-or of the signs (R122). -/
theorem b64div_cases (a b : Word) :
    b64div a b = freeNaN .div a b ∨ ∃ m ≤ infBits, b64div a b = packWord (signOf a != signOf b) m := by
  unfold b64div
  split
  · exact .inl rfl
  · split
    · exact .inl rfl
    · split
      · exact .inr ⟨_, le_rfl, rfl⟩
      · split
        · exact .inr ⟨_, Nat.zero_le _, rfl⟩
        · exact .inr ⟨_, roundUnits_le _ _, rfl⟩

theorem signOf_of_nan_or_packed {op : FpOp} {a b r : Word} {sign : Bool} (hr : isNaN r = false)
    (h : r = freeNaN op a b ∨ ∃ m ≤ infBits, r = packWord sign m) : signOf r = sign := by
  rcases h with rfl | ⟨m, hm, rfl⟩
  · rw [isNaN_freeNaN] at hr
    exact absurd hr.symm Bool.false_ne_true
  · exact (packWord_parts sign m (hm.trans_lt (by decide))).1

/-- x - x is +0 (R122). -/
theorem b64sub_self {a : Word} (ha : isFinite a = true) : b64sub a a = 0 := by
  rw [b64sub_of_finite ha ha, sub_self, Bool.and_not_self]
  rfl

/-- Infinities of opposite signs have no sum (R122). -/
theorem isNaN_b64add_of_opposite {a b : Word} (ha : isInf a = true) (hb : isInf b = true) (hs : signOf a ≠ signOf b) :
    isNaN (b64add a b) = true := by
  have hne : (signOf a != signOf b) = true := bne_iff_ne.mpr hs
  simp [b64add, sumOf, not_isNaN_of_isInf ha, not_isNaN_of_isInf hb, ha, hb, hne]

/-- Settles O43: signs from the shape of a product and a quotient, the rest from the branch that the operands take. -/
theorem specialOperandsFollowIeee : Obligations.SpecialOperandsFollowIeee := by
  refine ⟨fun a => b64sub_self, by decide +kernel, by decide +kernel, by decide +kernel,
    fun a b => isNaN_b64add_of_opposite, fun a b ha hb hs => ?_, fun a b ha hb => ⟨?_, ?_⟩, fun a b ha hb => ?_,
    fun a b ha hb => ?_, fun a hn hz hs => ?_, fun a b ha hz hb => ?_,
    fun a b _ _ h => signOf_of_nan_or_packed h (b64mul_cases a b),
    fun a b _ _ h => signOf_of_nan_or_packed h (b64div_cases a b)⟩
  · simp [b64sub, sumOf, not_isNaN_of_isInf ha, not_isNaN_of_isInf hb, ha, hb, hs]
  · simp [b64mul, not_isNaN_of_isInf ha, not_isNaN_of_isZero hb, ha, hb]
  · simp [b64mul, not_isNaN_of_isInf ha, not_isNaN_of_isZero hb, ha, hb]
  · simp [b64div, not_isNaN_of_isZero ha, not_isNaN_of_isZero hb, ha, hb]
  · simp [b64div, not_isNaN_of_isInf ha, not_isNaN_of_isInf hb, ha, hb]
  · simp [b64sqrt, hn, hz, hs]
  · obtain ⟨hna, hia⟩ := not_special_of_isFinite ha
    simp [b64div, hna, hia, hz, not_isNaN_of_isZero hb, not_isInf_of_isZero hb, hb]

/-! ## NaN operands -/

section NanOperands

variable {a b : Word}

theorem isNaN_b64add (h : isNaN a = true ∨ isNaN b = true) : isNaN (b64add a b) = true := by
  rw [b64add, sumOf, if_pos (Bool.or_eq_true_iff.mpr h), isNaN_freeNaN]

theorem isNaN_b64sub (h : isNaN a = true ∨ isNaN b = true) : isNaN (b64sub a b) = true := by
  rw [b64sub, sumOf, isNaN_b64neg, if_pos (Bool.or_eq_true_iff.mpr h), isNaN_freeNaN]

theorem isNaN_b64mul (h : isNaN a = true ∨ isNaN b = true) : isNaN (b64mul a b) = true := by
  rw [b64mul, if_pos (Bool.or_eq_true_iff.mpr h), isNaN_freeNaN]

theorem isNaN_b64div (h : isNaN a = true ∨ isNaN b = true) : isNaN (b64div a b) = true := by
  rw [b64div, if_pos (Bool.or_eq_true_iff.mpr h), isNaN_freeNaN]

theorem isNaN_b64atan2 (h : isNaN a = true ∨ isNaN b = true) : isNaN (b64atan2 a b) = true := by
  rw [b64atan2, if_pos (Bool.or_eq_true_iff.mpr h), isNaN_freeNaN]

theorem isNaN_b64sqrt (h : isNaN a = true) : isNaN (b64sqrt a) = true := by
  rw [b64sqrt, if_pos h, isNaN_freeNaN]

theorem isNaN_b64round (tie : RoundTie) (h : isNaN a = true) : isNaN (b64round tie a) = true := by
  rw [b64round, if_pos h, isNaN_freeNaN]

/-- T4 of R127. -/
theorem isNaN_b64cos (h : isNaN a = true ∨ isInf a = true) : isNaN (b64cos a) = true := by
  rw [b64cos, if_pos (Bool.or_eq_true_iff.mpr h), isNaN_freeNaN]

/-- T4 of R127. -/
theorem isNaN_b64sin (h : isNaN a = true ∨ isInf a = true) : isNaN (b64sin a) = true := by
  rw [b64sin, if_pos (Bool.or_eq_true_iff.mpr h), isNaN_freeNaN]

/-- The magnitude of a complex value with a NaN part (R144). -/
theorem isNaN_cabs (tie : RoundTie) (h : isNaN a = true ∨ isNaN b = true) :
    isNaN (cabs (numB64 tie) ⟨a, b⟩) = true :=
  isNaN_b64sqrt (isNaN_b64add (h.imp (fun ha => isNaN_b64mul (.inl ha)) fun hb => isNaN_b64mul (.inl hb)))

/-- A polar form with a NaN modulus or angle (R146). -/
theorem isNaN_cpolar (tie : RoundTie) (h : isNaN a = true ∨ isNaN b = true) :
    isNaN (cpolar (numB64 tie) a b).re = true ∧ isNaN (cpolar (numB64 tie) a b).im = true :=
  ⟨isNaN_b64mul (h.imp_right fun hb => isNaN_b64cos (.inl hb)),
    isNaN_b64mul (h.imp_right fun hb => isNaN_b64sin (.inl hb))⟩

/-- Every part of either operand enters both parts of a product (R142). -/
theorem isNaN_cmul (tie : RoundTie) {z w : Cx Word}
    (h : isNaN z.re = true ∨ isNaN z.im = true ∨ isNaN w.re = true ∨ isNaN w.im = true) :
    isNaN (cmul (numB64 tie) z w).re = true ∧ isNaN (cmul (numB64 tie) z w).im = true := by
  refine ⟨isNaN_b64sub ?_, isNaN_b64add ?_⟩
  · rcases h with h | h | h | h
    · exact .inl (isNaN_b64mul (.inl h))
    · exact .inr (isNaN_b64mul (.inl h))
    · exact .inl (isNaN_b64mul (.inr h))
    · exact .inr (isNaN_b64mul (.inr h))
  · rcases h with h | h | h | h
    · exact .inl (isNaN_b64mul (.inl h))
    · exact .inr (isNaN_b64mul (.inl h))
    · exact .inr (isNaN_b64mul (.inr h))
    · exact .inl (isNaN_b64mul (.inr h))

end NanOperands

/-- Settles O44: each operation asks for a NaN operand first. -/
theorem nanPropagates : Obligations.NanPropagates := by
  refine ⟨fun tie a b h => ?_, fun tie a b n => ?_⟩
  · exact ⟨isNaN_b64add h, isNaN_b64sub h, isNaN_b64mul h, isNaN_b64div h, isNaN_b64atan2 h,
      fun ha => ⟨(isNaN_b64neg a).trans ha, isNaN_b64sqrt ha, isNaN_b64cos (.inl ha), isNaN_b64sin (.inl ha),
        isNaN_b64round tie ha⟩,
      isNaN_cabs tie h, isNaN_b64atan2 h.symm, isNaN_cpolar tie h⟩
  · exact ⟨fun h => ⟨isNaN_b64add h, isNaN_b64sub h⟩, fun h => ⟨isNaN_b64add h, isNaN_b64sub h⟩, isNaN_cmul tie,
      fun h => ⟨h, isNaN_b64div (.inl h)⟩, fun h => ⟨(isNaN_b64neg _).trans h, isNaN_b64div (.inl h)⟩⟩

end Sys2Proof.Machine
end

section
/-! The free functions and the constants settled (40_numerics.md R126, R127, R128). -/

namespace Sys2Proof.Machine

/-! ## Cosine and sine -/

/-- T2 of R127. -/
theorem magOf_b64cos_le {x : Word} (hx : isFinite x = true) : magOf (b64cos x) ≤ magOf b64one := by
  obtain ⟨hn, hi⟩ := not_special_of_isFinite hx
  rw [b64cos, hn, hi, Bool.or_false, if_neg Bool.false_ne_true]
  split
  · exact le_rfl
  · exact magOf_boundedBy_le _ _

/-- T2 of R127. -/
theorem magOf_b64sin_le {x : Word} (hx : isFinite x = true) : magOf (b64sin x) ≤ magOf b64one := by
  obtain ⟨hn, hi⟩ := not_special_of_isFinite hx
  rw [b64sin, hn, hi, Bool.or_false, if_neg Bool.false_ne_true]
  split
  · next hz => exact (of_decide_eq_true hz).trans_le (Nat.zero_le _)
  · split
    · rw [magOf_b64neg]
      exact magOf_boundedBy_le _ _
    · exact magOf_boundedBy_le _ _

/-- T3 of R127: the cosine looks at the magnitude alone. -/
theorem b64cos_b64neg {x : Word} (hx : isFinite x = true) : b64cos (b64neg x) = b64cos x := by
  obtain ⟨hn, hi⟩ := not_special_of_isFinite hx
  simp [b64cos, hn, hi]

/-- T3 of R127: the sine carries the sign over. -/
theorem b64sin_b64neg {x : Word} (hx : isFinite x = true) : b64sin (b64neg x) = b64neg (b64sin x) := by
  obtain ⟨hn, hi⟩ := not_special_of_isFinite hx
  cases hz : isZero x with
  | true => simp [b64sin, hn, hi, hz]
  | false => cases hs : signOf x <;> simp [b64sin, hn, hi, hz, hs]

/-- Settles O45: T1 and T4 are branches of their own, T2 is the bound, T3 the evaluation at the magnitude. -/
theorem cosineAndSineKeepTheirProperties : Obligations.CosineAndSineKeepTheirProperties := by
  refine ⟨by decide +kernel, by decide +kernel, by decide +kernel, by decide +kernel, fun x hx => ?_,
    fun x hx => ⟨b64cos_b64neg hx, b64sin_b64neg hx⟩, fun x h => ⟨isNaN_b64cos h, isNaN_b64sin h⟩⟩
  obtain ⟨hcos, hlow, hhigh⟩ := realOf_mem_of_magOf_le_one (magOf_b64cos_le hx)
  exact ⟨hcos, hlow, hhigh, realOf_mem_of_magOf_le_one (magOf_b64sin_le hx)⟩

/-! ## The arctangent -/

theorem b64pi_div_two : b64div b64pi (b64ofInt 2) = 0x3FF921FB54442D18 := by decide +kernel

theorem b64pi_div_four : b64div b64pi (b64ofInt 4) = 0x3FE921FB54442D18 := by decide +kernel

/-- Every angle that is no NaN has the sign of the ordinate and a magnitude of at most PI (A2 of R128). -/
theorem b64atan2_eq_withSign {y x : Word} (hy : isNaN y = false) (hx : isNaN x = false) :
    ∃ w, b64atan2 y x = withSign (signOf y) w ∧ magOf w ≤ magOf b64pi := by
  have hhalf : magOf (b64div b64pi (b64ofInt 2)) ≤ magOf b64pi := by decide +kernel
  have hquarter : magOf (b64div b64pi (b64ofInt 4)) ≤ magOf b64pi := by decide +kernel
  have hthree : magOf (b64mul (b64ofInt 3) (b64div b64pi (b64ofInt 4))) ≤ magOf b64pi := by decide +kernel
  have hzero : magOf 0 ≤ magOf b64pi := Nat.zero_le _
  rw [b64atan2, hy, hx, Bool.or_false, if_neg Bool.false_ne_true]
  split
  · split
    · exact ⟨_, rfl, le_rfl⟩
    · exact ⟨_, rfl, hzero⟩
  · split
    · split
      · split
        · exact ⟨_, rfl, hthree⟩
        · exact ⟨_, rfl, hquarter⟩
      · exact ⟨_, rfl, hhalf⟩
    · split
      · split
        · exact ⟨_, rfl, le_rfl⟩
        · exact ⟨_, rfl, hzero⟩
      · split
        · exact ⟨_, rfl, hhalf⟩
        · exact ⟨_, rfl, magOf_boundedBy_le _ _⟩

/-- A3 and A4 of R128: on the axis of the abscissa the angle is 0 or PI. -/
theorem b64atan2_of_isZero {y x : Word} (hx : isNaN x = false) (hy : isZero y = true) :
    b64atan2 y x = withSign (signOf y) (if signOf x then b64pi else 0) := by
  cases hs : signOf x <;> simp [b64atan2, not_isNaN_of_isZero hy, hx, hy, hs]

/-- Settles O46: A2 holds in every branch, the other properties are a branch each. -/
theorem arctangentSpecialCases : Obligations.ArctangentSpecialCases := by
  refine ⟨fun y x => isNaN_b64atan2, fun y x hy hx => ?_, fun y x hx hy hs => ?_, fun y x hx hy hs => ?_,
    fun y x hn hy hx => ?_, fun y x hy hz hx => ?_, fun y x hy hx => ?_, fun y x hy hx hs => ?_, fun y x hy hx hs => ?_⟩
  · obtain ⟨w, hw, hle⟩ := b64atan2_eq_withSign hy hx
    rw [hw, magOf_withSign, signOf_withSign]
    exact ⟨hle, rfl⟩
  · rw [b64atan2_of_isZero hx hy, hs]
    exact (eq_packWord_of_isZero hy).symm
  · rw [b64atan2_of_isZero hx hy, hs]
    rfl
  · have hangle : b64atan2 y x = withSign (signOf y) (b64div b64pi (b64ofInt 2)) := by
      cases hi : isInf y <;> simp [b64atan2, hn, hy, hi, hx, not_isNaN_of_isZero hx, not_isInf_of_isZero hx]
    rw [hangle, b64pi_div_two]
    rfl
  · obtain ⟨hny, hiy⟩ := not_special_of_isFinite hy
    cases hs : signOf x <;> simp [b64atan2, hny, hiy, hz, hx, not_isNaN_of_isInf hx, hs] <;> rfl
  · obtain ⟨hnx, hix⟩ := not_special_of_isFinite hx
    have hangle : b64atan2 y x = withSign (signOf y) (b64div b64pi (b64ofInt 2)) := by
      simp [b64atan2, not_isNaN_of_isInf hy, not_isZero_of_isInf hy, hy, hnx, hix]
    rw [hangle, b64pi_div_two]
    rfl
  · have hangle : b64atan2 y x = withSign (signOf y) (b64div b64pi (b64ofInt 4)) := by
      simp [b64atan2, not_isNaN_of_isInf hy, not_isZero_of_isInf hy, hy, not_isNaN_of_isInf hx, hx, hs]
    rw [hangle, b64pi_div_four]
    rfl
  · simp [b64atan2, not_isNaN_of_isInf hy, not_isZero_of_isInf hy, hy, not_isNaN_of_isInf hx, hx, hs, withSign]

/-! ## The constants -/

/-- A magnitude is nearest what stands between the middles on either side of it. -/
theorem nearest_of_between {y : ℝ} {m : Nat} (hlow : (unitsOfMag m + unitsOfMag (m + 1) : ℝ) < 2 * y)
    (hhigh : 2 * y < unitsOfMag (m + 1) + unitsOfMag (m + 2)) {k : Nat} (hk : k ≠ m + 1) :
    |y - unitsOfMag (m + 1)| < |y - unitsOfMag k| := by
  have hmono : ∀ {i j : Nat}, i ≤ j → (unitsOfMag i : ℝ) ≤ unitsOfMag j := fun h =>
    Nat.cast_le.mpr (unitsOfMag_strictMono.monotone h)
  have hgap : ∀ i : Nat, (unitsOfMag i : ℝ) < unitsOfMag (i + 1) := fun i =>
    Nat.cast_lt.mpr (unitsOfMag_strictMono (Nat.lt_succ_self i))
  have hbelow := hgap m
  have habove := hgap (m + 1)
  rw [abs_lt]
  rcases Nat.lt_or_gt_of_ne hk with hlt | hgt
  · have hfar := hmono (Nat.le_of_lt_succ hlt)
    have hdist := le_abs_self (y - unitsOfMag k)
    constructor <;> linarith
  · have hfar : (unitsOfMag (m + 2) : ℝ) ≤ unitsOfMag k := hmono hgt
    have hdist := neg_abs_le (y - unitsOfMag k)
    constructor <;> linarith

/-- PI is the binary64 value nearest π: in units of 2^-51 its significand is 7074237752028440, and π stands within half
a unit of it. -/
theorem nearestTo_pi : NearestTo Real.pi b64pi := by
  have hone : (0 : ℝ) < oneUnits := Nat.cast_pos.mpr oneUnits_pos
  have hsplit : (oneUnits : ℝ) = 2 ^ 51 * (2 ^ 1023 : Nat) := by
    rw [oneUnits, show 1074 = 51 + 1023 from rfl, pow_add, Nat.cast_mul, Nat.cast_pow, Nat.cast_ofNat]
  have hmag : magOf b64pi = 1023 * 2 ^ 52 + 7074237752028439 + 1 := by decide
  have hunits : ∀ q : Nat, 2 ^ 52 ≤ q → q ≤ 2 ^ 53 → (unitsOfMag (1023 * 2 ^ 52 + q) : ℝ) = q * (2 ^ 1023 : Nat) :=
    fun q hq hq' => by rw [unitsOfMag_shifted hq' (.inr hq), Nat.cast_mul]
  have hpos : (0 : ℝ) < (2 ^ 1023 : Nat) := Nat.cast_pos.mpr (by positivity)
  generalize ((2 ^ 1023 : Nat) : ℝ) = e at hsplit hunits hpos
  have hlow := mul_lt_mul_of_pos_right Real.pi_gt_d20 hpos
  have hhigh := mul_lt_mul_of_pos_right Real.pi_lt_d20 hpos
  have hnear : ∀ k ≠ magOf b64pi,
      |Real.pi * oneUnits - unitsOfMag (magOf b64pi)| < |Real.pi * oneUnits - unitsOfMag k| := by
    rw [hmag]
    refine fun k => nearest_of_between ?_ ?_
    · rw [add_assoc, hunits _ (by decide) (by decide), hunits _ (by decide) (by decide), hsplit]
      push_cast
      linarith
    · rw [add_assoc, add_assoc, hunits _ (by decide) (by decide), hunits _ (by decide) (by decide), hsplit]
      push_cast
      linarith
  have hword := nearestTo_packWord_of_nearest (mul_nonneg Real.pi_pos.le hone.le)
    (show magOf b64pi < infBits by decide) (fun k => ?_) false
  · rwa [mul_div_cancel_right₀ _ hone.ne'] at hword
  · by_cases hk : k = magOf b64pi
    · exact ⟨by rw [hk], fun _ hne => absurd (by rw [hk]) hne⟩
    · exact ⟨(hnear k hk).le, fun htie => absurd htie (hnear k hk).ne'⟩

/-- Settles O36: words evaluated by the model, and PI nearest π by the bounds on π between two middles. -/
theorem constantsAreExact : Obligations.ConstantsAreExact := by
  refine ⟨by decide +kernel, by decide +kernel, by decide +kernel, rfl, rfl, by decide +kernel,
    by decide +kernel, by decide +kernel,
    nearestTo_pi, ?_, fun _ => ⟨rfl, rfl⟩⟩
  have hunits : unitsOf 0x401921FB54442D18 = 2 * unitsOf 0x400921FB54442D18 := by decide +kernel
  have hcast : (unitsOf 0x401921FB54442D18 : ℝ) = 2 * unitsOf 0x400921FB54442D18 := by
    rw [hunits, Nat.cast_mul, Nat.cast_ofNat]
  rw [realOf_eq_signedReal, realOf_eq_signedReal, hcast, mul_div_assoc]
  rfl

end Sys2Proof.Machine
end

section
/-! The commands FFT and IFFT settled (41_transform.md R163, R165). -/

namespace Sys2Proof.Machine

/-- A command that passes its checks completes its body, and the body writes nothing outside the ranges of R70. -/
theorem exec_completes {i : Instr} {s : State} (hc : configError Config.params i s = false)
    (hk : capacityError Config.params i s = false) :
    exec i s = .next (complete (bodyOf Config.params i s)) ∧
      bytesKeptOutside (writeRanges Config.params i s) s (complete (bodyOf Config.params i s)) := by
  refine ⟨?_, (bodyOf_edits config_params_legal hc hk).keeps.outsideRanges⟩
  rw [exec_eq_perform, hc, hk]
  rfl

/-- The transform body on a frame that holds values: the memory alone changes. -/
theorem transformFrame_of_held {p : Params} {s : State} {x : List (Cx Word)} (hx : readFrame p s = some x)
    (f : Nat → List (Cx Word) → List (Cx Word)) :
    transformFrame p f s = { s with mem := writeComplex p s.mem .frm 0 (f (logwOf s) x) } := by
  rw [transformFrame, hx]

/-- A frame read back after the transform body is the image of what it was. -/
theorem readFrame_transformFrame {p : Params} {s : State} {x : List (Cx Word)} (hx : readFrame p s = some x)
    {f : Nat → List (Cx Word) → List (Cx Word)} (hf : ∀ n y, y.length = 2 ^ n → (f n y).length = 2 ^ n) :
    readFrame p (complete (transformFrame p f s)) = some (f (logwOf s) x) := by
  have hlen : (f (logwOf s) x).length = windowSize s := hf _ _ (readComplex_length hx)
  have hread := readComplex_writeComplex p s.mem .frm 0 (f (logwOf s) x)
  rw [hlen] at hread
  rw [transformFrame_of_held hx]
  exact hread

/-- What FFT and IFFT share: any command whose body transforms the frame and whose row is FRM[0..W). -/
theorem exec_transforms_frame {i : Instr} {f : Nat → List (Cx Word) → List (Cx Word)} {s : State}
    {x : List (Cx Word)} (hbody : bodyOf Config.params i = transformFrame Config.params f)
    (hf : ∀ n y, y.length = 2 ^ n → (f n y).length = 2 ^ n) (hc : configError Config.params i s = false)
    (hk : capacityError Config.params i s = false)
    (hrange : writeRanges Config.params i s = [(0x8000, 16 * 2 ^ s.logw.toNat)])
    (hx : readFrame Config.params s = some x) :
    ∃ t, exec i s = .next t ∧ readFrame Config.params t = some (f s.logw.toNat x) ∧
      bytesKeptOutside [(0x8000, 16 * 2 ^ s.logw.toNat)] s t ∧
      t = { s with mem := t.mem, status := { s.status with busy := false, done := true } } := by
  obtain ⟨hexec, hkept⟩ := exec_completes hc hk
  rw [hbody] at hexec hkept
  refine ⟨_, hexec, readFrame_transformFrame hx hf, hrange ▸ hkept, ?_⟩
  rw [transformFrame_of_held hx]
  rfl

theorem transformConfigError_of_logw_le {s : State} (h : s.logw.toNat ≤ 10) :
    transformConfigError Config.params s = false :=
  decide_eq_false (Nat.not_lt.mpr h)

/-- Settles O26: FFT is such a command, and a transform keeps the length of its frame. -/
theorem fftTransformsTheFrame : Obligations.FftTransformsTheFrame := fun _ _ hw hx =>
  exec_transforms_frame rfl (fft_length _) (transformConfigError_of_logw_le hw) rfl rfl hx

/-- Settles O27: IFFT is such a command, and so does the inverse. -/
theorem ifftTransformsTheFrame : Obligations.IfftTransformsTheFrame := fun _ _ hw hx =>
  exec_transforms_frame rfl (ifft_length _) (transformConfigError_of_logw_le hw) rfl rfl hx

end Sys2Proof.Machine
end

section
/-! One table of twiddles serves every size (10_state.md R42, 41_transform.md R160): doubling both the index and the
length doubles the product 2π·k and the length exactly, and so the quotient is the same word. -/

namespace Sys2Proof.Machine

/-! ## Rounding and factors of two -/

theorem nearestEven_mul_mul {c : Nat} (hc : 0 < c) (n d : Nat) : nearestEven (c * n) (c * d) = nearestEven n d := by
  have hlt : ∀ a b : Nat, c * a < c * b ↔ a < b := fun a b => Nat.mul_lt_mul_left hc
  simp only [nearestEven, Nat.mul_mod_mul_left, Nat.mul_div_mul_left _ _ hc, Nat.mul_left_comm 2 c, hlt]

/-- A quotient is rounded alike when both its parts are scaled. -/
theorem roundUnits_mul_mul {c : Nat} (hc : 0 < c) (n d : Nat) : roundUnits (c * n) (c * d) = roundUnits n d := by
  rw [roundUnits, roundUnits, ulpShift, Nat.mul_div_mul_left _ _ hc, mul_assoc, nearestEven_mul_mul hc, ← ulpShift]

/-- Twice a quotient past the subnormals is shifted one bit more. -/
theorem ulpShift_two_mul {n d : Nat} (hd : 0 < d) (h : 2 ^ 52 * d ≤ n) : ulpShift (2 * n) d = ulpShift n d + 1 := by
  have hlog : 52 ≤ Nat.log2 (n / d) := by
    have hq := (Nat.le_div_iff_mul_le hd).mpr h
    exact (Nat.le_log2 (by omega)).mpr hq
  have hhalf : 2 * n / d / 2 = n / d := by rw [Nat.div_div_eq_div_mul, mul_comm d 2, Nat.mul_div_mul_left _ _ two_pos]
  have hstep := Nat.log_div_base 2 (2 * n / d)
  rw [hhalf, ← Nat.log2_eq_log_two, ← Nat.log2_eq_log_two] at hstep
  unfold ulpShift
  omega

/-- Past the subnormals, twice the exact result is rounded to twice the rounded one. -/
theorem unitsOfMag_roundedMag_two_mul {n d : Nat} (hd : 0 < d) (h : 2 ^ 52 * d ≤ n) :
    unitsOfMag (roundedMag (2 * n) d) = 2 * unitsOfMag (roundedMag n d) := by
  rw [unitsOfMag_roundedMag _ hd, unitsOfMag_roundedMag _ hd, ulpShift_two_mul hd h, pow_succ', mul_left_comm d 2,
    nearestEven_mul_mul two_pos, mul_left_comm]

/-! ## The angle of a twiddle -/

/-- A natural number up to 2^53 as a binary64 value. -/
theorem b64ofInt_natCast {k : Nat} (hk : k ≤ 2 ^ 53) :
    isFinite (b64ofInt k) = true ∧ signOf (b64ofInt k) = false ∧ unitsOf (b64ofInt k) = k * oneUnits := by
  obtain ⟨hfin, hsign, hunits⟩ := b64ofInt_exact (k := k) hk
  exact ⟨hfin, hsign.trans (decide_eq_false (Int.natCast_nonneg k).not_gt), hunits⟩

/-- TWO_PI is a finite positive normal value below 7. -/
theorem b64twoPi_bounds :
    isFinite b64twoPi = true ∧ signOf b64twoPi = false ∧ 2 ^ 52 ≤ unitsOf b64twoPi ∧
      unitsOf b64twoPi ≤ 7 * oneUnits := by
  decide +kernel

/-- The product 2π·k of an index does not overflow: it is the rounded product. -/
theorem b64mul_twoPi {k : Nat} (hk : k ≤ 2 ^ 50) :
    isFinite (b64mul b64twoPi (b64ofInt k)) = true ∧ signOf (b64mul b64twoPi (b64ofInt k)) = false ∧
      unitsOf (b64mul b64twoPi (b64ofInt k)) = unitsOfMag (roundedMag (unitsOf b64twoPi * k * oneUnits) oneUnits) := by
  obtain ⟨hfin, hsign, -, hhigh⟩ := b64twoPi_bounds
  obtain ⟨hfin', hsign', hunits⟩ := b64ofInt_natCast (hk.trans (by decide))
  obtain ⟨m, hm, hmunits⟩ := exists_mag_of_integer (k := 7 * k) (by omega)
  have hle : roundedMag (unitsOf b64twoPi * k * oneUnits) oneUnits ≤ m := by
    refine roundedMag_le oneUnits_pos (Nat.mul_le_mul_right _ ?_)
    rw [hmunits, mul_right_comm]
    exact Nat.mul_le_mul_right k hhigh
  have hround : roundUnits (unitsOf b64twoPi * k * oneUnits) oneUnits =
      roundedMag (unitsOf b64twoPi * k * oneUnits) oneUnits := min_eq_right (hle.trans hm.le)
  rw [b64mul_of_finite hfin hfin', hunits, hsign, hsign', ← mul_assoc, hround]
  obtain ⟨hpack, hpsign, -, hpunits⟩ := isFinite_packWord (hle.trans_lt hm) false
  exact ⟨hpack, hpsign, hpunits⟩

/-- Twice the index, exactly twice the product 2π·k. -/
theorem unitsOf_b64mul_twoPi_two_mul {k : Nat} (hk : 2 * k ≤ 2 ^ 50) :
    unitsOf (b64mul b64twoPi (b64ofInt (2 * k : Nat))) = 2 * unitsOf (b64mul b64twoPi (b64ofInt k)) := by
  obtain ⟨-, -, hlow, -⟩ := b64twoPi_bounds
  obtain ⟨-, -, hunits⟩ := b64mul_twoPi (k := k) (by omega)
  obtain ⟨-, -, hunits'⟩ := b64mul_twoPi hk
  rw [hunits, hunits']
  rcases Nat.eq_zero_or_pos k with rfl | hpos
  · have hzero : roundedMag 0 oneUnits = 0 := Nat.le_zero.mp (roundedMag_le oneUnits_pos (Nat.zero_le _))
    simp only [mul_zero, zero_mul, hzero, unitsOfMag_zero]
  · rw [mul_left_comm _ 2, mul_assoc 2]
    exact unitsOfMag_roundedMag_two_mul oneUnits_pos
      (Nat.mul_le_mul_right _ (hlow.trans (Nat.le_mul_of_pos_right _ hpos)))

/-- The angle of a twiddle from the units of its product 2π·k. -/
theorem twAngle_numB64 (tie : RoundTie) {n k : Nat} (hk : k ≤ 2 ^ 50) (hn : 0 < n) (hn' : n ≤ 2 ^ 53) :
    twAngle (numB64 tie) n k =
      b64neg (packWord false (roundUnits (unitsOf (b64mul b64twoPi (b64ofInt k)) * oneUnits) (n * oneUnits))) := by
  obtain ⟨hfin, hsign, -⟩ := b64mul_twoPi hk
  obtain ⟨hfin', hsign', hunits⟩ := b64ofInt_natCast hn'
  have hz : isZero (b64ofInt n) = false := by
    rw [← Bool.not_eq_true, isZero_iff_unitsOf, hunits]
    exact (Nat.mul_pos hn oneUnits_pos).ne'
  have hdiv := b64div_of_finite hfin hfin' hz
  rw [hsign, hsign', hunits, bne_self_eq_false] at hdiv
  simp only [twAngle, numB64, hdiv]

/-- R160: `tw(N, k) = tw(2N, 2k)`. -/
theorem tw_two_mul (tie : RoundTie) {n k : Nat} (hk : 2 * k ≤ 2 ^ 50) (hn : 0 < n) (hn' : 2 * n ≤ 2 ^ 53) :
    tw (numB64 tie) (2 * n) (2 * k) = tw (numB64 tie) n k := by
  have hangle : twAngle (numB64 tie) (2 * n) (2 * k) = twAngle (numB64 tie) n k := by
    rw [twAngle_numB64 tie hk (by omega) hn', twAngle_numB64 tie (by omega) hn (by omega),
      unitsOf_b64mul_twoPi_two_mul hk, mul_assoc, mul_assoc, roundUnits_mul_mul two_pos]
  rw [tw, tw, hangle]

/-- So the twiddles of a length stand among those of every multiple by a power of two. -/
theorem tw_two_pow_mul (tie : RoundTie) {n k : Nat} (hn : 0 < n) (hkn : k ≤ n) {e : Nat} (h : 2 ^ e * n ≤ 2 ^ 50) :
    tw (numB64 tie) (2 ^ e * n) (2 ^ e * k) = tw (numB64 tie) n k := by
  induction e with
  | zero => simp
  | succ e ih =>
    rw [pow_succ', mul_assoc] at h
    have hle : 2 ^ e * k ≤ 2 ^ e * n := Nat.mul_le_mul_left _ hkn
    have hpos : 0 < 2 ^ e * n := Nat.mul_pos (Nat.two_pow_pos e) hn
    rw [pow_succ', mul_assoc, mul_assoc, tw_two_mul tie (by omega) hpos (by omega), ih (by omega)]

theorem twiddleTable_getElem? (p : Params) {m : Nat} (h : m < p.wMax / 2) :
    (twiddleTable p)[m]? = some (tw (machineNum p) p.wMax m) := by
  simp [twiddleTable, h]

/-- Settles O48: the one table has the twiddle of every length at `k * (W_MAX / N)`, by repeated doubling. -/
theorem oneTwiddleTableServesEverySize : Obligations.OneTwiddleTableServesEverySize := by
  refine ⟨fun tie n k hn hk => ?_, fun p n k hp hmax hn hnmax hk => ?_⟩
  · have hlen : 2 ^ (n + 1) ≤ 2 ^ 20 := Nat.pow_le_pow_right two_pos hn
    rw [pow_succ] at hlen
    rw [pow_succ' 2 (n + 1), tw_two_mul tie (by omega) (Nat.two_pow_pos _) (by rw [pow_succ]; omega)]
  · obtain ⟨e, he⟩ := Nat.exists_eq_add_of_le' hnmax
    obtain ⟨j, rfl⟩ := Nat.exists_eq_add_of_le' hn
    have hwmax : p.wMax = 2 ^ e * 2 ^ (j + 1) := by rw [Params.wMax, he, pow_add]
    have hlarge : p.wMax ≤ 2 ^ 20 := Nat.pow_le_pow_right two_pos hmax
    have hindex : k * (p.wMax / 2 ^ (j + 1)) = 2 ^ e * k := by
      rw [hwmax, Nat.mul_div_cancel _ (Nat.two_pow_pos _), mul_comm]
    have hbelow : 2 ^ e * k < p.wMax / 2 := by
      rw [hwmax, pow_succ, ← mul_assoc, Nat.mul_div_cancel _ two_pos]
      exact Nat.mul_lt_mul_of_pos_left hk (Nat.two_pow_pos e)
    have hk' : k ≤ 2 ^ (j + 1) := by
      rw [Nat.add_sub_cancel] at hk
      exact hk.le.trans (Nat.pow_le_pow_right two_pos (Nat.le_succ j))
    have hnum : machineNum p = numB64 p.roundTie := by rw [machineNum, hp]
    rw [hindex, twiddleTable_getElem? p hbelow, hnum, hwmax,
      tw_two_pow_mul _ (Nat.two_pow_pos _) hk' (by omega)]

end Sys2Proof.Machine
end

section
/-! The iterative transform is the recursive one (41_transform.md R162). In bit-reversed order the even-indexed elements
are the first half of the buffer and the odd-indexed ones the second; every size but the last works on the halves apart,
as the two recursive calls of R161 do, and the last one performs the butterflies that combine them. -/

namespace Sys2Proof.Machine

section

variable {R : Type} {num : Num R}

/-! ## The elements of a buffer -/

theorem getElem?_eq_elementOr0 (num : Num R) {a : List (Cx R)} {i : Nat} (h : i < a.length) :
    a[i]? = some (elementOr0 num a i) := by
  rw [elementOr0, List.getD_eq_getElem _ _ h, List.getElem?_eq_getElem h]

theorem ext_elementOr0 (num : Num R) {a b : List (Cx R)} (hl : a.length = b.length)
    (h : ∀ i < a.length, elementOr0 num a i = elementOr0 num b i) : a = b := by
  refine List.ext_getElem hl fun i ha hb => ?_
  have := h i ha
  rwa [elementOr0, elementOr0, List.getD_eq_getElem _ _ ha, List.getD_eq_getElem _ _ hb] at this

theorem elementOr0_append_left {a b : List (Cx R)} {i : Nat} (h : i < a.length) :
    elementOr0 num (a ++ b) i = elementOr0 num a i := List.getD_append _ _ _ _ h

theorem elementOr0_append_right (a b : List (Cx R)) (i : Nat) :
    elementOr0 num (a ++ b) (a.length + i) = elementOr0 num b i := by
  rw [elementOr0, List.getD_append_right _ _ _ _ (Nat.le_add_right _ _), Nat.add_sub_cancel_left, ← elementOr0]

theorem elementOr0_set_self {a : List (Cx R)} {i : Nat} (h : i < a.length) (z : Cx R) :
    elementOr0 num (a.set i z) i = z := by
  simp [elementOr0, List.getD_eq_getElem?_getD, h]

theorem elementOr0_set_ne {i j : Nat} (h : j ≠ i) (a : List (Cx R)) (z : Cx R) :
    elementOr0 num (a.set i z) j = elementOr0 num a j := by
  simp [elementOr0, List.getD_eq_getElem?_getD, List.getElem?_set_ne h.symm]

theorem elementOr0_evens {x : List (Cx R)} {n i : Nat} (hx : x.length = 2 * n) (hi : i < n) :
    elementOr0 num (evens x) i = elementOr0 num x (2 * i) := by
  simp only [elementOr0, List.getD_eq_getElem?_getD, evens_getElem? x i (by omega)]

theorem elementOr0_odds {x : List (Cx R)} {n i : Nat} (hx : x.length = 2 * n) (hi : i < n) :
    elementOr0 num (odds x) i = elementOr0 num x (2 * i + 1) := by
  simp only [elementOr0, List.getD_eq_getElem?_getD, odds_getElem? x i (by omega)]

/-- The product of the twiddle and the odd half that a butterfly adds and subtracts (R161). -/
def twiddledAt (num : Num R) (n : Nat) (o : List (Cx R)) (k : Nat) : Cx R :=
  cmul num (tw num n k) (elementOr0 num o k)

theorem butterflies_length {n h : Nat} {e o : List (Cx R)} (he : e.length = h) (ho : o.length = h) :
    (butterflies num n e o).length = h + h := by
  simp [butterflies, twiddled_length, he, ho]

/-- R161: `X[k] = E[k] + t[k]` and `X[k + N/2] = E[k] - t[k]`. -/
theorem elementOr0_butterflies {n h k : Nat} {e o : List (Cx R)} (he : e.length = h) (ho : o.length = h)
    (hk : k < h) :
    elementOr0 num (butterflies num n e o) k = cadd num (elementOr0 num e k) (twiddledAt num n o k) ∧
      elementOr0 num (butterflies num n e o) (h + k) =
        csub num (elementOr0 num e k) (twiddledAt num n o k) := by
  subst he
  have hzip : ∀ f : Cx R → Cx R → Cx R, (List.zipWith f e (twiddled num n o)).length = e.length := fun f => by
    simp [twiddled_length, ho]
  have hat : ∀ f : Cx R → Cx R → Cx R, elementOr0 num (List.zipWith f e (twiddled num n o)) k =
      f (elementOr0 num e k) (twiddledAt num n o k) := fun f => by
    simp [elementOr0, twiddledAt, twiddled, hk, ho]
  constructor
  · rw [butterflies, elementOr0_append_left ((hzip _).symm ▸ hk), hat]
  · have hright := elementOr0_append_right (num := num) (List.zipWith (cadd num) e (twiddled num n o))
      (List.zipWith (csub num) e (twiddled num n o)) k
    rw [hzip, hat] at hright
    exact hright

/-! ## Bit-reversed order -/

theorem bitReverse_lt (n j : Nat) : bitReverse n j < 2 ^ n := by
  induction n generalizing j with
  | zero => exact Nat.one_pos
  | succ n ih =>
    have hlow := ih (j / 2)
    rw [bitReverse, pow_succ]
    rcases Nat.mod_two_eq_zero_or_one j with h | h <;> rw [h] <;> omega

/-- The highest bit of the index becomes the lowest. -/
theorem bitReverse_succ_high {n i c : Nat} (hi : i < 2 ^ n) (hc : c < 2) :
    bitReverse (n + 1) (2 ^ n * c + i) = 2 * bitReverse n i + c := by
  induction n generalizing i with
  | zero =>
    have : i = 0 := by omega
    simp [bitReverse, this, Nat.mod_eq_of_lt hc]
  | succ n ih =>
    have hmod : (2 ^ (n + 1) * c + i) % 2 = i % 2 := by
      rw [pow_succ', mul_assoc]
      omega
    have hdiv : (2 ^ (n + 1) * c + i) / 2 = 2 ^ n * c + i / 2 := by
      rw [pow_succ', mul_assoc]
      omega
    rw [bitReverse, hmod, hdiv, ih (by rw [pow_succ] at hi; omega), bitReverse, pow_succ']
    ring

theorem bitReversed_length (num : Num R) (n : Nat) (x : List (Cx R)) : (bitReversed num n x).length = 2 ^ n := by
  simp [bitReversed]

/-- The even-indexed elements come first, then the odd-indexed ones, each in bit-reversed order. -/
theorem bitReversed_succ {n : Nat} {x : List (Cx R)} (hx : x.length = 2 * 2 ^ n) :
    bitReversed num (n + 1) x = bitReversed num n (evens x) ++ bitReversed num n (odds x) := by
  simp only [bitReversed, pow_succ, mul_two, List.range_add, List.map_append, List.map_map]
  congr 1 <;> refine List.map_congr_left fun i hi => ?_ <;> have hi := List.mem_range.mp hi
  · have hrev : bitReverse (n + 1) i = 2 * bitReverse n i := by
      simpa using bitReverse_succ_high hi two_pos
    rw [hrev, elementOr0_evens hx (bitReverse_lt n i)]
  · have hrev : bitReverse (n + 1) (2 ^ n + i) = 2 * bitReverse n i + 1 := by
      simpa using bitReverse_succ_high hi one_lt_two
    rw [Function.comp_apply, hrev, elementOr0_odds hx (bitReverse_lt n i)]

/-! ## The passes keep the length and work on the halves apart -/

theorem foldl_length {α β : Type} {f : List α → β → List α} (hf : ∀ a b, (f a b).length = a.length) (bs : List β)
    (a : List α) : (bs.foldl f a).length = a.length := by
  induction bs generalizing a with
  | nil => rfl
  | cons b bs ih => rw [List.foldl_cons, ih, hf]

/-- A fold over a list that is a part of another, when every step works on the part alone. -/
theorem foldl_part {α β : Type} {f g : List α → β → List α} {part : List α → List α} {bs : List β} {a : List α}
    (hg : ∀ a b, (g a b).length = a.length)
    (hstep : ∀ a' : List α, a'.length = a.length → ∀ b ∈ bs, f (part a') b = part (g a' b)) :
    bs.foldl f (part a) = part (bs.foldl g a) := by
  induction bs generalizing a with
  | nil => rfl
  | cons b bs ih =>
    rw [List.foldl_cons, List.foldl_cons, hstep a rfl b List.mem_cons_self]
    exact ih fun a' ha' c hc => hstep a' (ha'.trans (hg a b)) c (List.mem_cons_of_mem b hc)

theorem butterflyAt_length (num : Num R) (size st : Nat) (a : List (Cx R)) (k : Nat) :
    (butterflyAt num size st a k).length = a.length := by
  simp [butterflyAt]

theorem blockPass_length (num : Num R) (size : Nat) (a : List (Cx R)) (st : Nat) :
    (blockPass num size a st).length = a.length := foldl_length (butterflyAt_length num size st) _ a

theorem sizePass_length (num : Num R) (n : Nat) (a : List (Cx R)) (m : Nat) :
    (sizePass num n a m).length = a.length := foldl_length (blockPass_length num _) _ a

theorem butterflyAt_append_left {size st k : Nat} {a : List (Cx R)} (h : st + k + size / 2 < a.length)
    (b : List (Cx R)) : butterflyAt num size st (a ++ b) k = butterflyAt num size st a k ++ b := by
  simp only [butterflyAt]
  rw [elementOr0_append_left h, elementOr0_append_left (by omega), List.set_append_left _ _ (by omega),
    List.set_append_left _ _ (by rwa [List.length_set])]

theorem butterflyAt_append_right (size st k : Nat) (a b : List (Cx R)) :
    butterflyAt num size (a.length + st) (a ++ b) k = a ++ butterflyAt num size st b k := by
  simp only [butterflyAt, Nat.add_assoc]
  rw [elementOr0_append_right, elementOr0_append_right, List.set_append_right _ _ (by omega),
    List.set_append_right _ _ (by omega), Nat.add_sub_cancel_left, Nat.add_sub_cancel_left]

theorem blockPass_append_left {size st : Nat} {a : List (Cx R)} (h : st + size ≤ a.length) (b : List (Cx R)) :
    blockPass num size (a ++ b) st = blockPass num size a st ++ b := by
  refine foldl_part (part := (· ++ b)) (butterflyAt_length num size st) fun a' ha' k hk => ?_
  have hk := List.mem_range.mp hk
  exact butterflyAt_append_left (by omega) b

theorem blockPass_append_right (size st : Nat) (a b : List (Cx R)) :
    blockPass num size (a ++ b) (a.length + st) = a ++ blockPass num size b st :=
  foldl_part (part := (a ++ ·)) (butterflyAt_length num size st) fun b' _ k _ =>
    butterflyAt_append_right size st k a b'

/-- The first `c` blocks of one size (R162). -/
def firstBlocks (num : Num R) (size c : Nat) (a : List (Cx R)) : List (Cx R) :=
  (List.range c).foldl (fun a b => blockPass num size a (b * size)) a

/-- The pass of one size is its blocks, as many as fit. -/
theorem sizePass_eq_firstBlocks (num : Num R) (m d : Nat) (a : List (Cx R)) :
    sizePass num (m + 1 + d) a m = firstBlocks num (2 ^ (m + 1)) (2 ^ d) a := by
  rw [sizePass, pow_add 2 (m + 1), Nat.mul_div_cancel_left _ (Nat.two_pow_pos _), List.foldl_map, firstBlocks]

theorem firstBlocks_length (num : Num R) (size c : Nat) (a : List (Cx R)) :
    (firstBlocks num size c a).length = a.length := foldl_length (fun a' _ => blockPass_length num size a' _) _ a

/-- The blocks that a part of the buffer holds, then those of the rest. -/
theorem firstBlocks_append {size c : Nat} {a : List (Cx R)} (ha : a.length = c * size) (c' : Nat)
    (b : List (Cx R)) :
    firstBlocks num size (c + c') (a ++ b) = firstBlocks num size c a ++ firstBlocks num size c' b := by
  have hlength : ∀ (a' : List (Cx R)) (i : Nat), (blockPass num size a' (i * size)).length = a'.length :=
    fun a' i => blockPass_length num size a' _
  have hleft : firstBlocks num size c (a ++ b) = firstBlocks num size c a ++ b := by
    refine foldl_part (part := (· ++ b)) hlength fun a' ha' i hi => blockPass_append_left ?_ b
    rw [ha', ha, ← Nat.succ_mul]
    exact Nat.mul_le_mul_right _ (List.mem_range.mp hi)
  have hright : (List.range c').foldl (fun b' i => blockPass num size b' ((c + i) * size))
      (firstBlocks num size c a ++ b) = firstBlocks num size c a ++ firstBlocks num size c' b := by
    refine foldl_part (part := (firstBlocks num size c a ++ ·)) hlength fun b' _ i _ => ?_
    rw [add_mul, ← ha, ← firstBlocks_length num size c a, blockPass_append_right]
  rw [← hright, ← hleft]
  simp only [firstBlocks, List.range_add, List.foldl_append, List.foldl_map]

/-- A size that is not the last works on the two halves apart. -/
theorem sizePass_append {n m : Nat} (hm : m < n) {a : List (Cx R)} (ha : a.length = 2 ^ n) (b : List (Cx R)) :
    sizePass num (n + 1) (a ++ b) m = sizePass num n a m ++ sizePass num n b m := by
  obtain ⟨d, rfl⟩ := Nat.exists_eq_add_of_le (Nat.succ_le_of_lt hm)
  have ha' : a.length = 2 ^ d * 2 ^ (m + 1) := by rw [ha, ← pow_add, Nat.add_comm d]
  rw [Nat.add_assoc, sizePass_eq_firstBlocks, sizePass_eq_firstBlocks, sizePass_eq_firstBlocks, pow_succ 2 d,
    mul_two, firstBlocks_append ha']

theorem foldl_sizePass_append {n k : Nat} (hk : k ≤ n) {a : List (Cx R)} (ha : a.length = 2 ^ n) (b : List (Cx R)) :
    (List.range k).foldl (sizePass num (n + 1)) (a ++ b) =
      (List.range k).foldl (sizePass num n) a ++ (List.range k).foldl (sizePass num n) b := by
  induction k with
  | zero => rfl
  | succ k ih =>
    have hlen := (foldl_length (sizePass_length num n) (List.range k) a).trans ha
    simp only [List.range_succ, List.foldl_append, List.foldl_cons, List.foldl_nil]
    rw [ih (by omega), sizePass_append hk hlen]

/-! ## The last size combines the halves -/

/-- What the first `c` butterflies of the one block of the last size leave: their results, and the other elements as
they were. -/
theorem elementOr0_foldl_butterflyAt {size h c : Nat} (hsize : size / 2 = h) {e o : List (Cx R)} (he : e.length = h)
    (ho : o.length = h) (hc : c ≤ h) {k : Nat} (hk : k < h) :
    elementOr0 num ((List.range c).foldl (butterflyAt num size 0) (e ++ o)) k =
        (if k < c then cadd num (elementOr0 num e k) (twiddledAt num size o k) else elementOr0 num e k) ∧
      elementOr0 num ((List.range c).foldl (butterflyAt num size 0) (e ++ o)) (h + k) =
        (if k < c then csub num (elementOr0 num e k) (twiddledAt num size o k) else elementOr0 num o k) := by
  induction c generalizing k with
  | zero =>
    subst he
    exact ⟨elementOr0_append_left hk, elementOr0_append_right e o k⟩
  | succ c ih =>
    have hlen := foldl_length (butterflyAt_length num size 0) (List.range c) (e ++ o)
    rw [List.length_append, he, ho] at hlen
    obtain ⟨hlow, hhigh⟩ := ih (by omega) (show c < h by omega)
    obtain ⟨hlow', hhigh'⟩ := ih (by omega) hk
    rw [List.range_succ, List.foldl_append, List.foldl_cons, List.foldl_nil]
    generalize (List.range c).foldl (butterflyAt num size 0) (e ++ o) = a at *
    rw [if_neg (lt_irrefl c)] at hlow hhigh
    simp only [butterflyAt, hsize, Nat.zero_add]
    rw [Nat.add_comm c h, hlow, hhigh]
    by_cases hkc : k = c
    · subst hkc
      rw [elementOr0_set_ne (by omega), elementOr0_set_self (by omega),
        elementOr0_set_self (by rw [List.length_set]; omega), if_pos (by omega), if_pos (by omega)]
      exact ⟨rfl, rfl⟩
    · have hiff : k < c + 1 ↔ k < c := by omega
      rw [elementOr0_set_ne (by omega), elementOr0_set_ne (by omega), elementOr0_set_ne (by omega),
        elementOr0_set_ne (by omega)]
      simp only [hiff]
      exact ⟨hlow', hhigh'⟩

/-- The last size is one block, and its butterflies are those of R161. -/
theorem sizePass_last {n : Nat} {e o : List (Cx R)} (he : e.length = 2 ^ n) (ho : o.length = 2 ^ n) :
    sizePass num (n + 1) (e ++ o) n = butterflies num (2 ^ (n + 1)) e o := by
  have hsize : 2 ^ (n + 1) / 2 = 2 ^ n := by rw [pow_succ, Nat.mul_div_cancel _ two_pos]
  have hpass : sizePass num (n + 1) (e ++ o) n =
      (List.range (2 ^ n)).foldl (butterflyAt num (2 ^ (n + 1)) 0) (e ++ o) := by
    rw [← hsize]
    simpa [firstBlocks, blockPass] using sizePass_eq_firstBlocks num n 0 (e ++ o)
  have hlen : (sizePass num (n + 1) (e ++ o) n).length = 2 ^ n + 2 ^ n := by
    rw [sizePass_length, List.length_append, he, ho]
  refine ext_elementOr0 num (hlen.trans (butterflies_length he ho).symm) fun i hi => ?_
  rw [hlen] at hi
  rw [hpass]
  rcases Nat.lt_or_ge i (2 ^ n) with hlow | hhigh
  · obtain ⟨hpassed, -⟩ := elementOr0_foldl_butterflyAt (num := num) hsize he ho le_rfl hlow
    obtain ⟨hbutterfly, -⟩ := elementOr0_butterflies (num := num) (n := 2 ^ (n + 1)) he ho hlow
    rw [hpassed, hbutterfly, if_pos hlow]
  · obtain ⟨k, rfl⟩ := Nat.exists_eq_add_of_le hhigh
    have hk : k < 2 ^ n := by omega
    obtain ⟨-, hpassed⟩ := elementOr0_foldl_butterflyAt (num := num) hsize he ho le_rfl hk
    obtain ⟨-, hbutterfly⟩ := elementOr0_butterflies (num := num) (n := 2 ^ (n + 1)) he ho hk
    rw [hpassed, hbutterfly, if_pos hk]

end

/-- Settles O49, by induction on the logarithm of the length. -/
theorem iterativeTransformAgrees : Obligations.IterativeTransformAgrees := by
  intro R num n
  induction n with
  | zero =>
    intro x hx
    obtain ⟨z, rfl⟩ := List.length_eq_one_iff.mp hx
    rfl
  | succ n ih =>
    intro x hx
    rw [pow_succ'] at hx
    obtain ⟨heven, hodd⟩ := evens_odds_length x (2 ^ n) hx
    have hhalf := bitReversed_length num n (evens x)
    calc iterativeFft num (n + 1) x
        = sizePass num (n + 1) (iterativeFft num n (evens x) ++ iterativeFft num n (odds x)) n := by
          rw [iterativeFft, bitReversed_succ hx, List.range_succ, List.foldl_append,
            foldl_sizePass_append le_rfl hhalf]
          rfl
      _ = sizePass num (n + 1) (fft num n (evens x) ++ fft num n (odds x)) n := by rw [ih _ heven, ih _ hodd]
      _ = fft num (n + 1) x := sizePass_last (fft_length num n _ heven) (fft_length num n _ hodd)

end Sys2Proof.Machine
end

section
/-! Over the reals `fft` is the discrete Fourier transform and `ifft` its inverse (41_transform.md R167, R168). The
transform is a sum over the powers of a root of unity: the even and odd terms of the sum are transforms of half the
length, with the square of the root, and two transforms with inverse roots undo each other up to the length. -/

namespace Sys2Proof.Machine

open Finset

/-! ## The sum over the powers of a root of unity -/

/-- The discrete Fourier transform of `N` values with the root `ζ`. -/
def dftSum (ζ : ℂ) (N : ℕ) (f : ℕ → ℂ) (k : ℕ) : ℂ := ∑ j ∈ range N, f j * ζ ^ (k * j)

theorem dftSum_congr {N : ℕ} {f g : ℕ → ℂ} (h : ∀ j < N, f j = g j) (ζ : ℂ) (k : ℕ) :
    dftSum ζ N f k = dftSum ζ N g k :=
  sum_congr rfl fun j hj => by rw [h j (mem_range.mp hj)]

theorem dftSum_const_mul (ζ : ℂ) (N : ℕ) (c : ℂ) (f : ℕ → ℂ) (k : ℕ) :
    dftSum ζ N (fun j => c * f j) k = c * dftSum ζ N f k := by
  simp only [dftSum, mul_sum, mul_assoc]

/-- A sum of twice as many terms is that of the even ones and that of the odd ones. -/
theorem sum_range_two_mul (f : ℕ → ℂ) (N : ℕ) :
    ∑ j ∈ range (2 * N), f j = ∑ j ∈ range N, f (2 * j) + ∑ j ∈ range N, f (2 * j + 1) := by
  induction N with
  | zero => simp
  | succ N ih =>
    rw [Nat.mul_succ, sum_range_succ, sum_range_succ, ih, sum_range_succ, sum_range_succ]
    ring

/-- The split of R167 into even and odd terms. -/
theorem dftSum_two_mul (ζ : ℂ) (N : ℕ) (f : ℕ → ℂ) (k : ℕ) :
    dftSum ζ (2 * N) f k =
      dftSum (ζ ^ 2) N (fun j => f (2 * j)) k + ζ ^ k * dftSum (ζ ^ 2) N (fun j => f (2 * j + 1)) k := by
  rw [dftSum, sum_range_two_mul, dftSum, dftSum, mul_sum]
  refine congrArg₂ (· + ·) (sum_congr rfl fun j _ => ?_) (sum_congr rfl fun j _ => ?_) <;> ring

theorem dftSum_add_period {ζ : ℂ} {N : ℕ} (hζ : ζ ^ N = 1) (f : ℕ → ℂ) (k : ℕ) :
    dftSum ζ N f (N + k) = dftSum ζ N f k :=
  sum_congr rfl fun j _ => by rw [add_mul, pow_add, pow_mul, hζ, one_pow, one_mul]

/-- Two transforms with inverse primitive roots give every value back, N times. -/
theorem dftSum_dftSum {ζ ξ : ℂ} {N : ℕ} (hζ : IsPrimitiveRoot ζ N) (hinv : ζ * ξ = 1) (f : ℕ → ℂ) {j : ℕ}
    (hj : j < N) : dftSum ζ N (dftSum ξ N f) j = N * f j := by
  have hcancel : ∀ m, ζ ^ m * ξ ^ m = 1 := fun m => by rw [← mul_pow, hinv, one_pow]
  have hξ : ξ ^ N = 1 := by rw [← hcancel N, hζ.pow_eq_one, one_mul]
  have hroot : ∀ m, (ζ ^ j * ξ ^ m) ^ N = 1 := fun m => by
    rw [mul_pow, pow_right_comm, pow_right_comm ξ, hζ.pow_eq_one, hξ, one_pow, one_pow, mul_one]
  calc dftSum ζ N (dftSum ξ N f) j
      = ∑ m ∈ range N, f m * ∑ k ∈ range N, (ζ ^ j * ξ ^ m) ^ k := by
        simp only [dftSum, sum_mul, mul_sum]
        rw [sum_comm]
        exact sum_congr rfl fun m _ => sum_congr rfl fun k _ => by ring
    _ = f j * ∑ k ∈ range N, (ζ ^ j * ξ ^ j) ^ k := by
        refine sum_eq_single_of_mem j (mem_range.mpr hj) fun m hm hne => ?_
        have hroot_ne : ζ ^ j * ξ ^ m ≠ 1 := fun hone => by
          refine hne (hζ.pow_inj (mem_range.mp hm) hj ?_)
          rw [← mul_one (ζ ^ m), ← hone, mul_left_comm, hcancel, mul_one]
        rw [geom_sum_eq hroot_ne, hroot, sub_self, zero_div, mul_zero]
    _ = N * f j := by
        rw [hcancel]
        simp [mul_comm]

/-! ## The root of the transform -/

/-- exp(-2πi/N). -/
noncomputable def dftRoot (N : ℕ) : ℂ := Complex.exp (-(2 * Real.pi * Complex.I / N))

theorem dftRoot_pow (N m : ℕ) : dftRoot N ^ m = Complex.exp (-(2 * Real.pi * Complex.I * m / N)) := by
  rw [dftRoot, ← Complex.exp_nat_mul]
  congr 1
  ring

theorem isPrimitiveRoot_dftRoot {N : ℕ} (hN : N ≠ 0) : IsPrimitiveRoot (dftRoot N) N := by
  rw [dftRoot, Complex.exp_neg]
  exact (Complex.isPrimitiveRoot_exp N hN).inv

theorem dftRoot_two_mul_sq (N : ℕ) : dftRoot (2 * N) ^ 2 = dftRoot N := by
  rw [dftRoot_pow, dftRoot]
  congr 2
  push_cast
  rw [mul_comm _ (2 : ℂ), mul_div_mul_left _ _ two_ne_zero]

/-- Half a turn changes the sign. -/
theorem dftRoot_two_mul_pow {N : ℕ} (hN : N ≠ 0) : dftRoot (2 * N) ^ N = -1 := by
  have hN' : (N : ℂ) ≠ 0 := Nat.cast_ne_zero.mpr hN
  rw [dftRoot_pow, ← Complex.exp_neg_pi_mul_I]
  congr 1
  push_cast
  field_simp

theorem conj_dftRoot (N : ℕ) : starRingEnd ℂ (dftRoot N) = (dftRoot N)⁻¹ := by
  rw [dftRoot, ← Complex.exp_conj, ← Complex.exp_neg]
  simp [neg_div, map_ofNat]

/-! ## The operations of `Num_exact` as those of the complex numbers -/

section

variable (tie : RoundTie)

@[simp] theorem toComplex_cadd (a b : Cx ℝ) : toComplex (cadd (numExact tie) a b) = toComplex a + toComplex b := rfl

@[simp] theorem toComplex_csub (a b : Cx ℝ) : toComplex (csub (numExact tie) a b) = toComplex a - toComplex b := rfl

@[simp] theorem toComplex_cmul (a b : Cx ℝ) : toComplex (cmul (numExact tie) a b) = toComplex a * toComplex b := rfl

@[simp] theorem toComplex_conj (a : Cx ℝ) : toComplex (conj (numExact tie) a) = starRingEnd ℂ (toComplex a) := rfl

@[simp] theorem toComplex_cdivN (a : Cx ℝ) (n : ℕ) : toComplex (cdivN (numExact tie) a n) = toComplex a / n := by
  apply Complex.ext <;> simp [toComplex, cdivN, numExact]

@[simp] theorem toComplex_tw (n k : ℕ) : toComplex (tw (numExact tie) n k) = dftRoot n ^ k := by
  have hangle : (-(2 * Real.pi * Complex.I * k / n) : ℂ) = ((-(2 * Real.pi * k / n) : ℝ) : ℂ) * Complex.I := by
    push_cast
    ring
  rw [dftRoot_pow, hangle]
  apply Complex.ext
  · rw [Complex.exp_ofReal_mul_I_re]
    simp [toComplex, tw, twAngle, numExact]
  · rw [Complex.exp_ofReal_mul_I_im]
    simp [toComplex, tw, twAngle, numExact]

theorem toComplex_injective : Function.Injective toComplex := by
  rintro ⟨a, b⟩ ⟨c, d⟩ h
  obtain ⟨hre, him⟩ := Complex.ext_iff.mp h
  exact congrArg₂ Cx.mk hre him

theorem elementOr0_numExact (x : List (Cx ℝ)) (i : ℕ) : elementOr0 (numExact tie) x i = x.getD i ⟨0, 0⟩ := by
  simp [elementOr0, zeroOf, numExact]

/-! ## The transforms -/

/-- The complex number at an index of a list. -/
noncomputable def valueAt (x : List (Cx ℝ)) (i : ℕ) : ℂ := toComplex (elementOr0 (numExact tie) x i)

theorem ext_valueAt {x y : List (Cx ℝ)} (hl : x.length = y.length)
    (h : ∀ i < x.length, valueAt tie x i = valueAt tie y i) : x = y :=
  ext_elementOr0 (numExact tie) hl fun i hi => toComplex_injective (h i hi)

theorem map_toComplex_getElem? {x : List (Cx ℝ)} {i : ℕ} (h : i < x.length) :
    (x[i]?).map toComplex = some (valueAt tie x i) := by
  rw [getElem?_eq_elementOr0 (numExact tie) h, Option.map_some, valueAt]

theorem valueAt_map {x : List (Cx ℝ)} {i : ℕ} (h : i < x.length) (g : Cx ℝ → Cx ℝ) :
    valueAt tie (x.map g) i = toComplex (g (elementOr0 (numExact tie) x i)) := by
  simp [valueAt, elementOr0, List.getD_eq_getElem?_getD, h]

/-- Both halves of the butterflies over the reals: the upper index turns the twiddle by half a turn. -/
theorem valueAt_butterflies {h k : ℕ} {e o : List (Cx ℝ)} (he : e.length = h) (ho : o.length = h) (hk : k < h) :
    valueAt tie (butterflies (numExact tie) (2 * h) e o) k =
        valueAt tie e k + dftRoot (2 * h) ^ k * valueAt tie o k ∧
      valueAt tie (butterflies (numExact tie) (2 * h) e o) (h + k) =
        valueAt tie e k + dftRoot (2 * h) ^ (h + k) * valueAt tie o k := by
  obtain ⟨hlow, hhigh⟩ := elementOr0_butterflies (num := numExact tie) (n := 2 * h) he ho hk
  constructor
  · simp [valueAt, hlow, twiddledAt]
  · rw [pow_add, dftRoot_two_mul_pow (Nat.ne_of_gt (Nat.zero_lt_of_lt hk))]
    simp [valueAt, hhigh, twiddledAt, sub_eq_add_neg]

/-- R167: the recursion is the split of the sum into even and odd terms. -/
theorem valueAt_fft {n : ℕ} {x : List (Cx ℝ)} (hx : x.length = 2 ^ n) {k : ℕ} (hk : k < 2 ^ n) :
    valueAt tie (fft (numExact tie) n x) k = dftSum (dftRoot (2 ^ n)) (2 ^ n) (valueAt tie x) k := by
  induction n generalizing x k with
  | zero =>
    have hk0 : k = 0 := by omega
    simp [fft, dftSum, hk0]
  | succ n ih =>
    rw [pow_succ'] at hx hk
    obtain ⟨heven, hodd⟩ := evens_odds_length x (2 ^ n) hx
    have hevens : ∀ m < 2 ^ n, valueAt tie (fft (numExact tie) n (evens x)) m =
        dftSum (dftRoot (2 ^ n)) (2 ^ n) (fun j => valueAt tie x (2 * j)) m := fun m hm =>
      (ih heven hm).trans (dftSum_congr (fun j hj => congrArg toComplex (elementOr0_evens hx hj)) _ _)
    have hodds : ∀ m < 2 ^ n, valueAt tie (fft (numExact tie) n (odds x)) m =
        dftSum (dftRoot (2 ^ n)) (2 ^ n) (fun j => valueAt tie x (2 * j + 1)) m := fun m hm =>
      (ih hodd hm).trans (dftSum_congr (fun j hj => congrArg toComplex (elementOr0_odds hx hj)) _ _)
    have hturn := (isPrimitiveRoot_dftRoot (Nat.two_pow_pos n).ne').pow_eq_one
    have hhalves := fun {m : ℕ} (hm : m < 2 ^ n) =>
      valueAt_butterflies tie (fft_length (numExact tie) n _ heven) (fft_length (numExact tie) n _ hodd) hm
    rw [fft, pow_succ', dftSum_two_mul, dftRoot_two_mul_sq]
    rcases Nat.lt_or_ge k (2 ^ n) with hlow | hhigh
    · obtain ⟨hvalue, -⟩ := hhalves hlow
      rw [hvalue, hevens k hlow, hodds k hlow]
    · obtain ⟨m, rfl⟩ := Nat.exists_eq_add_of_le hhigh
      have hm : m < 2 ^ n := by omega
      obtain ⟨-, hvalue⟩ := hhalves hm
      rw [hvalue, hevens m hm, hodds m hm, dftSum_add_period hturn, dftSum_add_period hturn]

/-- R168: conjugating before and after turns the root into its inverse. -/
theorem valueAt_ifft {n : ℕ} {x : List (Cx ℝ)} (hx : x.length = 2 ^ n) {j : ℕ} (hj : j < 2 ^ n) :
    valueAt tie (ifft (numExact tie) n x) j =
      1 / (2 ^ n : ℕ) * dftSum (dftRoot (2 ^ n))⁻¹ (2 ^ n) (valueAt tie x) j := by
  have hconj : (x.map (conj (numExact tie))).length = 2 ^ n := by rw [List.length_map, hx]
  have hvalues : ∀ m < 2 ^ n, valueAt tie (x.map (conj (numExact tie))) m = starRingEnd ℂ (valueAt tie x m) :=
    fun m hm => valueAt_map tie (hm.trans_eq hx.symm) _
  have hsum : starRingEnd ℂ (valueAt tie (fft (numExact tie) n (x.map (conj (numExact tie)))) j) =
      dftSum (dftRoot (2 ^ n))⁻¹ (2 ^ n) (valueAt tie x) j := by
    rw [valueAt_fft tie hconj hj, dftSum_congr hvalues, dftSum, map_sum, ← conj_dftRoot]
    exact sum_congr rfl fun m _ => by rw [map_mul, map_pow, Complex.conj_conj]
  rw [ifft, valueAt_map tie (hj.trans_eq (fft_length _ n _ hconj).symm), toComplex_cdivN, toComplex_conj, ← hsum,
    one_div_mul_eq_div, valueAt]

/-- The inverse transform and the transform undo each other, value by value, whichever comes first. -/
theorem valueAt_ifft_fft {n : ℕ} {x : List (Cx ℝ)} (hx : x.length = 2 ^ n) {j : ℕ} (hj : j < 2 ^ n) :
    valueAt tie (ifft (numExact tie) n (fft (numExact tie) n x)) j = valueAt tie x j ∧
      valueAt tie (fft (numExact tie) n (ifft (numExact tie) n x)) j = valueAt tie x j := by
  have hpow : 2 ^ n ≠ 0 := (Nat.two_pow_pos n).ne'
  have hcast : ((2 ^ n : ℕ) : ℂ) ≠ 0 := Nat.cast_ne_zero.mpr hpow
  have hroot := isPrimitiveRoot_dftRoot hpow
  have hunit : dftRoot (2 ^ n) * (dftRoot (2 ^ n))⁻¹ = 1 := mul_inv_cancel₀ (hroot.ne_zero hpow)
  constructor
  · rw [valueAt_ifft tie (fft_length _ n x hx) hj, dftSum_congr fun m hm => valueAt_fft tie hx hm,
      dftSum_dftSum hroot.inv ((mul_comm _ _).trans hunit) _ hj, one_div, inv_mul_cancel_left₀ hcast]
  · rw [valueAt_fft tie (ifft_length _ n x hx) hj, dftSum_congr fun m hm => valueAt_ifft tie hx hm, dftSum_const_mul,
      dftSum_dftSum hroot hunit _ hj, one_div, inv_mul_cancel_left₀ hcast]

end

/-- Settles O50: the sum of R167 is that over the powers of exp(-2πi/N). -/
theorem fftIsTheDiscreteFourierTransform : Obligations.FftIsTheDiscreteFourierTransform := by
  intro tie n x hx k hk
  rw [map_toComplex_getElem? tie ((fft_length _ n x hx).symm ▸ hk), valueAt_fft tie hx hk, dftSum]
  refine congrArg some (sum_congr rfl fun j _ => ?_)
  rw [valueAt, elementOr0_numExact, dftRoot_pow, Nat.cast_mul, ← mul_assoc]

/-- Settles O51: the sum of R168 is that over the inverse powers, and each transform undoes the other. -/
theorem ifftInvertsFft : Obligations.IfftInvertsFft := by
  intro tie n x hx
  have hfft := fft_length (numExact tie) n x hx
  have hifft := ifft_length (numExact tie) n x hx
  refine ⟨fun j hj => ?_, ?_, ?_⟩
  · rw [map_toComplex_getElem? tie (hifft.symm ▸ hj), valueAt_ifft tie hx hj, dftSum]
    refine congrArg some (congrArg _ (sum_congr rfl fun k _ => ?_))
    rw [valueAt, elementOr0_numExact, inv_pow, dftRoot_pow, ← Complex.exp_neg, neg_neg, mul_comm j k, Nat.cast_mul,
      ← mul_assoc]
  · have hlen := ifft_length (numExact tie) n _ hfft
    exact ext_valueAt tie (hlen.trans hx.symm) fun j hj => (valueAt_ifft_fft tie hx (hj.trans_eq hlen)).1
  · have hlen := fft_length (numExact tie) n _ hifft
    exact ext_valueAt tie (hlen.trans hx.symm) fun j hj => (valueAt_ifft_fft tie hx (hj.trans_eq hlen)).2

end Sys2Proof.Machine
end

section
/-! The command WINGEN settled (42_window.md R181). -/

namespace Sys2Proof.Machine

/-- Scalar elements written from the start of a region are the elements read, one by one (20_memory.md R71). -/
theorem scalarAt_writeScalars (p : Params) (m : Memory) {g : Region} (hg : elementSize g = 8) (xs : List Word) {j : Nat}
    (hj : j < xs.length) : scalarAt p (writeScalars p m g 0 xs) g j = some xs[j] := by
  rw [scalarAt, writeScalars, elementAddr_zero, elementAddr, hg]
  exact readWord_writeWords m (regionBase p g) xs j hj

/-- Every element of a generated window is the one of R180. -/
theorem scalarAt_generateWindow (p : Params) (s : State) {j : Nat} (hj : j < windowSize s) :
    scalarAt p (generateWindow p s).mem .win j = some (hann (machineNum p) (windowSize s) j) := by
  rw [generateWindow_mem, scalarAt_writeScalars p s.mem rfl _ ((hannWindow_length _ _).symm ▸ hj)]
  simp [hannWindow]

/-- LOGW in 1..10 passes the check of WINGEN (60_exceptions.md R242). -/
theorem windowConfigError_of_logw {s : State} (hlow : 1 ≤ s.logw.toNat) (hhigh : s.logw.toNat ≤ 10) :
    windowConfigError Config.params s = false :=
  Bool.or_eq_false_iff.mpr ⟨decide_eq_false (Nat.not_lt.mpr hhigh), decide_eq_false (Nat.ne_of_gt hlow)⟩

/-- Settles O28: WINGEN passes its checks, its body generates the window, and its row of R70 is WIN[0..W). -/
theorem wingenFillsTheWindow : Obligations.WingenFillsTheWindow := by
  intro s hlow hhigh
  obtain ⟨hexec, hkept⟩ := exec_completes (i := .wingen) (windowConfigError_of_logw hlow hhigh) rfl
  exact ⟨_, hexec, fun _ hj => scalarAt_generateWindow Config.params s hj, hkept, rfl⟩

end Sys2Proof.Machine
end

section
/-! SUPPORT. Elements of a memory, one by one: what a read finds after a write of that memory, and after a write of
another (20_memory.md R61, R71). -/

namespace Sys2Proof.Machine

variable {p : Params} {m m' : Memory} {g : Region}

/-! ## Elements in a memory that an edit leaves alone -/

/-- A scalar element within the capacity is found among the scalars of its memory. -/
theorem scalarAt_congr (hg : regionIsComplex g = false) {j : Nat} (hj : j < regionElements p g)
    (h : scalarsOf p m' g = scalarsOf p m g) : scalarAt p m' g j = scalarAt p m g j := by
  have hroom : j < regionScalars p g := by simpa [regionScalars, hg] using hj
  have hword := congrFun h j
  rw [scalarsOf, scalarsOf, if_pos hroom, if_pos hroom] at hword
  simpa [scalarAt, elementAddr, elementSize, hg] using hword

/-- A complex element within the capacity is two neighbours among the scalars of its memory (R62). -/
theorem complexAt_congr (hg : regionIsComplex g = true) {j : Nat} (hj : j < regionElements p g)
    (h : scalarsOf p m' g = scalarsOf p m g) : complexAt p m' g j = complexAt p m g j := by
  have hword : ∀ i < 2 * regionElements p g,
      readWord m' (regionBase p g + 8 * i) = readWord m (regionBase p g + 8 * i) := fun i hi => by
    have hroom : i < regionScalars p g := by simpa [regionScalars, hg] using hi
    simpa [scalarsOf, hroom] using congrFun h i
  have hre : elementAddr p g j = regionBase p g + 8 * (2 * j) := by
    rw [elementAddr, elementSize, if_pos hg]; omega
  have him : imagAddr p g j = regionBase p g + 8 * (2 * j + 1) := by rw [imagAddr, hre]; omega
  rw [complexAt, complexAt, hre, him, hword (2 * j) (by omega), hword (2 * j + 1) (by omega)]

/-- Words written from the start of one memory leave every other memory alone. -/
theorem scalarsOf_store_of_ne (hp : p.regionsInOrder = true) {ws : List Word} (hl : ws.length ≤ regionScalars p g)
    {g' : Region} (hne : g' ≠ g) : scalarsOf p (writeWords m (elementAddr p g 0) ws) g' = scalarsOf p m g' := by
  rw [elementAddr_zero, scalarsOf_writeWords hp m g ws hl]
  simp [hne]

/-- Dropping the scratch leaves every memory but FRM alone (10_state.md R44). -/
theorem scalarsOf_dropFrame (hp : p.regionsInOrder = true) {s : State} (hw : windowSize s ≤ p.wMax)
    (hne : g ≠ .frm) : scalarsOf p (dropFrame p s).mem g = scalarsOf p s.mem g := by
  have h : (elementsOf p (dropFrame p s)).mem g = (dropRun .frm (2 * windowSize s) (elementsOf p s)).mem g := by
    rw [elementsOf_dropFrame hp hw]
  simpa [elementsOf, dropRun, hne] using h

/-- No byte of the scratch holds a value once it is dropped (10_state.md R44). -/
theorem readByte_dropFrame (p : Params) (s : State) {a : Nat} (hlow : regionBase p .frm ≤ a)
    (hhigh : a < regionBase p .frm + 16 * windowSize s) : readByte (dropFrame p s).mem a = none := by
  rw [dropFrame_mem, readByte_eraseBytes, elementAddr_zero, if_pos ⟨hlow, hhigh⟩]

/-! ## Elements of the memory written -/

/-- The scalars of a list of complex values, in pairs (R62). -/
theorem wordsOfComplex_getElem? (zs : List (Cx Word)) (j : Nat) :
    (wordsOfComplex zs)[2 * j]? = (zs[j]?).map Cx.re ∧ (wordsOfComplex zs)[2 * j + 1]? = (zs[j]?).map Cx.im := by
  induction zs generalizing j with
  | nil => simp [wordsOfComplex]
  | cons z zs ih =>
    cases j with
    | zero => simp [wordsOfComplex]
    | succ j => simpa [wordsOfComplex, Nat.mul_succ] using ih j

/-- Complex elements written from the start of a region are the elements read, one by one (R71). -/
theorem complexAt_writeComplex (p : Params) (m : Memory) (hg : regionIsComplex g = true) (zs : List (Cx Word)) {j : Nat}
    (hj : j < zs.length) : complexAt p (writeComplex p m g 0 zs) g j = some zs[j] := by
  have hlen := wordsOfComplex_length zs
  obtain ⟨hre, him⟩ := wordsOfComplex_getElem? zs j
  rw [List.getElem?_eq_getElem hj, Option.map_some, List.getElem?_eq_some_iff] at hre him
  obtain ⟨hreLt, hre⟩ := hre
  obtain ⟨himLt, him⟩ := him
  have hwords := readWord_writeWords m (regionBase p g) (wordsOfComplex zs)
  have haddr : elementAddr p g j = regionBase p g + 8 * (2 * j) := by
    rw [elementAddr, elementSize, if_pos hg]; omega
  rw [complexAt, writeComplex, elementAddr_zero, imagAddr, haddr, hwords _ hreLt,
    show regionBase p g + 8 * (2 * j) + 8 = regionBase p g + 8 * (2 * j + 1) by omega, hwords _ himLt, hre, him]

/-- The bins of F frames are the first F*W elements of a spectrum memory (R71). -/
theorem spectrumIndex_lt {f w i k : Nat} (hi : i < f) (hk : k < w) : spectrumIndex w i k < f * w :=
  calc i * w + k < (i + 1) * w := by rw [Nat.succ_mul]; omega
    _ ≤ f * w := Nat.mul_le_mul_right w hi

/-- Bin k of frame i is element `i*W + k` of the frames laid end to end (R71). -/
theorem flatten_getElem?_of_shape {α : Type} {w : Nat} {fs : List (List α)} (h : ∀ f ∈ fs, f.length = w) (i : Nat)
    {k : Nat} (hk : k < w) : fs.flatten[i * w + k]? = (fs[i]?).bind fun f => f[k]? := by
  induction fs generalizing i with
  | nil => simp
  | cons f fs ih =>
    obtain ⟨hf, hfs⟩ := List.forall_mem_cons.mp h
    rw [List.flatten_cons]
    cases i with
    | zero => rw [Nat.zero_mul, Nat.zero_add, List.getElem?_append_left (hf.symm ▸ hk)]; rfl
    | succ i =>
      have hskip : (i + 1) * w + k - f.length = i * w + k := by rw [hf, Nat.succ_mul]; omega
      have hlow : f.length ≤ (i + 1) * w + k := by rw [hf, Nat.succ_mul]; omega
      rw [List.getElem?_append_right hlow, hskip, ih hfs i]
      rfl

end Sys2Proof.Machine
end

section
/-! The statements of 43_analyzer.md settled: the frame count (R190) and the command ANALYZE (R191, R192). -/

namespace Sys2Proof.Machine

/-! ## The frame count (O34) -/

theorem nframesOf_of_le {l w : Nat} (hl : w ≤ l) (h : Nat) : nframesOf l w h = (l - w) / h + 1 := if_pos hl

theorem nframesOf_of_lt {l w : Nat} (hl : l < w) (h : Nat) : nframesOf l w h = 0 := if_neg (Nat.not_le.mpr hl)

/-- The frames counted are those whose window ends within the signal (R190). -/
theorem lt_nframesOf_iff {h : Nat} (hh : 1 ≤ h) (l w i : Nat) : i < nframesOf l w h ↔ i * h + w ≤ l := by
  rcases Nat.lt_or_ge l w with hl | hl
  · rw [nframesOf_of_lt hl]
    omega
  · rw [nframesOf_of_le hl, Nat.lt_succ_iff, Nat.le_div_iff_mul_le hh]
    omega

/-- A frame ends within the span of the frames (R70). -/
theorem frame_end_le_signalSpan {i f : Nat} (hi : i < f) (w h : Nat) : i * h + w ≤ signalSpan f w h := by
  rw [signalSpan, if_neg (Nat.ne_zero_of_lt hi)]
  exact Nat.add_le_add_right (Nat.mul_le_mul_right h (Nat.le_sub_one_of_lt hi)) w

/-- The last frame is one of those counted, so all of them end within the signal. -/
theorem signalSpan_nframesOf_le {h : Nat} (hh : 1 ≤ h) (l w : Nat) : signalSpan (nframesOf l w h) w h ≤ l := by
  unfold signalSpan
  split
  · exact Nat.zero_le l
  · next hpos => exact (lt_nframesOf_iff hh l w _).mp (Nat.sub_one_lt hpos)

/-- Frame number L would begin at the end of the signal or after it. -/
theorem nframesOf_le_length {h w : Nat} (hh : 1 ≤ h) (hw : 1 ≤ w) (l : Nat) : nframesOf l w h ≤ l := by
  refine Nat.not_lt.mp fun hlt => ?_
  have hend := (lt_nframesOf_iff hh l w l).mp hlt
  have hstart : l ≤ l * h := Nat.le_mul_of_pos_right l hh
  omega

/-- Settles O34: the two clauses of the formula, and the count they make. -/
theorem frameCountCountsWindows : Obligations.FrameCountCountsWindows := by
  intro l w h hw hh
  refine ⟨fun hl => nframesOf_of_le hl h, fun hl => nframesOf_of_lt hl h, ?_, lt_nframesOf_iff hh l w,
    nframesOf_le_length hh (by omega) l, signalSpan_nframesOf_le hh l w⟩
  rw [nframesOf_of_le le_rfl, Nat.sub_self, Nat.zero_div]

/-! ## ANALYZE (O29) -/

section Analyze

variable {p : Params} {s : State} {sig : List Word}

theorem analyzeBody_of_held (hsig : readSignal p s = some sig) :
    analyzeBody p s = dropFrame p (storeAnalysis p sig (ensureWindow p s)) := by
  rw [analyzeBody, hsig]

/-- The registers after the body of ANALYZE: NFRAMES written, WINOK set, nothing else but the memory changed. -/
theorem analyzeBody_registers (hsig : readSignal p s = some sig) :
    analyzeBody p s = { s with
      mem := (analyzeBody p s).mem
      nframes := (analyzeBody p s).nframes
      status := setWinok true s.status } := by
  obtain ⟨hstatus, hwindow⟩ := ensureWindow_spec p s
  rw [analyzeBody_of_held hsig, ← hstatus]
  generalize ensureWindow p s = u at hwindow ⊢
  rw [hwindow]
  rfl

/-- What the body stores in SPA is the Spectrum Sequence of the signal (R192). -/
theorem storeAnalysis_ensureWindow_mem (p : Params) (sig : List Word) (s : State) :
    (storeAnalysis p sig (ensureWindow p s)).mem = writeComplex p (ensureWindow p s).mem .spa 0
      (analyzeSignal (machineNum p) (logwOf s) (hopSize s) (analysisFrames s) sig).flatten := by
  obtain ⟨hw, hh, -, hf⟩ := ensureWindow_sizes p s
  obtain ⟨hl, -⟩ := ensureWindow_registers p s
  rw [storeAnalysis, hh, hf, logwOf, hl, ← logwOf]

theorem analyzeSignal_getElem? {R : Type} (num : Num R) (logw h : Nat) {f i : Nat} (hi : i < f) (sig : List R) :
    (analyzeSignal num logw h f sig)[i]? = some (analyzeFrame num logw h sig i) := by
  simp [analyzeSignal, hi]

/-- Every frame of the Spectrum Sequence has W bins. -/
theorem analyzeSignal_frame_length {R : Type} (num : Num R) {logw h f : Nat} {sig : List R}
    (hs : sig.length = signalSpan f (2 ^ logw) h) : ∀ fr ∈ analyzeSignal num logw h f sig, fr.length = 2 ^ logw := by
  intro fr hfr
  obtain ⟨i, hi, rfl⟩ := List.mem_map.mp hfr
  exact analyzeFrame_length num logw h sig i (hs ▸ frame_end_le_signalSpan (List.mem_range.mp hi) _ _)

section Checked

variable (hp : p.regionsInOrder = true) (hw : windowSize s ≤ p.wMax) (hf : analysisFrames s ≤ p.frameCap)
  (hsig : readSignal p s = some sig)
include hp hw hsig

/-- The body's last edit leaves every memory but FRM as the store left it. -/
theorem scalarsOf_analyzeBody {g : Region} (hne : g ≠ .frm) :
    scalarsOf p (analyzeBody p s).mem g = scalarsOf p (storeAnalysis p sig (ensureWindow p s)).mem g := by
  obtain ⟨hw', -⟩ := ensureWindow_sizes p s
  rw [analyzeBody_of_held hsig]
  exact scalarsOf_dropFrame hp (hw'.trans_le hw) hne

include hf

/-- Bin k of frame i is stored as element `i*W + k` of SPA (R192, 20_memory.md R71). -/
theorem complexAt_analyzeBody {i k : Nat} (hi : i < analysisFrames s) (hk : k < windowSize s) :
    complexAt p (analyzeBody p s).mem .spa (i * windowSize s + k) =
      (analyzeFrame (machineNum p) (logwOf s) (hopSize s) sig i)[k]? := by
  have hstored := analyzeSignal_flatten_length (machineNum p) (logwOf s) (hopSize s) (analysisFrames s) sig
    (readWords_length hsig)
  have hframes := analyzeSignal_frame_length (machineNum p) (readWords_length hsig)
  have hbin := flatten_getElem?_of_shape hframes i hk
  rw [analyzeSignal_getElem? _ _ _ hi, Option.bind_some] at hbin
  have hindex : i * windowSize s + k < analysisFrames s * windowSize s := spectrumIndex_lt hi hk
  have hroom : i * windowSize s + k < regionElements p .spa := hindex.trans_le (Nat.mul_le_mul hf hw)
  rw [complexAt_congr rfl hroom (scalarsOf_analyzeBody hp hw hsig (by decide)), storeAnalysis_ensureWindow_mem,
    complexAt_writeComplex p _ rfl _ (hindex.trans_eq hstored.symm), ← hbin]
  exact (List.getElem?_eq_getElem _).symm

/-- The window that the body begins by generating is in WIN when it ends (42_window.md R182). -/
theorem scalarAt_analyzeBody (hok : s.status.winok = false) {j : Nat} (hj : j < windowSize s) :
    scalarAt p (analyzeBody p s).mem .win j = some (hann (machineNum p) (windowSize s) j) := by
  have hgenerated : ensureWindow p s = generateWindow p s := by simp [ensureWindow, hok]
  have hlen := analyzeSignal_flatten_length (machineNum p) (logwOf s) (hopSize s) (analysisFrames s) sig
    (readWords_length hsig)
  have hroom : (wordsOfComplex (analyzeSignal (machineNum p) (logwOf s) (hopSize s) (analysisFrames s)
      sig).flatten).length ≤ regionScalars p .spa := by
    rw [wordsOfComplex_length, hlen]
    exact Nat.mul_le_mul_left 2 (Nat.mul_le_mul hf hw)
  have hkept : scalarsOf p (analyzeBody p s).mem .win = scalarsOf p (generateWindow p s).mem .win := by
    rw [scalarsOf_analyzeBody hp hw hsig (by decide), storeAnalysis_ensureWindow_mem, hgenerated]
    exact scalarsOf_store_of_ne hp hroom (by decide)
  have hin : j < regionElements p .win := hj.trans_le hw
  rw [scalarAt_congr rfl hin hkept, scalarAt_generateWindow p s hj]

end Checked

/-- The scratch is dropped when the body of ANALYZE ends (10_state.md R44). -/
theorem readByte_analyzeBody_frame (hsig : readSignal p s = some sig) {a : Nat} (hlow : regionBase p .frm ≤ a)
    (hhigh : a < regionBase p .frm + 16 * windowSize s) : readByte (analyzeBody p s).mem a = none := by
  obtain ⟨hw, -⟩ := ensureWindow_sizes p s
  rw [analyzeBody_of_held hsig]
  exact readByte_dropFrame p _ hlow (hw.symm ▸ hhigh)

end Analyze

/-- Settles O29: ANALYZE passes its checks, so its body runs; what it stores, generates and drops is said above, and
that it writes nothing else is its row of R70. -/
theorem analyzeStoresTheSpectra : Obligations.AnalyzeStoresTheSpectra := by
  intro s sig hc hk hsig
  obtain ⟨hexec, hkept⟩ := exec_completes hc hk
  obtain ⟨size, frames, -⟩ := within_capacities hc hk
  have hw := size (by decide)
  have hf := frames (.inl rfl)
  have hin := config_regionsInOrder
  have hcount : analysisFrames s < 2 ^ 32 := hf.trans_lt (legal_frameCap_lt config_params_legal)
  exact ⟨_, hexec, frameCount_analyzeBody hsig hcount,
    fun _ hi _ hb => complexAt_analyzeBody hin hw hf hsig hi hb,
    fun hok _ hj => scalarAt_analyzeBody hin hw hf hsig hok hj,
    fun _ hlow hhigh => readByte_analyzeBody_frame hsig hlow hhigh, hkept,
    congrArg complete (analyzeBody_registers hsig)⟩

end Sys2Proof.Machine
end

section
/-! The statements of 44_vocoder.md about one bin settled: bins do not interact (R202); over the reals, the unwrap
(R204), the accumulator (R207) and what a bin emits (R201, R209). -/

namespace Sys2Proof.Machine

/-! ## Bins do not interact (O52) -/

/-- Counted from bin `j`, the entry at `k` of a frame is the step of bin `j + k` on its own bin and value. -/
theorem frame_getElem? {R : Type} (num : Num R) (w h : Nat) (r : R) (j : Nat) (bs : List (BinPhase R))
    (zs : List (Cx R)) (k : Nat) :
    (frameEmits num w h r j bs zs)[k]? =
        (bs[k]?).bind (fun b => (zs[k]?).map fun z => binEmits num w h r (j + k) b z) ∧
      (frameAfter num w h r j bs zs)[k]? =
        (bs[k]?).bind (fun b => (zs[k]?).map fun z => binAfter num w h r (j + k) b z) := by
  induction bs generalizing j zs k with
  | nil => simp [frameEmits, frameAfter]
  | cons b bs ih =>
    cases zs with
    | nil => cases k <;> simp [frameEmits, frameAfter]
    | cons z zs =>
      cases k with
      | zero => simp [frameEmits, frameAfter]
      | succ k => simpa [frameEmits, frameAfter, Nat.add_right_comm, Nat.add_assoc] using ih (j + 1) zs k

/-- Settles O52, the bins counted from 0. -/
theorem binsDoNotInteract : Obligations.BinsDoNotInteract := by
  intro R num w h r bs zs k
  simpa using frame_getElem? num w h r 0 bs zs k

/-! ## Rounding over the reals (40_numerics.md R131) -/

/-- The integer answered is a neighbour of the magnitude, the one below or the one above, and within one half of it. -/
theorem nearestInteger_cases (tie : RoundTie) (y : ℝ) :
    (nearestInteger tie y = ⌊y⌋ ∧ y - ⌊y⌋ ≤ 1 / 2) ∨ (nearestInteger tie y = ⌊y⌋ + 1 ∧ 1 / 2 ≤ y - ⌊y⌋) := by
  unfold nearestInteger
  split
  · next hlow => exact .inl ⟨rfl, hlow.le⟩
  · next hlow =>
    split
    · next hhigh => exact .inr ⟨rfl, hhigh.le⟩
    · next hhigh =>
      cases tie with
      | away => exact .inr ⟨rfl, not_lt.mp hlow⟩
      | even =>
        by_cases heven : ⌊y⌋ % 2 = 0
        · exact .inl ⟨if_pos heven, not_lt.mp hhigh⟩
        · exact .inr ⟨if_neg heven, not_lt.mp hlow⟩

theorem abs_sub_nearestInteger_le (tie : RoundTie) (y : ℝ) : |y - nearestInteger tie y| ≤ 1 / 2 := by
  have hfloor := Int.floor_le y
  have hnext := Int.lt_floor_add_one y
  rcases nearestInteger_cases tie y with ⟨hm, hd⟩ | ⟨hm, hd⟩ <;> rw [hm, abs_le]
  · constructor <;> linarith
  · push_cast
    constructor <;> linarith

/-- Rounding answers an integer at most one half away. -/
theorem exactRound_spec (tie : RoundTie) (x : ℝ) : ∃ m : ℤ, exactRound tie x = m ∧ |x - m| ≤ 1 / 2 := by
  have hnear := abs_sub_nearestInteger_le tie |x|
  rw [exactRound_eq]
  split
  · next hneg =>
    rw [abs_of_neg hneg] at hnear ⊢
    refine ⟨-nearestInteger tie (-x), by push_cast; rfl, ?_⟩
    rwa [Int.cast_neg, sub_neg_eq_add, ← abs_neg, neg_add']
  · next hpos =>
    rw [abs_of_nonneg (not_lt.mp hpos)] at hnear ⊢
    exact ⟨_, rfl, hnear⟩

/-- Less than one half away from zero there is no other integer to round to. -/
theorem exactRound_eq_zero (tie : RoundTie) {x : ℝ} (hx : |x| < 1 / 2) : exactRound tie x = 0 := by
  obtain ⟨m, hm, hnear⟩ := exactRound_spec tie x
  have hsmall : |(m : ℝ)| < 1 := by
    rw [abs_lt] at hx ⊢
    rw [abs_le] at hnear
    constructor <;> linarith
  have hzero : m = 0 := Int.abs_lt_one_iff.mp (by exact_mod_cast hsmall)
  rw [hm, hzero, Int.cast_zero]

/-- The integer that the tie rule takes half way between `n` and `n + 1` (R131). -/
def tieChoice (tie : RoundTie) (n : ℕ) : ℕ :=
  match tie with
  | .away => n + 1
  | .even => if n % 2 = 0 then n else n + 1

theorem nearestInteger_tie (tie : RoundTie) (n : ℕ) : nearestInteger tie (n + 1 / 2) = tieChoice tie n := by
  have hfloor : ⌊(n : ℝ) + 1 / 2⌋ = n := by
    rw [Int.floor_eq_iff, Int.cast_natCast]
    constructor <;> linarith
  unfold nearestInteger tieChoice
  rw [hfloor, Int.cast_natCast, add_sub_cancel_left, if_neg (lt_irrefl _), if_neg (lt_irrefl _)]
  cases tie with
  | away => rfl
  | even =>
    by_cases heven : n % 2 = 0
    · rw [if_pos heven]
      exact if_pos (by omega)
    · rw [if_neg heven]
      exact if_neg (by omega)

/-- A tie on either side of zero goes by the tie rule, with the sign of the operand. -/
theorem exactRound_tie (tie : RoundTie) (n : ℕ) :
    exactRound tie (n + 1 / 2) = tieChoice tie n ∧ exactRound tie (-(n + 1 / 2)) = -tieChoice tie n := by
  have hpos : (0 : ℝ) < n + 1 / 2 := by positivity
  constructor
  · rw [exactRound_eq, if_neg hpos.not_gt, abs_of_pos hpos, nearestInteger_tie, Int.cast_natCast]
  · rw [exactRound_eq, if_pos (neg_lt_zero.mpr hpos), abs_neg, abs_of_pos hpos, nearestInteger_tie, Int.cast_natCast]

/-! ## The unwrap (O53) -/

/-- The unwrap takes out the turns that rounding counts (R204). -/
theorem unwrap_numExact (tie : RoundTie) (x : ℝ) :
    unwrap (numExact tie) x = x - 2 * Real.pi * exactRound tie (x / (2 * Real.pi)) := rfl

theorem unwrap_turns (tie : RoundTie) (y : ℝ) :
    unwrap (numExact tie) (2 * Real.pi * y) = 2 * Real.pi * (y - exactRound tie y) := by
  rw [unwrap_numExact, mul_div_cancel_left₀ y Real.two_pi_pos.ne', mul_sub]

/-- At an odd multiple of π the unwrap answers π or -π, as the tie rule has it. -/
theorem unwrap_tie (tie : RoundTie) (n : ℕ) :
    unwrap (numExact tie) ((2 * n + 1) * Real.pi) = (2 * n + 1 - 2 * tieChoice tie n) * Real.pi ∧
      unwrap (numExact tie) (-((2 * n + 1) * Real.pi)) = -((2 * n + 1 - 2 * tieChoice tie n) * Real.pi) := by
  have hturns : (2 * n + 1) * Real.pi = 2 * Real.pi * (n + 1 / 2) := by ring
  obtain ⟨hup, hdown⟩ := exactRound_tie tie n
  rw [hturns, ← mul_neg, unwrap_turns, unwrap_turns, hup, hdown]
  constructor <;> ring

/-- The range of the unwrap, and what it takes out (R204). -/
theorem unwrap_range (tie : RoundTie) (x : ℝ) :
    -Real.pi ≤ unwrap (numExact tie) x ∧ unwrap (numExact tie) x ≤ Real.pi ∧
      ∃ m : ℤ, unwrap (numExact tie) x = x - 2 * Real.pi * m := by
  have hpi := Real.pi_pos
  obtain ⟨y, rfl⟩ : ∃ y, x = 2 * Real.pi * y := ⟨x / (2 * Real.pi), (mul_div_cancel₀ x Real.two_pi_pos.ne').symm⟩
  obtain ⟨m, hm, hnear⟩ := exactRound_spec tie y
  obtain ⟨hlow, hhigh⟩ := abs_le.mp hnear
  rw [unwrap_turns, hm]
  exact ⟨by nlinarith only [hpi, hlow], by nlinarith only [hpi, hhigh], m, mul_sub _ _ _⟩

/-- Less than half a turn is left as it is. -/
theorem unwrap_of_lt_pi (tie : RoundTie) {x : ℝ} (hlow : -Real.pi < x) (hhigh : x < Real.pi) :
    unwrap (numExact tie) x = x := by
  have hhalf : |x / (2 * Real.pi)| < 1 / 2 := by
    rw [abs_div, abs_of_pos Real.two_pi_pos, div_lt_iff₀ Real.two_pi_pos, one_div, inv_mul_cancel_left₀ two_ne_zero]
    exact abs_lt.mpr ⟨hlow, hhigh⟩
  rw [unwrap_numExact, exactRound_eq_zero tie hhalf, mul_zero, sub_zero]

/-- Settles O53: the eight ties are those half a turn and one and a half turns from zero. -/
theorem unwrapRangeAndTies : Obligations.UnwrapRangeAndTies := by
  have hhalf : ∀ tie, unwrap (numExact tie) Real.pi = (1 - 2 * tieChoice tie 0) * Real.pi ∧
      unwrap (numExact tie) (-Real.pi) = -((1 - 2 * tieChoice tie 0) * Real.pi) := fun tie => by
    simpa using unwrap_tie tie 0
  have hthree : ∀ tie, unwrap (numExact tie) (3 * Real.pi) = (3 - 2 * tieChoice tie 1) * Real.pi ∧
      unwrap (numExact tie) (-(3 * Real.pi)) = -((3 - 2 * tieChoice tie 1) * Real.pi) := fun tie => by
    have hodd : (2 * (1 : ℕ) + 1 : ℝ) = 3 := by norm_num
    simpa only [hodd] using unwrap_tie tie 1
  refine ⟨fun tie x => ?_, ?_⟩
  · obtain ⟨hlow, hhigh, hturns⟩ := unwrap_range tie x
    exact ⟨hlow, hhigh, hturns, unwrap_of_lt_pi tie⟩
  · obtain ⟨haway, haway'⟩ := hhalf .away
    obtain ⟨haway3, haway3'⟩ := hthree .away
    obtain ⟨heven, heven'⟩ := hhalf .even
    obtain ⟨heven3, heven3'⟩ := hthree .even
    rw [haway, haway', haway3, haway3', heven, heven', heven3, heven3']
    norm_num [tieChoice]

/-! ## The accumulator (O54) -/

/-- One value over the reals: the accumulator gains r times the bin-centre advance and the phase difference, less the
turns unwrapped (R201 steps 2 to 5). -/
theorem binAfter_acc (tie : RoundTie) (w : ℕ) {h : ℕ} (hh : 1 ≤ h) (r : ℝ) (k : ℕ) (b : BinPhase ℝ) (z : Cx ℝ) :
    (binAfter (numExact tie) w h r k b z).acc =
      b.acc + r * (2 * Real.pi * k * h / w + (carg (numExact tie) z - b.last) -
        2 * Real.pi * exactRound tie ((carg (numExact tie) z - b.last) / (2 * Real.pi))) := by
  have hhop : (h : ℝ) ≠ 0 := Nat.cast_ne_zero.mpr (Nat.ne_of_gt hh)
  have hstep : (binAfter (numExact tie) w h r k b z).acc =
      b.acc + (2 * Real.pi * k / w + unwrap (numExact tie) (carg (numExact tie) z - b.last) / h) * h * r := by
    simp [binAfter, trueFreq, numExact]
  rw [hstep, unwrap_numExact, add_mul, div_mul_cancel₀ _ hhop]
  ring

/-- The turns that the unwrapping took out of the phases of a bin that follow the phase `last`. -/
noncomputable def turnsUnwrapped (tie : RoundTie) (last : ℝ) (phases : List ℝ) : ℝ :=
  (List.zipWith (fun before after => exactRound tie ((after - before) / (2 * Real.pi))) (last :: phases) phases).sum

theorem turnsUnwrapped_cons (tie : RoundTie) (last phase : ℝ) (phases : List ℝ) :
    turnsUnwrapped tie last (phase :: phases) =
      exactRound tie ((phase - last) / (2 * Real.pi)) + turnsUnwrapped tie phase phases := by
  simp [turnsUnwrapped]

/-- R207 from any bin on: the phase differences add up to that of the last value and the first. -/
theorem foldl_binAfter_acc (tie : RoundTie) (w : ℕ) {h : ℕ} (hh : 1 ≤ h) (r : ℝ) (k : ℕ) (zs : List (Cx ℝ))
    (b : BinPhase ℝ) :
    (zs.foldl (binAfter (numExact tie) w h r k) b).acc =
      b.acc + r * (zs.length * (2 * Real.pi * k * h / w) +
        ((zs.foldl (binAfter (numExact tie) w h r k) b).last - b.last) -
        2 * Real.pi * turnsUnwrapped tie b.last (zs.map (carg (numExact tie)))) := by
  induction zs generalizing b with
  | nil => simp [turnsUnwrapped]
  | cons z zs ih =>
    have hlast : (binAfter (numExact tie) w h r k b z).last = carg (numExact tie) z := rfl
    rw [List.foldl_cons, ih, binAfter_acc tie w hh, hlast, List.map_cons, turnsUnwrapped_cons, List.length_cons,
      Nat.cast_succ]
    ring

/-- Settles O54: both files of the bin are cleared when the pass begins. -/
theorem accumulatorClosedForm : Obligations.AccumulatorClosedForm := by
  intro tie w h k r zs _ hh
  have hlast : (clearedBin (numExact tie)).last = 0 := Int.cast_zero
  have hacc : (clearedBin (numExact tie)).acc = 0 := Int.cast_zero
  have hform := foldl_binAfter_acc tie w hh r k zs (clearedBin (numExact tie))
  rw [hlast, hacc, zero_add, sub_zero] at hform
  exact hform

/-! ## The magnitude (O55) -/

/-- The magnitude of R144 over the reals is the norm. -/
theorem cabs_numExact (tie : RoundTie) (z : Cx ℝ) : cabs (numExact tie) z = ‖toComplex z‖ := by
  rw [Complex.norm_def, Complex.normSq_apply]
  rfl

/-- The polar form of R146 over the reals. -/
theorem toComplex_cpolar (tie : RoundTie) (m θ : ℝ) :
    toComplex (cpolar (numExact tie) m θ) = m * Complex.exp (θ * Complex.I) := by
  apply Complex.ext
  · rw [Complex.re_ofReal_mul, Complex.exp_ofReal_mul_I_re]
    rfl
  · rw [Complex.im_ofReal_mul, Complex.exp_ofReal_mul_I_im]
    rfl

/-- Settles O55: a turn keeps the norm. -/
theorem magnitudeIsCarriedThrough : Obligations.MagnitudeIsCarriedThrough := by
  intro tie w h k r b z
  have hemits : toComplex (binEmits (numExact tie) w h r k b z) =
      ‖toComplex z‖ * Complex.exp ((binAfter (numExact tie) w h r k b z).acc * Complex.I) := by
    rw [binEmits, toComplex_cpolar, cabs_numExact]
  exact ⟨hemits, by rw [hemits, norm_mul, Complex.norm_exp_ofReal_mul_I, mul_one, Complex.norm_real, norm_norm]⟩

end Sys2Proof.Machine
end

section
/-! The command VOCODE settled (44_vocoder.md R203). -/

namespace Sys2Proof.Machine

section Vocode

variable {p : Params} {s : State} {spa : List (Cx Word)}

theorem vocodeBody_of_held (hspa : readSpectrum p s .spa = some spa) : vocodeBody p s = storeVocoded p spa s := by
  rw [vocodeBody, hspa]

/-- Scalar elements written to one memory leave every other memory alone. -/
theorem scalarsOf_writeScalars_of_ne (hp : p.regionsInOrder = true) {m : Memory} {g : Region} {xs : List Word}
    (hl : xs.length ≤ regionScalars p g) {g' : Region} (hne : g' ≠ g) :
    scalarsOf p (writeScalars p m g 0 xs) g' = scalarsOf p m g' := scalarsOf_store_of_ne hp hl hne

/-- The new Spectrum Sequence of a pass over the frames in SPA (R203). -/
def vocodedFrames (p : Params) (spa : List (Cx Word)) (s : State) : List (List (Cx Word)) :=
  vocodeSpectrum (machineNum p) (windowSize s) (hopSize s) (stretchFactor s)
    (framesOf (windowSize s) (frameCount s) spa)

/-- The bins at the end of that pass (R203). -/
def finalBins (p : Params) (spa : List (Cx Word)) (s : State) : List (BinPhase Word) :=
  vocodeBins (machineNum p) (windowSize s) (hopSize s) (stretchFactor s)
    (framesOf (windowSize s) (frameCount s) spa)

/-- What the body stores: the new sequence in SPB, then the two files of the bins. -/
theorem storeVocoded_mem_eq (p : Params) (spa : List (Cx Word)) (s : State) :
    (storeVocoded p spa s).mem =
      writeScalars p
        (writeScalars p (writeComplex p s.mem .spb 0 (vocodedFrames p spa s).flatten) .lastph 0
          ((finalBins p spa s).map BinPhase.last))
        .newph 0 ((finalBins p spa s).map BinPhase.acc) := rfl

section Held

variable (hspa : readSpectrum p s .spa = some spa)
include hspa

/-- A pass emits as many frames as it reads, W bins each. -/
theorem vocodedFrames_shape :
    (∀ f ∈ vocodedFrames p spa s, f.length = windowSize s) ∧
      (vocodedFrames p spa s).flatten.length = frameCount s * windowSize s := by
  have hlen : spa.length = frameCount s * windowSize s := readComplex_length hspa
  have hbins : (clearedBins (machineNum p) (windowSize s)).length = windowSize s := List.length_replicate
  obtain ⟨-, hframes⟩ := passEmits_shape (machineNum p) (windowSize s) (hopSize s) (stretchFactor s) _ _ _ hbins
    (framesOf_frame_length _ _ _ hlen)
  obtain ⟨hflat, -⟩ := vocode_shapes (machineNum p) (windowSize s) (hopSize s) (stretchFactor s) _ _ hlen
  exact ⟨hframes, hflat⟩

/-- Each file of a pass is W long. -/
theorem finalBins_map_length (f : BinPhase Word → Word) : ((finalBins p spa s).map f).length = windowSize s := by
  obtain ⟨-, hbins⟩ := vocode_shapes (machineNum p) (windowSize s) (hopSize s) (stretchFactor s) _ _
    (readComplex_length hspa)
  exact (List.length_map f).trans hbins

variable (hp : p.regionsInOrder = true) (hw : windowSize s ≤ p.wMax)
include hp hw

/-- Bin k of frame i of the new sequence is element `i*W + k` of SPB; writing the two files leaves it alone. -/
theorem complexAt_storeVocoded (hf : frameCount s ≤ p.frameCap) {i k : Nat} (hi : i < frameCount s)
    (hk : k < windowSize s) :
    complexAt p (storeVocoded p spa s).mem .spb (i * windowSize s + k) =
      ((vocodedFrames p spa s)[i]?).bind fun f => f[k]? := by
  obtain ⟨hframes, hflat⟩ := vocodedFrames_shape hspa
  have hlast : ((finalBins p spa s).map BinPhase.last).length ≤ regionScalars p .lastph :=
    (finalBins_map_length hspa _).trans_le hw
  have hacc : ((finalBins p spa s).map BinPhase.acc).length ≤ regionScalars p .newph :=
    (finalBins_map_length hspa _).trans_le hw
  have hkept : scalarsOf p (storeVocoded p spa s).mem .spb =
      scalarsOf p (writeComplex p s.mem .spb 0 (vocodedFrames p spa s).flatten) .spb := by
    rw [storeVocoded_mem_eq, scalarsOf_writeScalars_of_ne hp hacc (by decide),
      scalarsOf_writeScalars_of_ne hp hlast (by decide)]
  have hindex : i * windowSize s + k < frameCount s * windowSize s := spectrumIndex_lt hi hk
  have hroom : i * windowSize s + k < regionElements p .spb := hindex.trans_le (Nat.mul_le_mul hf hw)
  rw [complexAt_congr rfl hroom hkept,
    complexAt_writeComplex p _ rfl _ (hindex.trans_eq hflat.symm), ← flatten_getElem?_of_shape hframes i hk]
  exact (List.getElem?_eq_getElem _).symm

/-- The two files hold the bins at the end of the pass; writing NEWPH leaves LASTPH alone. -/
theorem scalarAt_storeVocoded {k : Nat} (hk : k < windowSize s) :
    scalarAt p (storeVocoded p spa s).mem .lastph k = ((finalBins p spa s)[k]?).map BinPhase.last ∧
      scalarAt p (storeVocoded p spa s).mem .newph k = ((finalBins p spa s)[k]?).map BinPhase.acc := by
  have hacc : ((finalBins p spa s).map BinPhase.acc).length ≤ regionScalars p .newph :=
    (finalBins_map_length hspa _).trans_le hw
  have hstored : ∀ (m : Memory) (g : Region) (f : BinPhase Word → Word), elementSize g = 8 →
      scalarAt p (writeScalars p m g 0 ((finalBins p spa s).map f)) g k = ((finalBins p spa s)[k]?).map f :=
    fun m g f hg => by
      rw [scalarAt_writeScalars p m hg _ ((finalBins_map_length hspa f).symm ▸ hk), ← List.getElem?_map]
      exact (List.getElem?_eq_getElem _).symm
  rw [storeVocoded_mem_eq]
  refine ⟨?_, hstored _ .newph _ rfl⟩
  have hroom : k < regionElements p .lastph := hk.trans_le hw
  rw [scalarAt_congr rfl hroom (scalarsOf_writeScalars_of_ne hp hacc (by decide)), hstored _ .lastph _ rfl]

end Held

end Vocode

/-- Settles O30: VOCODE passes its checks, so its body runs; what it stores is said above, and that it writes nothing
else is its row of R70. -/
theorem vocodeStoresThePass : Obligations.VocodeStoresThePass := by
  intro s spa hc hk hspa
  obtain ⟨hexec, hkept⟩ := exec_completes hc hk
  obtain ⟨size, -, frames, -⟩ := within_capacities hc hk
  have hw := size (by decide)
  have hf := frames (.inl rfl)
  have hin := config_regionsInOrder
  have hbody : bodyOf Config.params .vocode s = storeVocoded Config.params spa s := vocodeBody_of_held hspa
  rw [hbody] at hexec hkept
  exact ⟨_, hexec, fun _ hi _ hb => complexAt_storeVocoded hspa hin hw hf hi hb,
    fun _ hb => scalarAt_storeVocoded hspa hin hw hb, hkept, rfl⟩

end Sys2Proof.Machine
end

section
/-! Over the reals silence passes through the pipeline (44_vocoder.md R212 c): a frame of zeros is transformed to zeros,
a bin of magnitude 0 emits 0 whatever its phase, and zeros overlap to zeros. -/

namespace Sys2Proof.Machine

section Silence

variable (tie : RoundTie)

/-- A frame of `n` zeros. -/
def silentFrame (n : Nat) : List (Cx ℝ) := List.replicate n ⟨0, 0⟩

theorem silentFrame_length (n : Nat) : (silentFrame n).length = n := List.length_replicate

theorem valueAt_silentFrame (n i : Nat) : valueAt tie (silentFrame n) i = 0 := by
  have hzero : (silentFrame n).getD i ⟨0, 0⟩ = ⟨0, 0⟩ := by
    rcases Nat.lt_or_ge i n with hin | hout
    · exact List.getD_replicate _ hin
    · exact List.getD_eq_default _ _ ((silentFrame_length n).trans_le hout)
  rw [valueAt, elementOr0_numExact, hzero]
  rfl

/-- What windowing makes of a constant that it maps to `d` whatever the window. -/
theorem zipWith_replicate_const {α β γ : Type} {f : α → β → γ} {a : α} {d : γ} (hf : ∀ c, f a c = d) {n : Nat}
    {cs : List β} (hn : cs.length ≤ n) : List.zipWith f (List.replicate n a) cs = List.replicate cs.length d := by
  refine List.eq_replicate_iff.mpr ⟨by simpa using hn, fun y hy => ?_⟩
  obtain ⟨i, hi, rfl⟩ := List.mem_iff_getElem.mp hy
  simp [hf]

/-- The slices of a signal of zeros are frames of zeros. -/
theorem slice_silence {w h l i : Nat} (hs : i * h + w ≤ l) :
    slice (numExact tie) w h (List.replicate l 0) i = silentFrame w := by
  have hzero : ∀ c, (⟨(numExact tie).fmul 0 c, zeroOf (numExact tie)⟩ : Cx ℝ) = ⟨0, 0⟩ := fun c =>
    congrArg₂ Cx.mk (zero_mul c) Int.cast_zero
  have hlen := hannWindow_length (numExact tie) w
  rw [slice, List.drop_replicate, zipWith_replicate_const hzero (by omega), hlen, silentFrame]

theorem fft_silentFrame (n : Nat) : fft (numExact tie) n (silentFrame (2 ^ n)) = silentFrame (2 ^ n) := by
  have hlen := fft_length (numExact tie) n _ (silentFrame_length (2 ^ n))
  refine ext_valueAt tie (hlen.trans (silentFrame_length _).symm) fun k hk => ?_
  rw [valueAt_fft tie (silentFrame_length _) (hk.trans_eq hlen), valueAt_silentFrame]
  exact Finset.sum_eq_zero fun j _ => by rw [valueAt_silentFrame, zero_mul]

/-- The inverse transform of zeros, since zeros are a transform of zeros. -/
theorem ifft_silentFrame (n : Nat) : ifft (numExact tie) n (silentFrame (2 ^ n)) = silentFrame (2 ^ n) := by
  have hlen := silentFrame_length (2 ^ n)
  obtain ⟨-, hinv, -⟩ := ifftInvertsFft tie n (silentFrame (2 ^ n)) hlen
  rwa [fft_silentFrame] at hinv

theorem analyzeSignal_silence {logw h f l : Nat} (hs : signalSpan f (2 ^ logw) h ≤ l) :
    analyzeSignal (numExact tie) logw h f (List.replicate l 0) = List.replicate f (silentFrame (2 ^ logw)) := by
  refine List.eq_replicate_iff.mpr ⟨by simp [analyzeSignal], fun fr hfr => ?_⟩
  obtain ⟨i, hi, rfl⟩ := List.mem_map.mp hfr
  rw [analyzeFrame, slice_silence tie ((frame_end_le_signalSpan (List.mem_range.mp hi) _ h).trans hs), fft_silentFrame]

/-- A bin emits its magnitude, turned: 0 for the value 0. -/
theorem binEmits_zero (w h : Nat) (r : ℝ) (k : Nat) (b : BinPhase ℝ) :
    binEmits (numExact tie) w h r k b ⟨0, 0⟩ = ⟨0, 0⟩ := by
  obtain ⟨hemits, -⟩ := magnitudeIsCarriedThrough tie w h k r b ⟨0, 0⟩
  have hzero : toComplex ⟨0, 0⟩ = 0 := rfl
  rw [hzero, norm_zero, Complex.ofReal_zero, zero_mul, ← hzero] at hemits
  exact toComplex_injective hemits

theorem frameEmits_silentFrame (w h : Nat) (r : ℝ) (k : Nat) (bs : List (BinPhase ℝ)) :
    frameEmits (numExact tie) w h r k bs (silentFrame bs.length) = silentFrame bs.length := by
  induction bs generalizing k with
  | nil => rfl
  | cons b bs ih => exact congrArg₂ List.cons (binEmits_zero tie w h r k b) (ih (k + 1))

/-- A pass over frames of zeros emits them as they are. -/
theorem passEmits_silence (w h : Nat) (r : ℝ) {n : Nat} (f : Nat) {bs : List (BinPhase ℝ)} (hb : bs.length = n) :
    passEmits (numExact tie) w h r bs (List.replicate f (silentFrame n)) = List.replicate f (silentFrame n) := by
  induction f generalizing bs with
  | zero => rfl
  | succ f ih =>
    have hnext : (frameAfter (numExact tie) w h r 0 bs (silentFrame n)).length = n := by
      rw [frameAfter_length, silentFrame_length, hb, min_self]
    rw [List.replicate_succ, passEmits, ih hnext, ← hb, frameEmits_silentFrame]

theorem contribution_silentFrame (logw : Nat) :
    contribution (numExact tie) logw (silentFrame (2 ^ logw)) = List.replicate (2 ^ logw) 0 := by
  have hlen := hannWindow_length (numExact tie) (2 ^ logw)
  rw [contribution, ifft_silentFrame, silentFrame, zipWith_replicate_const (d := 0) ?_ hlen.le, hlen]
  exact fun c => zero_mul c

theorem addFrom_silence (at_ n m : Nat) :
    addFrom (numExact tie) at_ (List.replicate n 0) (List.replicate m 0) = List.replicate n 0 := by
  induction n generalizing at_ m with
  | zero => rfl
  | succ n ih =>
    match at_, m with
    | 0, 0 => rfl
    | 0, m + 1 => exact congrArg₂ List.cons (add_zero 0) (ih 0 m)
    | at_ + 1, m => exact congrArg (List.cons 0) (ih at_ m)

theorem overlapAdd_silence (logw h i f n : Nat) :
    overlapAdd (numExact tie) logw h i (List.replicate n 0) (List.replicate f (silentFrame (2 ^ logw))) =
      List.replicate n 0 := by
  induction f generalizing i with
  | zero => rfl
  | succ f ih => rw [List.replicate_succ, overlapAdd, contribution_silentFrame, addFrom_silence, ih]

end Silence

/-- Settles O58: analysis, pass and overlap-add each keep silence. -/
theorem silenceStaysSilent : Obligations.SilenceStaysSilent := by
  intro tie logw h f l r _ _ hs
  have hbins : (clearedBins (numExact tie) (2 ^ logw)).length = 2 ^ logw := List.length_replicate
  have hzero : zeroOf (numExact tie) = 0 := Int.cast_zero
  rw [analyzeSignal_silence tie hs, vocodeSpectrum, passEmits_silence tie _ _ _ _ hbins, synthesizeFrames, hzero,
    overlapAdd_silence, List.length_replicate, outputLength]

end Sys2Proof.Machine
end

section
/-! The command SYNTH settled (45_synthesizer.md R222). -/

namespace Sys2Proof.Machine

section Synth

variable {p : Params} {s : State} {bank : Bank} {spec : List (Cx Word)}

/-- The output Signal of SYNTH: the overlap-add of the frames in the bank (R220, R222). -/
def synthesizedOutput (p : Params) (spec : List (Cx Word)) (s : State) : List Word :=
  synthesizeFrames (machineNum p) (logwOf s) (hopSize s) (framesOf (windowSize s) (frameCount s) spec)

theorem synthesizedOutput_length (p : Params) (spec : List (Cx Word)) (s : State) :
    (synthesizedOutput p spec s).length = outputLength (frameCount s) (windowSize s) (hopSize s) := by
  rw [synthesizedOutput, synthesizeFrames_length, framesOf_length, windowSize]

theorem synthBody_of_held (hspec : readSpectrum p s (bankRegion bank) = some spec) :
    synthBody p bank s = dropFrame p (storeSynthesis p spec (ensureWindow p s)) := by
  rw [synthBody, hspec]

/-- The registers after the body of SYNTH: OUTLEN written, WINOK set, nothing else but the memory changed. -/
theorem synthBody_registers (hspec : readSpectrum p s (bankRegion bank) = some spec) :
    synthBody p bank s = { s with
      mem := (synthBody p bank s).mem
      outlen := (synthBody p bank s).outlen
      status := setWinok true s.status } := by
  obtain ⟨hstatus, hwindow⟩ := ensureWindow_spec p s
  rw [synthBody_of_held hspec, ← hstatus]
  generalize ensureWindow p s = u at hwindow ⊢
  rw [hwindow]
  rfl

/-- SYNTH leaves in OUTLEN the length of the output, which fits (10_state.md R27). -/
theorem outlen_synthBody (hspec : readSpectrum p s (bankRegion bank) = some spec)
    (hcap : outputLength (frameCount s) (windowSize s) (hopSize s) < 2 ^ 32) :
    (synthBody p bank s).outlen.toNat = outputLength (frameCount s) (windowSize s) (hopSize s) := by
  obtain ⟨hw, hh, hf, -⟩ := ensureWindow_sizes p s
  rw [synthBody_of_held hspec, dropFrame_outlen, storeSynthesis_outlen, hw, hh, hf, BitVec.toNat_ofNat,
    Nat.mod_eq_of_lt hcap]

/-- The implicit window changes nothing of what the body stores in OUT. -/
theorem storeSynthesis_ensureWindow_mem (p : Params) (spec : List (Cx Word)) (s : State) :
    (storeSynthesis p spec (ensureWindow p s)).mem =
      writeScalars p (ensureWindow p s).mem .out 0 (synthesizedOutput p spec s) := by
  obtain ⟨hw, hh, hf, -⟩ := ensureWindow_sizes p s
  obtain ⟨hl, -⟩ := ensureWindow_registers p s
  rw [storeSynthesis, hw, hh, hf, logwOf, hl, ← logwOf, synthesizedOutput]

/-- The scratch is dropped when the body of SYNTH ends (10_state.md R44). -/
theorem readByte_synthBody_frame (hspec : readSpectrum p s (bankRegion bank) = some spec) {a : Nat}
    (hlow : regionBase p .frm ≤ a) (hhigh : a < regionBase p .frm + 16 * windowSize s) :
    readByte (synthBody p bank s).mem a = none := by
  obtain ⟨hw, -⟩ := ensureWindow_sizes p s
  rw [synthBody_of_held hspec]
  exact readByte_dropFrame p _ hlow (hw.symm ▸ hhigh)

section Checked

variable (hp : p.regionsInOrder = true) (hw : windowSize s ≤ p.wMax)
  (ho : outputLength (frameCount s) (windowSize s) (hopSize s) ≤ p.outCap)
  (hspec : readSpectrum p s (bankRegion bank) = some spec)
include hp hw hspec

/-- The body's last edit leaves every memory but FRM as the store left it. -/
theorem scalarsOf_synthBody {g : Region} (hne : g ≠ .frm) :
    scalarsOf p (synthBody p bank s).mem g =
      scalarsOf p (writeScalars p (ensureWindow p s).mem .out 0 (synthesizedOutput p spec s)) g := by
  obtain ⟨hw', -⟩ := ensureWindow_sizes p s
  rw [synthBody_of_held hspec, ← storeSynthesis_ensureWindow_mem]
  exact scalarsOf_dropFrame hp (hw'.trans_le hw) hne

include ho

/-- Sample m of the output is stored as element m of OUT (R222). -/
theorem scalarAt_synthBody_out {m : Nat} (hm : m < outputLength (frameCount s) (windowSize s) (hopSize s)) :
    scalarAt p (synthBody p bank s).mem .out m = (synthesizedOutput p spec s)[m]? := by
  have hin : m < (synthesizedOutput p spec s).length := hm.trans_eq (synthesizedOutput_length p spec s).symm
  have hroom : m < regionElements p .out := hm.trans_le ho
  rw [scalarAt_congr rfl hroom (scalarsOf_synthBody hp hw hspec (by decide)), scalarAt_writeScalars p _ rfl _ hin,
    List.getElem?_eq_getElem hin]

/-- The window that the body begins by generating is in WIN when it ends (42_window.md R182). -/
theorem scalarAt_synthBody_win (hok : s.status.winok = false) {j : Nat} (hj : j < windowSize s) :
    scalarAt p (synthBody p bank s).mem .win j = some (hann (machineNum p) (windowSize s) j) := by
  have hgenerated : ensureWindow p s = generateWindow p s := by simp [ensureWindow, hok]
  have hroom : (synthesizedOutput p spec s).length ≤ regionScalars p .out :=
    (synthesizedOutput_length p spec s).trans_le ho
  have hkept : scalarsOf p (synthBody p bank s).mem .win = scalarsOf p (generateWindow p s).mem .win := by
    rw [scalarsOf_synthBody hp hw hspec (by decide), scalarsOf_writeScalars_of_ne hp hroom (by decide), hgenerated]
  have hin : j < regionElements p .win := hj.trans_le hw
  rw [scalarAt_congr rfl hin hkept, scalarAt_generateWindow p s hj]

end Checked

end Synth

theorem legal_outCap_lt {p : Params} (hp : p.legal = true) : p.outCap < 2 ^ 32 := by
  simp only [Params.legal, Params.capsLegal, Bool.and_eq_true, decide_eq_true_eq] at hp
  omega

/-- Settles O31: SYNTH passes its checks, so its body runs; what it stores, generates and drops is said above, and
that it writes nothing else is its row of R70. -/
theorem synthStoresTheOutput : Obligations.SynthStoresTheOutput := by
  intro bank s spec hc hk hread
  have hspec : readSpectrum Config.params s (bankRegion bank) = some spec := by cases bank <;> exact hread
  obtain ⟨hexec, hkept⟩ := exec_completes hc hk
  obtain ⟨size, -, -, out, -⟩ := within_capacities hc hk
  have hw := size nofun
  have ho := out ⟨bank, rfl⟩
  have hin := config_regionsInOrder
  exact ⟨_, hexec, outlen_synthBody hspec (ho.trans_lt (legal_outCap_lt config_params_legal)),
    fun _ hm => scalarAt_synthBody_out hin hw ho hspec hm,
    fun hok _ hj => scalarAt_synthBody_win hin hw ho hspec hok hj,
    fun _ hlow hhigh => readByte_synthBody_frame hspec hlow hhigh, hkept,
    congrArg complete (synthBody_registers hspec)⟩

end Sys2Proof.Machine
end

section
/-! The closed forms of 45_synthesizer.md over the reals settled: each output sample is the sum of what the frames that
cover it add (R220, R221, R225), so analysis then synthesis multiplies it by the sum of the squared windows (R223). -/

namespace Sys2Proof.Machine

open Finset

section OverlapAdd

variable (tie : RoundTie)

/-! ## One frame -/

/-- What terms laid from position `start` on add at position m. -/
noncomputable def termAt (start : Nat) (terms : List ℝ) (m : Nat) : ℝ :=
  if start ≤ m then terms.getD (m - start) 0 else 0

theorem termAt_nil (start m : Nat) : termAt start [] m = 0 := by simp [termAt]

theorem termAt_of_lt {start m : Nat} (h : m < start) (terms : List ℝ) : termAt start terms m = 0 :=
  if_neg (Nat.not_le.mpr h)

theorem termAt_zero_start (terms : List ℝ) (m : Nat) : termAt 0 terms m = terms.getD m 0 := rfl

theorem termAt_succ_succ (start : Nat) (terms : List ℝ) (m : Nat) :
    termAt (start + 1) terms (m + 1) = termAt start terms m := by
  simp [termAt]

/-- Each position of the output takes its own term (R221). -/
theorem addFrom_getElem? (start : Nat) (out terms : List ℝ) (m : Nat) :
    (addFrom (numExact tie) start out terms)[m]? = (out[m]?).map (· + termAt start terms m) := by
  induction out generalizing start terms m with
  | nil => simp [addFrom]
  | cons x xs ih =>
    match start, terms, m with
    | 0, [], m => simp [addFrom, termAt_nil]
    | 0, c :: cs, 0 => simp [addFrom, termAt_zero_start, numExact]
    | 0, c :: cs, m + 1 => simp [addFrom, ih, termAt_zero_start]
    | start + 1, terms, 0 => simp [addFrom, termAt_of_lt]
    | start + 1, terms, m + 1 => simp [addFrom, ih, termAt_succ_succ]

/-- Coefficient j of the window (42_window.md R180). -/
theorem hannWindow_getElem? {R : Type} (num : Num R) (w j : Nat) :
    (hannWindow num w)[j]? = if j < w then some (hann num w j) else none := by
  rw [hannWindow, List.getElem?_map]
  split
  · next hj => rw [List.getElem?_range hj, Option.map_some]
  · next hj => rw [List.getElem?_eq_none (by simpa using hj), Option.map_none]

/-- A frame adds the real part of its inverse transform, windowed, and nothing past the window (R221, R224). -/
theorem contribution_getD (logw : Nat) (frame : List (Cx ℝ)) (j : Nat) :
    (contribution (numExact tie) logw frame).getD j 0 =
      if j < 2 ^ logw then
        ((ifft (numExact tie) logw frame)[j]?.getD ⟨0, 0⟩).re * hann (numExact tie) (2 ^ logw) j
      else 0 := by
  rw [contribution, List.getD_eq_getElem?_getD, List.getElem?_zipWith, hannWindow_getElem?]
  by_cases hj : j < 2 ^ logw
  · rw [if_pos hj, if_pos hj]
    cases (ifft (numExact tie) logw frame)[j]? with
    | none => exact (zero_mul _).symm
    | some z => rfl
  · rw [if_neg hj, if_neg hj]
    cases (ifft (numExact tie) logw frame)[j]? <;> rfl

/-- The summand of R225. -/
theorem termAt_contribution (logw start : Nat) (frame : List (Cx ℝ)) (m : Nat) :
    termAt start (contribution (numExact tie) logw frame) m =
      if start ≤ m ∧ m < start + 2 ^ logw then
        ((ifft (numExact tie) logw frame)[m - start]?.getD ⟨0, 0⟩).re * hann (numExact tie) (2 ^ logw) (m - start)
      else 0 := by
  rw [termAt, contribution_getD, ← ite_and]
  exact if_congr (and_congr_right fun hle => Nat.sub_lt_iff_lt_add' hle) rfl rfl

/-! ## All frames -/

/-- The frames from number `i` on add their terms one after the other (R222). -/
theorem overlapAdd_getElem? (logw h i : Nat) (out : List ℝ) (frames : List (List (Cx ℝ))) (m : Nat) :
    (overlapAdd (numExact tie) logw h i out frames)[m]? =
      (out[m]?).map (· + ∑ j ∈ range frames.length,
        termAt ((i + j) * h) (contribution (numExact tie) logw (frames.getD j [])) m) := by
  induction frames generalizing i out with
  | nil => simp [overlapAdd]
  | cons f fs ih =>
    rw [overlapAdd, ih, addFrom_getElem?, Option.map_map, List.length_cons, sum_range_succ']
    congr 1
    funext x
    simp only [Function.comp_apply, List.getD_cons_succ, List.getD_cons_zero, Nat.add_zero, Nat.add_right_comm i _ 1,
      ← Nat.add_assoc]
    ring

theorem synthesizeFrames_getElem? (logw h : Nat) (frames : List (List (Cx ℝ))) {m : Nat}
    (hm : m < outputLength frames.length (2 ^ logw) h) :
    (synthesizeFrames (numExact tie) logw h frames)[m]? =
      some (∑ i ∈ range frames.length,
        termAt (i * h) (contribution (numExact tie) logw (frames.getD i [])) m) := by
  have hzero : zeroOf (numExact tie) = 0 := Int.cast_zero
  simp [synthesizeFrames, overlapAdd_getElem?, hm, hzero]

/-! ## A frame that the analysis made -/

/-- Sample j of slice i over the reals (43_analyzer.md R191). -/
theorem slice_getElem? {w h i : Nat} {sig : List ℝ} (hs : i * h + w ≤ sig.length) {j : Nat} (hj : j < w) :
    (slice (numExact tie) w h sig i)[j]? = some ⟨sig.getD (i * h + j) 0 * hann (numExact tie) w j, 0⟩ := by
  have hin : i * h + j < sig.length := by omega
  have hzero : zeroOf (numExact tie) = 0 := Int.cast_zero
  rw [slice, hzero, List.getElem?_zipWith, List.getElem?_drop, hannWindow_getElem?, if_pos hj,
    List.getElem?_eq_getElem hin, List.getD_eq_getElem _ _ hin]
  rfl

/-- The inverse transform gives the slice back, and the second window squares the first. -/
theorem termAt_contribution_analyzeFrame {logw h i : Nat} {sig : List ℝ} (hs : i * h + 2 ^ logw ≤ sig.length)
    (m : Nat) :
    termAt (i * h) (contribution (numExact tie) logw (analyzeFrame (numExact tie) logw h sig i)) m =
      sig.getD m 0 *
        if i * h ≤ m ∧ m < i * h + 2 ^ logw then hann (numExact tie) (2 ^ logw) (m - i * h) ^ 2 else 0 := by
  obtain ⟨-, hinverse, -⟩ := ifftInvertsFft tie logw _ (slice_length (numExact tie) (2 ^ logw) h sig i hs)
  rw [termAt_contribution, analyzeFrame, hinverse]
  split
  · next hcovers =>
    obtain ⟨hle, hlt⟩ := hcovers
    rw [slice_getElem? tie hs (Nat.sub_lt_left_of_lt_add hle hlt), Nat.add_sub_cancel' hle, Option.getD_some]
    ring
  · rw [mul_zero]

end OverlapAdd

/-- Settles O56: the sum of what each frame adds, with the summand written out. -/
theorem overlapAddClosedForm : Obligations.OverlapAddClosedForm := by
  intro tie logw h frames _ m hm
  rw [synthesizeFrames_getElem? tie logw h frames hm]
  exact congrArg some (sum_congr rfl fun i _ => termAt_contribution tie logw (i * h) _ m)

/-- Settles O57: in that sum every frame adds the same sample, times its own squared window. -/
theorem analysisThenSynthesisGain : Obligations.AnalysisThenSynthesisGain := by
  intro tie logw h f sig _ _ hs m hm
  have hlen : (analyzeSignal (numExact tie) logw h f sig).length = f := by simp [analyzeSignal]
  rw [synthesizeFrames_getElem? tie logw h _ (hlen.symm ▸ hm), hlen, mul_sum]
  refine congrArg some (sum_congr rfl fun i hi => ?_)
  have hif : i < f := mem_range.mp hi
  have hframe : (analyzeSignal (numExact tie) logw h f sig).getD i [] = analyzeFrame (numExact tie) logw h sig i := by
    rw [List.getD_eq_getElem?_getD, analyzeSignal_getElem? _ _ _ hif, Option.getD_some]
  rw [hframe]
  exact termAt_contribution_analyzeFrame tie ((frame_end_le_signalSpan hif _ h).trans hs) m

end Sys2Proof.Machine
end

section
/-! The statements of 46_pipeline.md settled: the commands NOP (R230) and RUN (R231), and the length of a pipeline's
output (R235). -/

namespace Sys2Proof.Machine

/-! ## A command does not see that another completed

No check and no body looks at BUSY or DONE, and the end of a command, refused or completed, writes both. -/

variable {p : Params} {s u : State}

@[simp] theorem complete_complete (s : State) : complete (complete s) = complete s := rfl

theorem complete_done (s : State) : (complete s).status.done = true := rfl

theorem complete_err (s : State) : (complete s).status.err = s.status.err := rfl

@[simp] theorem raiseCmdError_complete (e : CmdError) (s : State) :
    raiseCmdError e (complete s) = raiseCmdError e s := rfl

theorem ensureWindow_complete (p : Params) (s : State) :
    ensureWindow p (complete s) = complete (ensureWindow p s) := by
  rw [ensureWindow, ensureWindow, apply_ite complete]
  rfl

theorem ensureWindowFreely_complete (p : Params) (s : State) :
    ensureWindowFreely p (complete s) = complete (ensureWindowFreely p s) := by
  rw [ensureWindowFreely, ensureWindowFreely, apply_ite complete, apply_ite complete]
  rfl

theorem transformFrame_complete (p : Params) (f : Nat → List (Cx Word) → List (Cx Word)) (s : State) :
    transformFrame p f (complete s) = complete (transformFrame p f s) := by
  have hread : readFrame p (complete s) = readFrame p s := rfl
  rw [transformFrame, transformFrame, hread]
  cases readFrame p s <;> rfl

theorem analyzeBody_complete (p : Params) (s : State) : analyzeBody p (complete s) = complete (analyzeBody p s) := by
  have hread : readSignal p (complete s) = readSignal p s := rfl
  rw [analyzeBody, analyzeBody, hread, ensureWindow_complete, ensureWindowFreely_complete]
  cases readSignal p s <;> rfl

theorem vocodeBody_complete (p : Params) (s : State) : vocodeBody p (complete s) = complete (vocodeBody p s) := by
  have hread : readSpectrum p (complete s) .spa = readSpectrum p s .spa := rfl
  rw [vocodeBody, vocodeBody, hread]
  cases readSpectrum p s .spa <;> rfl

theorem synthBody_complete (p : Params) (bank : Bank) (s : State) :
    synthBody p bank (complete s) = complete (synthBody p bank s) := by
  have hread : readSpectrum p (complete s) (bankRegion bank) = readSpectrum p s (bankRegion bank) := rfl
  rw [synthBody, synthBody, hread, ensureWindow_complete, ensureWindowFreely_complete]
  cases readSpectrum p s (bankRegion bank) <;> rfl

theorem runBody_complete (p : Params) (s : State) : runBody p (complete s) = complete (runBody p s) := by
  have hread : readSignal p (complete s) = readSignal p s := rfl
  rw [runBody, runBody, hread, analyzeBody_complete, vocodeBody_complete, synthBody_complete,
    ensureWindowFreely_complete]
  cases readSignal p s <;> rfl

theorem bodyOf_complete (p : Params) (i : Instr) (s : State) :
    bodyOf p i (complete s) = complete (bodyOf p i s) := by
  cases i with
  | nop => rfl
  | fft => exact transformFrame_complete p _ s
  | ifft => exact transformFrame_complete p _ s
  | wingen => rfl
  | analyze => exact analyzeBody_complete p s
  | vocode => exact vocodeBody_complete p s
  | synth bank => exact synthBody_complete p bank s
  | run => exact runBody_complete p s

/-- A command answers the same whether or not the one before it has been marked as completed. -/
theorem exec_complete (i : Instr) (s : State) : exec i (complete s) = exec i s := by
  have hconfig : configError Config.params i (complete s) = configError Config.params i s := by cases i <;> rfl
  have hcapacity : capacityError Config.params i (complete s) = capacityError Config.params i s := by cases i <;> rfl
  rw [exec_eq_perform, exec_eq_perform, hconfig, hcapacity, perform, perform, bodyOf_complete,
    complete_complete, raiseCmdError_complete, raiseCmdError_complete]

/-- So a command that passes its checks runs its body on what the body of the command before it left. -/
theorem exec_after_complete {i : Instr} (hc : configError Config.params i u = false)
    (hk : capacityError Config.params i u = false) :
    exec i (complete u) = .next (complete (bodyOf Config.params i u)) := by
  obtain ⟨hexec, -⟩ := exec_completes hc hk
  exact (exec_complete i u).trans hexec

/-! ## RUN (O32) -/

/-- The CAP check of RUN is the CAP checks of its three commands, for the frame count it computes (60_exceptions.md
R243). -/
theorem runCapError_eq_false_iff :
    runCapError p s = false ↔ analyzeCapError p s = false ∧ tooManyFrames p (analysisFrames s) = false ∧
      outputTooLong p s (analysisFrames s) = false := by
  simp only [runCapError, analyzeCapError, Bool.or_eq_false_iff]
  tauto

/-- A state with the sizes RUN works with, and in NFRAMES the frame count it computes, passes the checks of VOCODE and
of SYNTH: they are among the checks of RUN. -/
theorem passes_checks_of_run (hc : configError p .run s = false) (hk : capacityError p .run s = false)
    (hl : logwOf u = logwOf s) (hh : hopSize u = hopSize s) (hf : frameCount u = analysisFrames s) :
    passConfigError p u = false ∧ vocodeCapError p u = false ∧ synthCapError p u = false := by
  obtain ⟨-, frames, output⟩ := runCapError_eq_false_iff.mp hk
  have hconfig : passConfigError p u = passConfigError p s := by
    simp only [passConfigError, windowTooLarge, windowTooSmall, hopIsZero, hl, hh]
  have houtput : outputTooLong p u (frameCount u) = outputTooLong p s (analysisFrames s) := by
    rw [outputTooLong, outputTooLong, windowSize, windowSize, hl, hh, hf]
  have hframes : vocodeCapError p u = false := by rw [vocodeCapError, hf, frames]
  exact ⟨hconfig.trans hc, hframes, Bool.or_eq_false_iff.mpr ⟨hframes, houtput.trans output⟩⟩

/-- Where RUN passes its checks, each of the three commands passes its own on what the one before it leaves. -/
theorem run_checks_its_commands (hp : p.legal = true) (hc : configError p .run s = false)
    (hk : capacityError p .run s = false) {sig : List Word} (hsig : readSignal p s = some sig) :
    analyzeCapError p s = false ∧
      (passConfigError p (analyzeBody p s) = false ∧ vocodeCapError p (analyzeBody p s) = false) ∧
      passConfigError p (vocodeBody p (analyzeBody p s)) = false ∧
      synthCapError p (vocodeBody p (analyzeBody p s)) = false := by
  obtain ⟨analyzeCap, -⟩ := runCapError_eq_false_iff.mp hk
  obtain ⟨-, framesFit, -⟩ := within_capacities hc hk
  have hcount : frameCount (analyzeBody p s) = analysisFrames s :=
    frameCount_analyzeBody hsig ((framesFit (.inr rfl)).trans_lt (legal_frameCap_lt hp))
  have analysis : BodyKeeps p .analyze s s (analyzeBody p s) :=
    (bodyOf_edits (i := .analyze) hp hc analyzeCap).keeps
  obtain ⟨vocodeConfig, vocodeCap, -⟩ := passes_checks_of_run hc hk analysis.logw analysis.hopSize hcount
  have pass : BodyKeeps p .vocode _ (analyzeBody p s) (vocodeBody p (analyzeBody p s)) :=
    (bodyOf_edits (i := .vocode) hp vocodeConfig vocodeCap).keeps
  obtain ⟨synthConfig, -, synthCap⟩ := passes_checks_of_run hc hk (pass.logw.trans analysis.logw)
    (pass.hopSize.trans analysis.hopSize) ((frameCount_vocodeBody p _).trans hcount)
  exact ⟨analyzeCap, ⟨vocodeConfig, vocodeCap⟩, synthConfig, synthCap⟩

theorem runBody_of_held {sig : List Word} (hsig : readSignal p s = some sig) :
    runBody p s = synthBody p .spb (vocodeBody p (analyzeBody p s)) := by
  rw [runBody, hsig]

/-- Settles O32: each of the three commands passes its checks, because RUN passed all of them and none changes a size;
each then runs its body on what the body before it left, which is the body of RUN. -/
theorem runIsTheThreeCommands : Obligations.RunIsTheThreeCommands := by
  intro s hc hk hheld
  obtain ⟨sig, hsig⟩ := Option.isSome_iff_exists.mp hheld
  obtain ⟨analyzeCap, ⟨vocodeConfig, vocodeCap⟩, synthConfig, synthCap⟩ :=
    run_checks_its_commands config_params_legal hc hk hsig
  obtain ⟨hanalyze, -⟩ := exec_completes (i := .analyze) hc analyzeCap
  have hvocode := exec_after_complete (i := .vocode) vocodeConfig vocodeCap
  have hsynth := exec_after_complete (i := .synth .spb) synthConfig synthCap
  obtain ⟨hrun, -⟩ := exec_completes (i := .run) hc hk
  obtain ⟨-, herr, -⟩ := (bodyOf_edits (i := .run) config_params_legal hc hk).keeps.flags
  have hbody : bodyOf Config.params .run s = bodyOf Config.params (.synth .spb)
      (vocodeBody Config.params (analyzeBody Config.params s)) := runBody_of_held hsig
  rw [hbody] at hrun herr
  exact ⟨_, _, _, hanalyze, complete_done _, hvocode, complete_done _, hsynth, (complete_err _).trans herr,
    complete_done _, hrun⟩

/-! ## The length of the output (O35) -/

/-- Settles O35: with `L - W = q*H + s` the quotient by H is q, so the output ends H - s samples past the input; with
no whole window it is one window long. -/
theorem pipelineLengths : Obligations.PipelineLengths := by
  intro l w h q s _ hh
  refine ⟨fun hl hrest hs => ?_, fun hl => ⟨?_, hl⟩⟩
  · have hquotient : (l - w) / h = q := Nat.div_eq_of_lt_le (by omega) (by rw [Nat.succ_mul]; omega)
    have hcount : nframesOf l w h = q + 1 := by rw [nframesOf_of_le hl, hquotient]
    refine ⟨hcount, ?_, by omega, by omega⟩
    rw [hcount, outputLength, Nat.succ_mul]
    omega
  · rw [nframesOf_of_lt hl, outputLength, Nat.zero_mul, Nat.zero_add]

/-! ## NOP (O25) -/

/-- Settles O25: NOP is a perform step with no check and no body, so its completion is all it does. -/
theorem nopSetsDoneOnly : Obligations.NopSetsDoneOnly :=
  ⟨rfl, decode_encode .nop, exec_eq_perform .nop⟩

end Sys2Proof.Machine
end

section
/-! The statements of 60_exceptions.md settled: the refusals ILLCMD, CFG and CAP (R241 to R245), and ACCERR (R248). -/

namespace Sys2Proof.Machine

variable {p : Params} {s : State}

/-! ## Illegal words (O4) -/

/-- A bit of a word as the arithmetic of R103 speaks of it. -/
theorem getLsbD_eq_true_iff_div_mod {w : Word} (i : Nat) : w.getLsbD i = true ↔ w.toNat / 2 ^ i % 2 = 1 := by
  rw [BitVec.getLsbD, Nat.testBit_eq_decide_div_mod_eq, decide_eq_true_iff]

/-- The illegal words, by the three conditions of R103. -/
theorem commandWordLegal_eq_false_iff {w : Word} :
    commandWordLegal w = false ↔
      8 ≤ w.toNat % 256 ∨ w.toNat / 512 ≠ 0 ∨ (w.getLsbD 8 = true ∧ w.toNat % 256 ≠ 6) := by
  rw [getLsbD_eq_true_iff_div_mod, commandWordLegal]
  simp only [Bool.and_eq_false_iff, Bool.or_eq_false_iff, decide_eq_false_iff_not]
  omega

/-- The legal words are nine: OPC in 0x00..0x07 with BANK = 0, and SYNTH with BANK = 1 (30_encoding.md R102, R103). -/
theorem toNat_of_commandWordLegal {w : Word} (h : commandWordLegal w = true) :
    w.toNat < 8 ∨ w.toNat = 0x106 := by
  simp only [commandWordLegal, Bool.and_eq_true, Bool.or_eq_true, decide_eq_true_eq] at h
  omega

/-- The legal words are the encodings of the commands (30_encoding.md R105). -/
theorem commandWordLegal_iff_exists_encode {w : Word} : commandWordLegal w = true ↔ ∃ i, w = encode i := by
  constructor
  · intro h
    suffices ∃ i, w.toNat = (encode i).toNat from this.imp fun _ => BitVec.eq_of_toNat_eq
    rcases toNat_of_commandWordLegal h with hopc | hspa
    · interval_cases w.toNat
      exacts [⟨.nop, rfl⟩, ⟨.fft, rfl⟩, ⟨.ifft, rfl⟩, ⟨.wingen, rfl⟩, ⟨.analyze, rfl⟩, ⟨.vocode, rfl⟩,
        ⟨.synth .spb, rfl⟩, ⟨.run, rfl⟩]
    · exact ⟨.synth .spa, hspa⟩
  · rintro ⟨i, rfl⟩
    cases i with
    | synth bank => cases bank <;> decide
    | _ => decide

/-- Settles O4: the words that decode are the encodings, the legal words of R103; the others the engine refuses. -/
theorem illegalWordsAreRefused : Obligations.IllegalWordsAreRefused := by
  intro s
  rw [← commandWordLegal_eq_false_iff, Bool.not_eq_false, commandWordLegal_iff_exists_encode,
    ← Bool.not_eq_true, commandWordLegal_iff_exists_encode]
  rcases performLatched_cases s with ⟨i, hi, hp⟩ | ⟨e, he, hp⟩
  · exact ⟨fun h => absurd ⟨i, decode_eq_ok_iff.mp hi⟩ h, fun _ => ⟨i, hi, hp⟩⟩
  · refine ⟨fun _ => ⟨⟨e, he⟩, hp⟩, fun ⟨i, hi⟩ => ?_⟩
    rw [decode_eq_ok_iff.mpr hi] at he
    cases he

/-! ## The tables of CFG and CAP (O19, O20) -/

theorem transformConfigError_iff : transformConfigError Config.params s = true ↔ 10 < s.logw.toNat :=
  decide_eq_true_iff

theorem windowConfigError_iff :
    windowConfigError Config.params s = true ↔ 10 < s.logw.toNat ∨ s.logw.toNat = 0 := by
  rw [windowConfigError, Bool.or_eq_true]
  exact or_congr transformConfigError_iff decide_eq_true_iff

theorem passConfigError_iff :
    passConfigError Config.params s = true ↔ 10 < s.logw.toNat ∨ s.logw.toNat = 0 ∨ s.hop.toNat = 0 := by
  rw [passConfigError, Bool.or_eq_true, ← or_assoc]
  exact or_congr windowConfigError_iff decide_eq_true_iff

/-- The table of R242, row by row. -/
theorem configError_iff (i : Instr) (s : State) :
    configError Config.params i s = true ↔
      (i ≠ .nop ∧ 10 < s.logw.toNat) ∨
        (i ≠ .nop ∧ i ≠ .fft ∧ i ≠ .ifft ∧ s.logw.toNat = 0) ∨
        (i ≠ .nop ∧ i ≠ .fft ∧ i ≠ .ifft ∧ i ≠ .wingen ∧ s.hop.toNat = 0) := by
  cases i with
  | nop => simp [configError]
  | fft => simp [configError, transformConfigError_iff]
  | ifft => simp [configError, transformConfigError_iff]
  | wingen => simp [configError, windowConfigError_iff]
  | analyze => simp [configError, passConfigError_iff]
  | vocode => simp [configError, passConfigError_iff]
  | synth bank => simp [configError, passConfigError_iff]
  | run => simp [configError, passConfigError_iff]

/-- Settles O19: CFG is the first check of the perform step, and it is the table of R242. -/
theorem configErrorsFollowTable : Obligations.ConfigErrorsFollowTable := by
  intro i s
  rw [← configError_iff]
  rcases exec_cases i s with ⟨hc, he⟩ | ⟨hc, -, he⟩ | ⟨hc, -, he⟩
  · exact ⟨fun _ => he, fun h => absurd hc h⟩
  · exact ⟨fun h => absurd h (by simp [hc]), fun _ => .inl he⟩
  · exact ⟨fun h => absurd h (by simp [hc]), fun _ => .inr ⟨_, he, rfl⟩⟩

theorem analyzeCapError_iff :
    analyzeCapError Config.params s = true ↔
      2 ^ 20 < s.siglen.toNat ∨ 2 ^ 12 < nframesOf s.siglen.toNat (2 ^ s.logw.toNat) s.hop.toNat := by
  rw [analyzeCapError, Bool.or_eq_true]
  exact or_congr decide_eq_true_iff decide_eq_true_iff

theorem vocodeCapError_iff : vocodeCapError Config.params s = true ↔ 2 ^ 12 < s.nframes.toNat := decide_eq_true_iff

theorem synthCapError_iff :
    synthCapError Config.params s = true ↔
      2 ^ 12 < s.nframes.toNat ∨ 2 ^ 21 < s.nframes.toNat * s.hop.toNat + 2 ^ s.logw.toNat := by
  rw [synthCapError, Bool.or_eq_true]
  exact or_congr decide_eq_true_iff decide_eq_true_iff

theorem runCapError_iff :
    runCapError Config.params s = true ↔
      2 ^ 20 < s.siglen.toNat ∨ 2 ^ 12 < nframesOf s.siglen.toNat (2 ^ s.logw.toNat) s.hop.toNat ∨
        2 ^ 21 < nframesOf s.siglen.toNat (2 ^ s.logw.toNat) s.hop.toNat * s.hop.toNat + 2 ^ s.logw.toNat := by
  rw [runCapError, Bool.or_eq_true, ← or_assoc]
  exact or_congr analyzeCapError_iff decide_eq_true_iff

/-- The table of R243, row by row. -/
theorem capacityError_iff (i : Instr) (s : State) :
    capacityError Config.params i s = true ↔
      (i = .analyze ∧ (2 ^ 20 < s.siglen.toNat ∨
          2 ^ 12 < nframesOf s.siglen.toNat (2 ^ s.logw.toNat) s.hop.toNat)) ∨
        (i = .vocode ∧ 2 ^ 12 < s.nframes.toNat) ∨
        ((∃ b, i = .synth b) ∧ (2 ^ 12 < s.nframes.toNat ∨
          2 ^ 21 < s.nframes.toNat * s.hop.toNat + 2 ^ s.logw.toNat)) ∨
        (i = .run ∧ (2 ^ 20 < s.siglen.toNat ∨
          2 ^ 12 < nframesOf s.siglen.toNat (2 ^ s.logw.toNat) s.hop.toNat ∨
          2 ^ 21 < nframesOf s.siglen.toNat (2 ^ s.logw.toNat) s.hop.toNat * s.hop.toNat + 2 ^ s.logw.toNat)) := by
  cases i with
  | nop => simp [capacityError]
  | fft => simp [capacityError]
  | ifft => simp [capacityError]
  | wingen => simp [capacityError]
  | analyze => simp [capacityError, analyzeCapError_iff]
  | vocode => simp [capacityError, vocodeCapError_iff]
  | synth bank => simp [capacityError, synthCapError_iff]
  | run => simp [capacityError, runCapError_iff]

/-- Settles O20: CAP is the second check of the perform step, and it is the table of R243. -/
theorem capacityErrorsFollowTable : Obligations.CapacityErrorsFollowTable := by
  intro i s hpassed
  rw [← capacityError_iff]
  rcases exec_cases i s with ⟨hc, -⟩ | ⟨-, hk, he⟩ | ⟨-, hk, he⟩
  · exact absurd hc (by simp [hpassed])
  · exact ⟨fun _ => he, fun h => absurd hk h⟩
  · exact ⟨fun h => absurd h (by simp [hk]), fun _ => ⟨_, he, rfl⟩⟩

/-! ## What a refusal changes (O21) -/

/-- The codes a refusal can record; 0 and 4 to 15 are not among them (R240). -/
theorem errorCode_cases (e : CmdError) : errorCode e = 1 ∨ errorCode e = 2 ∨ errorCode e = 3 := by
  cases e <;> decide

/-- Settles O21: a perform step that does not complete is one of the three refusals, and each is `raiseCmdError`. -/
theorem refusalChangesStatusOnly : Obligations.RefusalChangesStatusOnly := by
  intro s t ht hdone
  rcases performLatched_cases s with ⟨i, -, hi⟩ | ⟨-, -, hill⟩
  · rw [hi] at ht
    rcases exec_refuses_or_completes i s with ⟨e, he⟩ | ⟨he, -⟩ <;> rw [he] at ht <;> cases ht
    · exact ⟨errorCode e, errorCode_cases e, rfl⟩
    · exact absurd hdone (by simp)
  · rw [hill] at ht
    cases ht
    exact ⟨errorCode .illcmd, errorCode_cases .illcmd, rfl⟩

/-! ## ACCERR (O15)

Of STATUS a body reads and writes WINOK alone. So it does the same on two states that differ in STATUS by any change
that leaves WINOK alone, the raising of ACCERR among them. -/

/-- A change of STATUS that no body sees: it keeps WINOK, and a write of WINOK goes past it. -/
structure LeavesWinok (g : Status → Status) : Prop where
  winok_eq : ∀ t, (g t).winok = t.winok
  setWinok_comm : ∀ b t, g (setWinok b t) = setWinok b (g t)

/-- The state with such a change made to its STATUS. -/
def mapStatus (g : Status → Status) (s : State) : State := { s with status := g s.status }

theorem raiseAccErr_eq_mapStatus (s : State) : raiseAccErr s = mapStatus raiseAccerr s := rfl

theorem leavesWinok_raiseAccerr : LeavesWinok raiseAccerr := ⟨fun _ => rfl, fun _ _ => rfl⟩

section
variable {g : Status → Status}

theorem generateWindow_mapStatus (hg : LeavesWinok g) (p : Params) (s : State) :
    generateWindow p (mapStatus g s) = mapStatus g (generateWindow p s) := by
  rw [mapStatus, generateWindow, ← hg.setWinok_comm]
  rfl

theorem ensureWindow_mapStatus (hg : LeavesWinok g) (p : Params) (s : State) :
    ensureWindow p (mapStatus g s) = mapStatus g (ensureWindow p s) := by
  have hwinok : (mapStatus g s).status.winok = s.status.winok := hg.winok_eq s.status
  rw [ensureWindow, ensureWindow, hwinok, generateWindow_mapStatus hg, apply_ite (mapStatus g)]

theorem ensureWindowFreely_mapStatus (hg : LeavesWinok g) (p : Params) (s : State) :
    ensureWindowFreely p (mapStatus g s) = mapStatus g (ensureWindowFreely p s) := by
  have hwinok : (mapStatus g s).status.winok = s.status.winok := hg.winok_eq s.status
  rw [ensureWindowFreely, ensureWindowFreely, hwinok, generateWindow_mapStatus hg, apply_ite (mapStatus g),
    apply_ite (mapStatus g)]
  rfl

theorem transformFrame_mapStatus (p : Params) (f : Nat → List (Cx Word) → List (Cx Word)) (s : State) :
    transformFrame p f (mapStatus g s) = mapStatus g (transformFrame p f s) := by
  have hread : readFrame p (mapStatus g s) = readFrame p s := rfl
  rw [transformFrame, transformFrame, hread]
  cases readFrame p s <;> rfl

theorem analyzeBody_mapStatus (hg : LeavesWinok g) (p : Params) (s : State) :
    analyzeBody p (mapStatus g s) = mapStatus g (analyzeBody p s) := by
  have hread : readSignal p (mapStatus g s) = readSignal p s := rfl
  rw [analyzeBody, analyzeBody, hread, ensureWindow_mapStatus hg, ensureWindowFreely_mapStatus hg]
  cases readSignal p s <;> rfl

theorem vocodeBody_mapStatus (p : Params) (s : State) :
    vocodeBody p (mapStatus g s) = mapStatus g (vocodeBody p s) := by
  have hread : readSpectrum p (mapStatus g s) .spa = readSpectrum p s .spa := rfl
  rw [vocodeBody, vocodeBody, hread]
  cases readSpectrum p s .spa <;> rfl

theorem synthBody_mapStatus (hg : LeavesWinok g) (p : Params) (bank : Bank) (s : State) :
    synthBody p bank (mapStatus g s) = mapStatus g (synthBody p bank s) := by
  have hread : readSpectrum p (mapStatus g s) (bankRegion bank) = readSpectrum p s (bankRegion bank) := rfl
  rw [synthBody, synthBody, hread, ensureWindow_mapStatus hg, ensureWindowFreely_mapStatus hg]
  cases readSpectrum p s (bankRegion bank) <;> rfl

theorem runBody_mapStatus (hg : LeavesWinok g) (p : Params) (s : State) :
    runBody p (mapStatus g s) = mapStatus g (runBody p s) := by
  have hread : readSignal p (mapStatus g s) = readSignal p s := rfl
  rw [runBody, runBody, hread, analyzeBody_mapStatus hg, vocodeBody_mapStatus, synthBody_mapStatus hg,
    ensureWindowFreely_mapStatus hg]
  cases readSignal p s <;> rfl

theorem bodyOf_mapStatus (hg : LeavesWinok g) (p : Params) (i : Instr) (s : State) :
    bodyOf p i (mapStatus g s) = mapStatus g (bodyOf p i s) := by
  cases i with
  | nop => rfl
  | fft => exact transformFrame_mapStatus p _ s
  | ifft => exact transformFrame_mapStatus p _ s
  | wingen => exact generateWindow_mapStatus hg p s
  | analyze => exact analyzeBody_mapStatus hg p s
  | vocode => exact vocodeBody_mapStatus p s
  | synth bank => exact synthBody_mapStatus hg p bank s
  | run => exact runBody_mapStatus hg p s

/-- The checks read the operand registers alone. -/
theorem checks_mapStatus (p : Params) (i : Instr) (s : State) :
    configError p i (mapStatus g s) = configError p i s ∧ capacityError p i (mapStatus g s) = capacityError p i s := by
  cases i <;> exact ⟨rfl, rfl⟩

end

/-- A command answers with ACCERR set what it answers without it, the bit set. -/
theorem exec_raiseAccErr {i : Instr} {s t : State} (h : exec i s = .next t) :
    exec i (raiseAccErr s) = .next (raiseAccErr t) := by
  obtain ⟨hconfig, hcapacity⟩ := checks_mapStatus (g := raiseAccerr) Config.params i s
  rw [exec_eq_perform, raiseAccErr_eq_mapStatus, hconfig, hcapacity]
  rcases exec_cases i s with ⟨hc, he⟩ | ⟨hc, hk, he⟩ | ⟨hc, hk, he⟩ <;> rw [he] at h <;> cases h
  · rw [hc]
    rfl
  · rw [hc, hk]
    rfl
  · rw [hc, hk, perform, bodyOf_mapStatus leavesWinok_raiseAccerr]
    rfl

theorem writeReg_raiseAccErr (s : State) (v : Word) (r : Reg) :
    writeReg (raiseAccErr s) v r = raiseAccErr (writeReg s v r) := by
  cases r <;> rfl

/-- Whether a write is legal does not depend on ACCERR, and no register or memory word takes anything from it. -/
theorem hostWrite_raiseAccErr (p : Params) (addr size : Nat) (v : Word) (s : State) :
    hostWrite p addr size v (raiseAccErr s) = raiseAccErr (hostWrite p addr size v s) := by
  have hlegal : writeLegal p (raiseAccErr s) addr size = writeLegal p s addr size := rfl
  have hplace : writePlace p addr v (raiseAccErr s) = raiseAccErr (writePlace p addr v s) := by
    unfold writePlace
    cases placeOf p addr with
    | reg r => exact writeReg_raiseAccErr s v r
    | region g => rfl
    | hole => rfl
  rw [hostWrite, hostWrite, hlegal, hplace, apply_ite raiseAccErr]

theorem hostRead_keeps_accerr (h : s.status.accerr = true) (addr size : Nat) :
    (hostRead p addr size s).status.accerr = true := by
  rcases hostRead_cases p addr size s with ⟨-, w, hr⟩ | ⟨-, hr⟩ | ⟨-, hr⟩ <;> rw [hr]
  · exact h
  · exact h
  · rfl

theorem hostWrite_keeps_accerr (h : s.status.accerr = true) (addr size : Nat) (v : Word) :
    (hostWrite p addr size v s).status.accerr = true := by
  rcases hostWrite_cases p addr size v s with ⟨-, r, -, hw⟩ | ⟨-, g, -, hw⟩ | ⟨-, hw⟩ <;> rw [hw]
  · cases r <;> exact h
  · exact h
  · rfl

/-- No perform step changes ACCERR: a refusal does not write it, and no command does (10_state.md R50). -/
theorem performLatched_accerr {s t : State} (h : performLatched s = .next t) :
    t.status.accerr = s.status.accerr := by
  rcases performLatched_cases s with ⟨i, -, hi⟩ | ⟨-, -, hill⟩
  · obtain ⟨-, -, haccerr, -⟩ := commandsWriteOnlyTheirRow i s t (hi ▸ h)
    exact haccerr
  · rw [hill] at h
    cases h
    rfl

/-- Of the acts of the environment only the reset event clears ACCERR. -/
theorem environmentAct_keeps_accerr {r : State} (h : s.status.accerr = true) {a : Act} (ha : a ≠ .reset) :
    (environmentAct p r a s).status.accerr = true := by
  cases a with
  | bus op =>
    cases op with
    | read addr size => exact hostRead_keeps_accerr h addr size
    | write addr size v => exact hostWrite_keeps_accerr h addr size v
  | poll => exact hostRead_keeps_accerr h _ _
  | reset => exact absurd rfl ha

theorem accerr_after_step {s t : State} (h : s.status.accerr = true) (ht : step s = .next t) :
    t.status.accerr = true ∨ ∃ e rest, s.script = e :: rest ∧ e.act = .reset := by
  rcases step_cases s with ⟨-, hs⟩ | ⟨e, rest, hscript, -, hs⟩ | ⟨-, -, hs⟩
  · exact .inl ((performLatched_accerr (hs ▸ ht)).trans h)
  · by_cases hreset : e.act = .reset
    · exact .inr ⟨e, rest, hscript, hreset⟩
    · rw [hs] at ht
      cases ht
      have hrest : ({ s with script := scriptAfter s.status.busy e rest } : State).status.accerr = true := h
      exact .inl (environmentAct_keeps_accerr hrest hreset)
  · rw [hs] at ht
    cases ht
    exact .inl h

/-- Settles O15: sticky under every move but the reset event; unseen by the checks and the body of every command, and
by every host write. -/
theorem accerrIsStickyAndInert : Obligations.AccerrIsStickyAndInert :=
  ⟨fun _ _ => accerr_after_step, fun _ _ _ => exec_raiseAccErr, hostWrite_raiseAccErr Config.params⟩

end Sys2Proof.Machine
end
